-- ==== Sys2Proof/Word.lean ====
section
/-! DEFINITION. The word types of the block (00_scope.md R9, R10): 32-bit registers and port words, 8-bit message bytes,
18-bit port addresses, and bit streams. -/

namespace Sys2Proof

/-- A register or a port word: 32 bits, bit 0 least significant (00_scope.md R10). -/
abbrev Word := BitVec 32

/-- A byte of the message buffer. -/
abbrev Byte := BitVec 8

/-- A byte address on the register port: 18 bits, 0x00000 to 0x3FFFF (20_memory.md R70). -/
abbrev PortAddr := BitVec 18

/-- A bit stream, index 0 first (00_scope.md R9). -/
abbrev Bits := List Bool

end Sys2Proof
end

