-- ==== Sys2Proof/Config.lean ====
section
/-! DEFINITION. What an implementation of the block fixes (00_scope.md R7) and the values the spec leaves open.
An opaque constant here has no body: nothing can prove what it is. -/

namespace Sys2Proof

/-- Which seeded generator the block is built with (42_burst_error.md R190, the parameter BURST_RNG):
the spec's reference instance, or some other instance, of which only the laws of R190 are known. -/
inductive Generator where
  | reference        -- BURST_RNG_REF, 42_burst_error.md R191
  | implementation   -- any law-abiding generator, drawn from `Config.burstDraw`
deriving DecidableEq, Repr

/-- The parameters of one block (00_scope.md R7). They never change while it runs. -/
structure Params where
  msgMaxBytes : Nat      -- MSG_MAX_BYTES
  polyMax     : Nat      -- POLY_MAX
  blockBase   : Nat      -- BLOCK_BASE (20_memory.md R70)
  gen         : Generator
deriving DecidableEq, Repr

/-- CW_MAX_BITS, derived from the two capacities (00_scope.md R7). -/
def Params.cwMaxBits (p : Params) : Nat := 8 * p.msgMaxBytes + p.polyMax - 1

/-- The ranges 00_scope.md R7 gives the capacities. -/
abbrev Params.legal (p : Params) : Prop :=
  (1 ≤ p.msgMaxBytes ∧ p.msgMaxBytes ≤ 65536) ∧ (5 ≤ p.polyMax ∧ p.polyMax ≤ 8192)

namespace Config

/-- BLOCK_ID: "CRC" and block revision 1 (10_state.md R21). -/
def blockId : Word := 0x43524301#32

/-- MSG_MAX_BYTES less one: open, 0 to 65535 (00_scope.md R7). -/
opaque msgMaxIndex : Fin 65536

/-- POLY_MAX less five: open, 0 to 8187 (00_scope.md R7). -/
opaque polyMaxIndex : Fin 8188

/-- BLOCK_BASE: open (20_memory.md R70). -/
opaque blockBase : Nat

/-- Draw number `t` of the block's own generator for seed `s` and burst length `n`: open (42_burst_error.md R190).
A function of its arguments alone, so laws 1 and 4 (determinism, statelessness) hold of it. -/
opaque burstDraw (s n t : Nat) : Nat

/-- The unconstrained word of the k-th drawing host read: a free value (20_memory.md R86, 70_reset_and_hazards.md R286). -/
opaque freeWord (k : Nat) : Word

/-- The block's parameters: every value the ranges of 00_scope.md R7 admit is possible. -/
def params : Params :=
  { msgMaxBytes := msgMaxIndex.val + 1, polyMax := polyMaxIndex.val + 5, blockBase := blockBase, gen := .implementation }

end Config
end Sys2Proof
end

