-- ==== Sys2Proof/Syntax.lean ====
section
/-! DEFINITION. The commands of the block: one constructor per row of spec/opcode_table.json (30_encoding.md R111).
A command has no operand fields: its operands are fixed registers (30_encoding.md R114). -/

namespace Sys2Proof

/-- The five commands (30_encoding.md R111). -/
inductive Instr where
  | encode      -- ENCODE, 41_crc_engine.md R165
  | decode      -- DECODE, 41_crc_engine.md R167
  | corrupt     -- CORRUPT, 42_burst_error.md R194
  | trial       -- TRIAL, 43_validator.md R221
  | experiment  -- EXPERIMENT, 43_validator.md R222
deriving DecidableEq, Repr

end Sys2Proof
end

