-- ==== Sys2Proof/WellFormed.lean ====
section
/-! DEFINITION. Checks on what the host hands the block. A command as syntax has no operand to check
(30_encoding.md R114), so the checks stand on the command word, on its two fields. -/

namespace Sys2Proof

/-- RSVD = CMD[31:4] is 0 (30_encoding.md R110, R112). -/
def rsvdZero (w : Word) : Bool := w.toNat / 16 == 0

/-- OP = CMD[3:0] is one of the assigned opcodes 0x1 to 0x5 (30_encoding.md R111, R112). -/
def opAssigned (w : Word) : Bool := 1 ≤ w.toNat % 16 && w.toNat % 16 ≤ 5

/-- A command word that is not illegal (30_encoding.md R112). -/
def cmdWordWellFormed (w : Word) : Bool := rsvdZero w && opAssigned w

/-- A command has no field that could be ill-formed (30_encoding.md R114). -/
def Instr.wellFormed : Instr → Bool
  | .encode => true
  | .decode => true
  | .corrupt => true
  | .trial => true
  | .experiment => true

/-- A bit string that SETPOLY can load into this block (30_encoding.md R117, 41_crc_engine.md R164): between 1 and POLY_MAX
bits, the leading one set. -/
def divisorWellFormed (p : Params) (bits : Bits) : Bool :=
  1 ≤ bits.length && bits.length ≤ p.polyMax && bits.headD false

/-- A message that LOADMSG can load and ENCODE accepts (30_encoding.md R117, 10_state.md R38): 1 to MSG_MAX_BYTES bytes. -/
def messageWellFormed (p : Params) (bytes : List Byte) : Bool :=
  1 ≤ bytes.length && bytes.length ≤ p.msgMaxBytes

end Sys2Proof
end

