-- ==== Sys2Proof/Decode.lean ====
section
/-! DEFINITION. The command decoder (30_encoding.md R113), total on 32-bit words, and the encoder of R111. -/

namespace Sys2Proof

/-- Why a command word is illegal (30_encoding.md R112). -/
inductive IllegalWord where
  | reservedBits   -- RSVD = CMD[31:4] is not 0
  | unassignedOp   -- OP is 0x0 or 0x6 to 0xF
deriving DecidableEq, Repr

/-- What a command word decodes to: exactly one command, or illegal with the reason (30_encoding.md R113). -/
inductive Decoded where
  | command (i : Instr)
  | illegal (why : IllegalWord)
deriving DecidableEq, Repr

/-- OP = CMD[3:0] (30_encoding.md R110). -/
def cmdOp (w : Word) : BitVec 4 := w.extractLsb' 0 4

/-- RSVD = CMD[31:4] (30_encoding.md R110). -/
def cmdRsvd (w : Word) : BitVec 28 := w.extractLsb' 4 28

/-- `decode_cmd` of 30_encoding.md R113. -/
def decodeWord (w : Word) : Decoded :=
  if cmdRsvd w ≠ 0 then .illegal .reservedBits
  else match (cmdOp w).toNat with
    | 1 => .command .encode
    | 2 => .command .decode
    | 3 => .command .corrupt
    | 4 => .command .trial
    | 5 => .command .experiment
    | _ => .illegal .unassignedOp

/-- The opcode of a command (30_encoding.md R111). -/
def opcode : Instr → BitVec 4
  | .encode => 0x1#4
  | .decode => 0x2#4
  | .corrupt => 0x3#4
  | .trial => 0x4#4
  | .experiment => 0x5#4

/-- The command word: RSVD = 0 above the opcode (30_encoding.md R110, R111). -/
def encode (i : Instr) : Word := 0#28 ++ opcode i

/-- The command of an illegal word is none. -/
def Decoded.instr? : Decoded → Option Instr
  | .command i => some i
  | .illegal _ => none

/-- What the decoder reads from a word numbered as spec/opcode_table.json numbers it. Every command word is one
32-bit word (30_encoding.md R110): bits above `nbits` are 0. -/
def decodeTableWord (nbits w : Nat) : Option Instr :=
  (decodeWord (BitVec.ofNat 32 (w % 2 ^ nbits))).instr?

end Sys2Proof
end

