-- ==== Sys2Proof/Machine/State.lean ====
section
/-! DEFINITION. The state of the block (10_state.md) as plain data, the reasons a step can stop, and the state after
reset (70_reset_and_hazards.md R281). -/

namespace Sys2Proof.Machine

/-- The error codes of 60_exceptions.md R251. `io` is the reserved code 3, never raised (00_scope.md R6). -/
inductive ErrCode where
  | noError
  | lengthMismatch
  | range
  | io
  | divisor
  | param
  | illegalCmd
deriving DecidableEq, Repr

/-- The engine (10_state.md R50): idle, or busy with the command word that was written, OP and RSVD both latched. -/
inductive Engine where
  | idle
  | busy (w : Word)
deriving DecidableEq, Repr

/-- The fields of STATUS that are storage (10_state.md R29 to R33). BUSY is read off the engine (R50); the reserved
bits have no storage (R34). -/
structure Status where
  done    : Bool
  err     : Bool
  clean   : Bool
  ovr     : Bool
  errCode : ErrCode
deriving DecidableEq, Repr

/-- The scalar registers that are storage (10_state.md R35 to R45). `bpol` is CTRL[0]; CTRL[31:1] has no storage (R43). -/
structure Regs where
  failOffset : Word
  polyLen    : Word
  lenCrc     : Word
  msgLen     : Word
  cwLen      : Word
  burstLen   : Word
  offset     : Word
  trials     : Word
  bpol       : Bool
  missed     : Word
  total      : Word
deriving DecidableEq, Repr

/-- Cells by index, in one canonical form: indexes strictly rising, and no cell equal to what an unlisted index reads as. -/
abbrev Store (β : Type) := List (Nat × β)

/-- The bit registers and buffers (10_state.md R46 to R49). `msg` is a list of Host.Cell, by byte index; the others are by
bit index. An unlisted bit of `poly` or `rem` is 0; an unlisted byte of `msg` or bit of `cw` holds no value (20_memory.md R86). -/
structure Memory where
  poly : Store Bool
  rem  : Store Bool
  msg  : Store Byte
  cw   : Store Bool
deriving DecidableEq, Repr

/-- The size n of a host access: 1, 2 or 4 bytes (20_memory.md R71). -/
inductive AccessSize where
  | byte
  | half
  | word
deriving DecidableEq, Repr

/-- One host access on the register port (00_scope.md R12, 20_memory.md R71). The value of a narrow write stands in the low
bits of `v`; no rule reads it. -/
inductive Access where
  | read (a : PortAddr) (n : AccessSize)
  | write (a : PortAddr) (n : AccessSize) (v : Word)
deriving DecidableEq, Repr

/-- What the port answers (20_memory.md R71): OK, with the word for a read, or ERROR. -/
inductive Response where
  | okWrite
  | okRead (v : Word)
  | error
deriving DecidableEq, Repr

/-- What moves next (log 1): a host access, the engine's turn, or a new level of the reset input. -/
inductive Input where
  | host (a : Access)
  | engine
  | rst (asserted : Bool)
deriving DecidableEq, Repr

/-- The whole machine. `inputs`, `resp` and `draws` are the model's own: the accesses, engine turns and reset levels still
to come (log 1), the port's last response (log 6), and the number of unconstrained words drawn (log 4). -/
structure State where
  params : Params
  rst    : Bool
  eng    : Engine
  status : Status
  regs   : Regs
  mem    : Memory
  inputs : List Input
  resp   : Option Response
  draws  : Nat
deriving DecidableEq, Repr

/-- Why the machine stops with a fault. -/
inductive Fault where
  /-- `fault UNINIT` (20_memory.md R86, 60_exceptions.md R254): raised by the ENCODE message read and the DECODE codeword read,
  alone or inside TRIAL and EXPERIMENT, when a byte or bit of the operand holds no value. Safe: the hardware goes on with
  whatever the storage holds. -/
  | uninit
deriving DecidableEq, Repr

/-- Why the machine refuses an instruction. -/
inductive Refusal where
  /-- Raised by an arm of `exec` for an instruction that has no meaning yet; no arm does. Safe. -/
  | notModelled (mnemonic : String)
deriving DecidableEq, Repr

/-- STATUS after reset: 0x00000000 (10_state.md R27). -/
def Status.reset : Status :=
  { done := false, err := false, clean := false, ovr := false, errCode := .noError }

/-- The registers after reset (10_state.md R23; the source's defaults, 00_scope.md R8). -/
def Regs.reset : Regs :=
  { failOffset := 0, polyLen := 5, lenCrc := 4, msgLen := 0, cwLen := 0, burstLen := 0, offset := 0, trials := 1000,
    bpol := false, missed := 0, total := 0 }

/-- The buffers after reset: POLY holds the default divisor "11111", REM is 0, MSG and CW hold no value (10_state.md R46 to R49). -/
def Memory.reset : Memory :=
  { poly := [(0, true), (1, true), (2, true), (3, true), (4, true)], rem := [], msg := [], cw := [] }

/-- A block with the parameters `p` right after reset (70_reset_and_hazards.md R281), with nothing to come. -/
def State.resetWith (p : Params) : State :=
  { params := p, rst := false, eng := .idle, status := .reset, regs := .reset, mem := .reset, inputs := [], resp := none,
    draws := 0 }

/-- The machine right after reset, its parameters open (00_scope.md R7). -/
def State.reset : State := .resetWith Config.params

end Sys2Proof.Machine
end

