-- ==== Sys2Proof/Machine/Bits.lean ====
section
/-! DEFINITION. The bit-vector datapath (40_bitstream.md) and the packing of bits and bytes into port words
(20_memory.md R74, R75). A primitive that raises answers with the error code; it changes nothing by itself. -/

namespace Sys2Proof.Machine

/-- The result of a primitive: a value, or `raise Error(e)` (00_scope.md R12). -/
inductive Result (α : Type) where
  | ok (a : α)
  | raise (e : ErrCode)
deriving DecidableEq, Repr

/-- Go on with the value; a raise ends the computation (00_scope.md R13). -/
def Result.andThen {α β : Type} (r : Result α) (f : α → Result β) : Result β :=
  match r with
  | .ok a => f a
  | .raise e => .raise e

/-- The 8 bits of a byte, most significant first (40_bitstream.md R131). -/
def byteBits (b : Byte) : Bits := (List.range 8).map fun k => b.getLsbD (7 - k)

/-- 40_bitstream.md R131. -/
def fromBytes (bs : List Byte) : Bits := bs.flatMap byteBits

/-- 40_bitstream.md R132. -/
def zeros (n : Nat) : Bits := List.replicate n false

/-- 40_bitstream.md R133: RANGE when `lo > hi` or `hi` exceeds the length. -/
def slice (s : Bits) (lo hi : Nat) : Result Bits :=
  if hi < lo ∨ s.length < hi then .raise .range else .ok ((s.drop lo).take (hi - lo))

/-- 40_bitstream.md R134. -/
def concat (a b : Bits) : Bits := a ++ b

/-- 40_bitstream.md R135: drops bit 0 and appends a placeholder 0. Used for streams of length at least 1 only. -/
def shiftLeftOne (s : Bits) : Bits := s.drop 1 ++ [false]

/-- Bitwise exclusive-or of two streams of equal length (00_scope.md R9). -/
def xorBits (a b : Bits) : Bits := List.zipWith (fun x y => x ^^ y) a b

/-- 40_bitstream.md R136: LENGTH_MISMATCH when the lengths differ, never a truncated result. -/
def xorInPlace (a b : Bits) : Result Bits :=
  if a.length ≠ b.length then .raise .lengthMismatch else .ok (xorBits a b)

/-- 40_bitstream.md R137: RANGE out of bounds. -/
def getBit (s : Bits) (i : Nat) : Result Bool :=
  match s[i]? with
  | some b => .ok b
  | none => .raise .range

/-- 40_bitstream.md R137: RANGE out of bounds. -/
def setBit (s : Bits) (i : Nat) (v : Bool) : Result Bits :=
  if s.length ≤ i then .raise .range else .ok (s.set i v)

/-- 40_bitstream.md R138: LENGTH_MISMATCH when the lengths differ. -/
def bitsEq (a b : Bits) : Result Bool :=
  if a.length ≠ b.length then .raise .lengthMismatch else .ok (a == b)

/-- The 32 bits of a word from bit 31 down to bit 0 (20_memory.md R74). -/
def wordBits (w : Word) : Bits := (List.range 32).map fun j => w.getLsbD (31 - j)

/-- The word whose bits from bit 31 down are `bs` (20_memory.md R74). -/
def wordOfBits (bs : Bits) : Word := BitVec.ofNat 32 (bs.foldl (fun n b => 2 * n + b.toNat) 0)

/-- The 4 bytes of a word, byte 0 in bits 31 to 24 (20_memory.md R75). -/
def wordBytes (w : Word) : List Byte := (List.range 4).map fun k => w.extractLsb' (24 - 8 * k) 8

end Sys2Proof.Machine
end

