-- ==== Sys2Proof/Machine/Ops.lean ====
section
/-! DEFINITION. The named operations over the buffers and the registers: cells read and written, a command's issue
(70_reset_and_hazards.md R284), its completion without error (60_exceptions.md R253) and with one (R252, the block's
equivalent of taking an exception), and how the steps of a command are put together (00_scope.md R13). -/

namespace Sys2Proof.Machine

/-! ### Cells -/

/-- The cell at index `i`, where one is listed. -/
def Store.get {β : Type} : Store β → Nat → Option β
  | [], _ => none
  | (k, v) :: m, i => if k = i then some v else Store.get m i

/-- `vs` at the indexes from `lo` up. -/
def Store.numbered {β : Type} (lo : Nat) : List β → Store β
  | [] => []
  | v :: vs => (lo, v) :: Store.numbered (lo + 1) vs

/-- `X[lo .. lo + len(vs)) <- vs`; every other cell stays. -/
def Store.write {β : Type} (m : Store β) (lo : Nat) (vs : List β) : Store β :=
  m.filter (fun c => c.1 < lo) ++ Store.numbered lo vs ++ m.filter (fun c => lo + vs.length ≤ c.1)

/-- `X[lo .. lo + n)`, where every one of these cells holds a value (20_memory.md R86). -/
def Store.readAll {β : Type} (m : Store β) (lo : Nat) : Nat → Option (List β)
  | 0 => some []
  | n + 1 =>
    match Store.get m lo, Store.readAll m (lo + 1) n with
    | some v, some vs => some (v :: vs)
    | _, _ => none

/-- Take the zero bits out: the canonical form of a bit array whose unlisted bits are 0 (POLY, REM). -/
def Store.dropZeros (m : Store Bool) : Store Bool := m.filter (fun c => c.2)

/-- A bit of POLY or REM: an unlisted bit is 0 (10_state.md R46, R47). -/
def Store.bit (m : Store Bool) (j : Nat) : Bool := (Store.get m j).getD false

/-- `CW[q] <- NOT CW[q]` for every `q` that `f` holds of; a bit with no value stays without one (42_burst_error.md R199). -/
def Store.flipWhere (m : Store Bool) (f : Nat → Bool) : Store Bool :=
  m.map fun c => (c.1, if f c.1 then !c.2 else c.2)

/-- Indexes strictly rising, from `lo` up. -/
def Store.rising {β : Type} (lo : Nat) : Store β → Bool
  | [] => true
  | (k, _) :: m => decide (lo ≤ k) && Store.rising (k + 1) m

/-- Every index below the capacity `cap`. -/
def Store.within {β : Type} (m : Store β) (cap : Nat) : Bool := m.all fun c => decide (c.1 < cap)

/-- The canonical form of the four buffers of a block with the parameters `p`: indexes strictly rising and inside the
capacity (10_state.md R46 to R49), and no zero bit listed in POLY or REM. -/
def Memory.wf (p : Params) (m : Memory) : Bool :=
  (Store.rising 0 m.poly && Store.within m.poly p.polyMax && m.poly.all (fun c => c.2)) &&
  (Store.rising 0 m.rem && Store.within m.rem (p.polyMax - 1) && m.rem.all (fun c => c.2)) &&
  (Store.rising 0 m.msg && Store.within m.msg p.msgMaxBytes) &&
  (Store.rising 0 m.cw && Store.within m.cw p.cwMaxBits)

/-! ### Engine-side writes -/

/-- `REM[0 .. r) <- rem; REM[r .. POLY_MAX - 1) <- zeros` (41_crc_engine.md R165, R167). -/
def State.setRem (s : State) (rem : Bits) : State :=
  { s with mem := { s.mem with rem := Store.dropZeros (Store.numbered 0 rem) } }

/-- `CW[0 .. len(c)) <- c; Reg(CW_LEN) <- len(c)`: CW bits from `len(c)` up stay (41_crc_engine.md R165). -/
def State.setCodeword (s : State) (c : Bits) : State :=
  { s with mem := { s.mem with cw := Store.write s.mem.cw 0 c }, regs := { s.regs with cwLen := BitVec.ofNat 32 c.length } }

/-- `CW[q] <- NOT CW[q]` where `f` holds (42_burst_error.md R194). -/
def State.flipCw (s : State) (f : Nat → Bool) : State :=
  { s with mem := { s.mem with cw := Store.flipWhere s.mem.cw f } }

/-- `STATUS.CLEAN <- b` (10_state.md R31). -/
def State.setClean (s : State) (b : Bool) : State := { s with status := { s.status with clean := b } }

/-- The sweep's results: MISSED, TOTAL (43_validator.md R222). -/
def State.setSweep (s : State) (missed total : Nat) : State :=
  { s with regs := { s.regs with missed := BitVec.ofNat 32 missed, total := BitVec.ofNat 32 total } }

/-- A failed sweep: MISSED and TOTAL 0, FAIL_OFFSET the trial that failed (43_validator.md R223). -/
def State.setSweepFailed (s : State) (k : Nat) : State :=
  { s with regs := { s.regs with missed := 0, total := 0, failOffset := BitVec.ofNat 32 k } }

/-! ### Issue and completion -/

/-- `issue(w)` (70_reset_and_hazards.md R284): the engine is busy with `w`; DONE, ERR, ERR_CODE and FAIL_OFFSET are
cleared; OVR and CLEAN stay. -/
def State.issue (s : State) (w : Word) : State :=
  { s with
    eng := .busy w
    status := { s.status with done := false, err := false, errCode := .noError }
    regs := { s.regs with failOffset := 0 } }

/-- Completion without error (60_exceptions.md R253). -/
def State.completeOk (s : State) : State :=
  { s with eng := .idle, status := { s.status with done := true, err := false, errCode := .noError } }

/-- Completion with the error `e` (60_exceptions.md R252): what every `raise Error(e)` of a command ends in. -/
def State.completeError (s : State) (e : ErrCode) : State :=
  { s with eng := .idle, status := { s.status with done := true, err := true, errCode := e } }

/-! ### The steps of a command -/

/-- Where the steps of a command stand (00_scope.md R13): done so far; a raise, with the effects already performed; or the
model fault. -/
inductive Run where
  | done (s : State)
  | raised (e : ErrCode) (s : State)
  | fault (f : Fault)
deriving DecidableEq, Repr

/-- Go on with the next steps; a raise or a fault ends the command there (00_scope.md R13). -/
def Run.andThen (r : Run) (f : State → Run) : Run :=
  match r with
  | .done s => f s
  | .raised e s => .raised e s
  | .fault x => .fault x

/-- Use the value of a primitive; its raise is the command's (40_bitstream.md, 60_exceptions.md R252). -/
def Run.ofResult {α : Type} (s : State) (r : Result α) (f : α → Run) : Run :=
  match r with
  | .ok a => f a
  | .raise e => .raised e s

/-- Use operands that all hold a value; otherwise `fault UNINIT` (20_memory.md R86). -/
def Run.ofOperand {α : Type} (o : Option α) (f : α → Run) : Run :=
  match o with
  | some a => f a
  | none => .fault .uninit

/-- The engine step that completes the command (60_exceptions.md R252, R253); a fault leaves it without a completion (R254). -/
def Run.finish : Run → Host.Outcome State Fault Refusal
  | .done s => .next s.completeOk
  | .raised e s => .next (s.completeError e)
  | .fault f => .fault f

end Sys2Proof.Machine
end

