-- ==== Sys2Proof/Machine/Flags.lean ====
section
/-! DEFINITION. STATUS and CTRL as words (10_state.md R27 to R34, R43): the read view, and the write-one-to-clear write. -/

namespace Sys2Proof.Machine

/-- The code an error writes to ERR_CODE (60_exceptions.md R251). -/
def ErrCode.code : ErrCode → BitVec 4
  | .noError => 0
  | .lengthMismatch => 1
  | .range => 2
  | .io => 3
  | .divisor => 4
  | .param => 5
  | .illegalCmd => 6

/-- BUSY reads 1 exactly when the engine is busy (10_state.md R50). -/
def Engine.isBusy : Engine → Bool
  | .idle => false
  | .busy _ => true

/-- STATUS.BUSY (10_state.md R28). -/
def State.busy (s : State) : Bool := s.eng.isBusy

/-- The word a read of STATUS returns (10_state.md R27): BUSY, DONE, ERR, CLEAN, OVR in bits 0 to 4, ERR_CODE in bits 11 to 8,
every other bit 0 (R34). -/
def statusWord (busy : Bool) (t : Status) : Word :=
  0#20 ++ t.errCode.code ++ 0#3 ++ BitVec.ofBool t.ovr ++ BitVec.ofBool t.clean ++ BitVec.ofBool t.err ++
    BitVec.ofBool t.done ++ BitVec.ofBool busy

/-- A host write of `v` to STATUS (10_state.md R29, R30, R32): DONE, ERR and OVR are cleared where `v` has a 1; clearing ERR
clears ERR_CODE; the other fields ignore the write. This is how an error recorded is acknowledged (60_exceptions.md R258). -/
def Status.writeClear (t : Status) (v : Word) : Status :=
  { t with
    done := t.done && !v.getLsbD 1
    err := t.err && !v.getLsbD 2
    ovr := t.ovr && !v.getLsbD 4
    errCode := if v.getLsbD 2 then .noError else t.errCode }

/-- The word a read of CTRL returns: BPOL in bit 0, the rest 0 (10_state.md R43). -/
def ctrlWord (bpol : Bool) : Word := BitVec.setWidth 32 (BitVec.ofBool bpol)

/-- A host write was dropped because the engine was busy (10_state.md R32). -/
def State.setOvr (s : State) : State := { s with status := { s.status with ovr := true } }

end Sys2Proof.Machine
end

