-- ==== Sys2Proof/Machine/Operands.lean ====
section
/-! DEFINITION. The operands of the commands, assembled from the fixed registers and the buffers (30_encoding.md R114, R115),
and the checks each command makes on them before it reads or writes anything (60_exceptions.md R256). A scalar operand is
the whole register, read as an unsigned number (00_scope.md R11). -/

namespace Sys2Proof.Machine

/-- The divisor `POLY[0 .. POLY_LEN)` (30_encoding.md R115). -/
def divisor (s : State) : Bits := (List.range s.regs.polyLen.toNat).map (Store.bit s.mem.poly)

/-- The message bytes `MSG[0 .. MSG_LEN)`, where each holds a value (30_encoding.md R115, 20_memory.md R86). -/
def messageBytes (s : State) : Option (List Byte) := Store.readAll s.mem.msg 0 s.regs.msgLen.toNat

/-- The codeword `CW[0 .. CW_LEN)`, where each bit holds a value (30_encoding.md R115, 20_memory.md R86). -/
def codeword (s : State) : Option Bits := Store.readAll s.mem.cw 0 s.regs.cwLen.toNat

/-- Raise `e` if `c`, else go on with the checks that follow. -/
def failIf (c : Prop) [Decidable c] (e : ErrCode) (rest : Option ErrCode) : Option ErrCode := if c then some e else rest

/-- `check_divisor` (41_crc_engine.md R164), then the checks that follow. -/
def checkDivisor (s : State) (rest : Option ErrCode) : Option ErrCode :=
  failIf (s.regs.polyLen.toNat = 0) .divisor <|
  failIf (s.params.polyMax < s.regs.polyLen.toNat) .range <|
  failIf (Store.bit s.mem.poly 0 = false) .divisor <|
  failIf (s.regs.lenCrc.toNat ≠ s.regs.polyLen.toNat - 1) .lengthMismatch rest

/-- The checks of ENCODE in order (41_crc_engine.md R165): the first that fails, or none. -/
def checkEncode (s : State) : Option ErrCode :=
  checkDivisor s <|
  failIf (s.params.msgMaxBytes < s.regs.msgLen.toNat) .range <|
  failIf (8 * s.regs.msgLen.toNat + s.regs.lenCrc.toNat < s.regs.polyLen.toNat) .range none

/-- The checks of DECODE in order (41_crc_engine.md R167). -/
def checkDecode (s : State) : Option ErrCode :=
  checkDivisor s <|
  failIf (s.params.cwMaxBits < s.regs.cwLen.toNat) .range <|
  failIf (s.regs.cwLen.toNat < s.regs.polyLen.toNat) .range none

/-- The checks of `Corrupt(offset)` in order (42_burst_error.md R194); the sum does not wrap (00_scope.md R11). -/
def checkCorrupt (s : State) (offset : Nat) : Option ErrCode :=
  failIf (s.regs.bpol = true) .param <|
  failIf (s.regs.burstLen.toNat < 2) .param <|
  failIf (s.params.cwMaxBits < s.regs.cwLen.toNat) .range <|
  failIf (s.regs.cwLen.toNat < offset + s.regs.burstLen.toNat) .range none

/-- Raise the first failing check; otherwise go on. -/
def Run.afterCheck (s : State) (check : Option ErrCode) (r : Unit → Run) : Run :=
  match check with
  | some e => .raised e s
  | none => r ()

end Sys2Proof.Machine
end

