-- ==== Sys2Proof/Machine/BurstError.lean ====
section
/-! DEFINITION. The burst-error flipper (42_burst_error.md): the generator and CORRUPT. -/

namespace Sys2Proof.Machine

/-- `fmix32` (42_burst_error.md R191). -/
def fmix32 (h : Word) : Word :=
  let h := h ^^^ (h >>> 16)
  let h := h * 0x85EBCA6B#32
  let h := h ^^^ (h >>> 13)
  let h := h * 0xC2B2AE35#32
  h ^^^ (h >>> 16)

/-- SALT, the reference generator's fixed salt (42_burst_error.md R191). -/
def burstSalt : Word := 0x2545F491#32

/-- INC, the reference generator's increment (42_burst_error.md R191). -/
def burstInc : Word := 0x9E3779B9#32

/-- `u(s, t)`, draw number t of the reference generator for the seed s (42_burst_error.md R191). -/
def referenceDraw (seed : Word) (t : Nat) : Word :=
  fmix32 ((seed ^^^ burstSalt) + BitVec.ofNat 32 (t + 1) * burstInc)

/-- Draw number `t` of a block's generator. -/
def Generator.draw (g : Generator) (seed n t : Nat) : Nat :=
  match g with
  | .reference => (referenceDraw (BitVec.ofNat 32 seed) t).toNat
  | .implementation => Config.burstDraw seed n t

/-- `BURST_RNG(s, n) = (e, P)` (42_burst_error.md R190, R191): the count is drawn first (R192) and reduced to [0, n - 1), each
position to [1, n - 1). The reduction is R191's for the reference instance, and for an open generator it is what laws 2
and 3 ask of every instance (log 3). -/
def burstRng (g : Generator) (seed n : Nat) : Nat × List Nat :=
  let e := Generator.draw g seed n 0 % (n - 1)
  (e, (List.range e).map fun j => 1 + Generator.draw g seed n (j + 1) % (n - 2))

/-- `F = {0, n - 1} ∪ set(P)`, the offsets flipped (42_burst_error.md R193, R194); read as a set. -/
def burstFlips (g : Generator) (seed n : Nat) : List Nat := 0 :: (n - 1) :: (burstRng g seed n).2

/-- Whether bit `i` of CW is flipped by a burst at `seed` with the offsets `flips`. -/
def isFlipped (seed : Nat) (flips : List Nat) (i : Nat) : Bool := decide (seed ≤ i) && flips.contains (i - seed)

/-- `Corrupt(s)` (42_burst_error.md R194), the CORRUPT step at the offset `seed`. -/
def corruptSteps (seed : Nat) (s : State) : Run :=
  Run.afterCheck s (checkCorrupt s seed) fun _ =>
  .done (s.flipCw (isFlipped seed (burstFlips s.params.gen seed s.regs.burstLen.toNat)))

/-- CORRUPT (42_burst_error.md R194). -/
def execCorrupt (s : State) : Host.Outcome State Fault Refusal := (corruptSteps s.regs.offset.toNat s).finish

end Sys2Proof.Machine
end

