-- ==== Sys2Proof/Machine/CrcEngine.lean ====
section
/-! DEFINITION. The division engine (41_crc_engine.md): the remainder kernel, ENCODE and DECODE. -/

namespace Sys2Proof.Machine

/-- Step 2a of the kernel (41_crc_engine.md R160): subtract the divisor where the leading bit of `rem` is 1. -/
def reduceOnce (divisor rem : Bits) : Result Bits :=
  if rem.headD false = true then xorInPlace rem divisor else .ok rem

/-- Step 2b of the kernel (41_crc_engine.md R160): shift, and bring in the next dividend bit as the new low bit. -/
def bringDown (rem : Bits) (b : Bool) : Bits := (shiftLeftOne rem).set (rem.length - 1) b

/-- The loop of the kernel for `i` from p_len up to the dividend's length (41_crc_engine.md R160, R161): `rest` is the part
of the dividend not yet brought in. The last pass makes only step 2a. -/
def divideLoop (divisor : Bits) : (rem rest : Bits) → Result Bits
  | rem, [] => reduceOnce divisor rem
  | rem, b :: rest => (reduceOnce divisor rem).andThen fun rem => divideLoop divisor (bringDown rem b) rest

/-- `computeRemainder` (41_crc_engine.md R160). -/
def computeRemainder (dividend divisor : Bits) : Result Bits :=
  (slice dividend 0 divisor.length).andThen fun rem =>
  (divideLoop divisor rem (dividend.drop divisor.length)).andThen fun rem => slice rem 1 divisor.length

/-- The steps of ENCODE (41_crc_engine.md R165). -/
def encodeSteps (s : State) : Run :=
  Run.afterCheck s (checkEncode s) fun _ =>
  Run.ofOperand (messageBytes s) fun bytes =>
  Run.ofResult s (computeRemainder (concat (fromBytes bytes) (zeros s.regs.lenCrc.toNat)) (divisor s)) fun rem =>
  .done ((s.setCodeword (concat (fromBytes bytes) rem)).setRem rem)

/-- The steps of DECODE (41_crc_engine.md R167). -/
def decodeSteps (s : State) : Run :=
  Run.afterCheck s (checkDecode s) fun _ =>
  Run.ofOperand (codeword s) fun c =>
  Run.ofResult s (computeRemainder c (divisor s)) fun rem =>
  Run.ofResult s (bitsEq rem (zeros s.regs.lenCrc.toNat)) fun clean =>
  .done ((s.setRem rem).setClean clean)

/-- ENCODE (41_crc_engine.md R165). -/
def execEncode (s : State) : Host.Outcome State Fault Refusal := (encodeSteps s).finish

/-- DECODE (41_crc_engine.md R167). -/
def execDecode (s : State) : Host.Outcome State Fault Refusal := (decodeSteps s).finish

end Sys2Proof.Machine
end

