-- ==== Sys2Proof/Machine/Validator.lean ====
section
/-! DEFINITION. The trial validator loop (43_validator.md): TRIAL and EXPERIMENT. -/

namespace Sys2Proof.Machine

/-- `TrialAt(k)` (43_validator.md R220): encode, corrupt at `k`, decode; a raise keeps the effects of the earlier steps. -/
def trialAt (k : Nat) (s : State) : Run :=
  (encodeSteps s).andThen fun s => (corruptSteps k s).andThen decodeSteps

/-- How the trials of a sweep end: all run, with the miss count; or trial `k` raised; or the model fault. -/
inductive SweepEnd where
  | finished (missed : Nat) (s : State)
  | failed (k : Nat) (e : ErrCode) (s : State)
  | fault (f : Fault)
deriving DecidableEq, Repr

/-- `n` more trials from offset `k`, ascending, with `missed` misses so far (43_validator.md R222): a trial counts as missed
when its outcome, STATUS.CLEAN, is true. -/
def sweep : (n k missed : Nat) → State → SweepEnd
  | 0, _, missed, s => .finished missed s
  | n + 1, k, missed, s =>
    match trialAt k s with
    | .done t => sweep n (k + 1) (if t.status.clean = true then missed + 1 else missed) t
    | .raised e t => .failed k e t
    | .fault f => .fault f

/-- The steps of EXPERIMENT (43_validator.md R222, R223). -/
def experimentSteps (s : State) : Run :=
  match sweep s.regs.trials.toNat 0 0 s with
  | .finished missed t => .done (t.setSweep missed s.regs.trials.toNat)
  | .failed k e t => .raised e (t.setSweepFailed k)
  | .fault f => .fault f

/-- TRIAL (43_validator.md R221): the trial at OFFSET. -/
def execTrial (s : State) : Host.Outcome State Fault Refusal := (trialAt s.regs.offset.toNat s).finish

/-- EXPERIMENT (43_validator.md R222). -/
def execExperiment (s : State) : Host.Outcome State Fault Refusal := (experimentSteps s).finish

end Sys2Proof.Machine
end

