-- ==== Sys2Proof/Machine/Dispatch.lean ====
section
/-! DEFINITION. One arm per command: the completion of that command (20_memory.md R82). -/

namespace Sys2Proof.Machine

def exec (i : Instr) (s : State) : Host.Outcome State Fault Refusal :=
  match i with
  | .encode => Sys2Proof.Machine.execEncode s
  | .decode => Sys2Proof.Machine.execDecode s
  | .corrupt => Sys2Proof.Machine.execCorrupt s
  | .trial => Sys2Proof.Machine.execTrial s
  | .experiment => Sys2Proof.Machine.execExperiment s

end Sys2Proof.Machine
end

