-- ==== Sys2Proof/Machine/Port.lean ====
section
/-! DEFINITION. The HOST's step: one access on the register port (20_memory.md), and the reset input
(70_reset_and_hazards.md R280). -/

namespace Sys2Proof.Machine

/-- The scalar registers of the map of 10_state.md R23. -/
inductive RegName where
  | id | param0 | param1 | cmd | status | failOffset
  | polyLen | lenCrc | msgLen | cwLen | burstLen | offset | trials | ctrl | missed | total
deriving DecidableEq, Repr

/-- The port offset of a register (10_state.md R23). -/
def RegName.portOffset : RegName → Nat
  | .id => 0x00000
  | .param0 => 0x00004
  | .param1 => 0x00008
  | .cmd => 0x00010
  | .status => 0x00014
  | .failOffset => 0x00018
  | .polyLen => 0x00020
  | .lenCrc => 0x00024
  | .msgLen => 0x00028
  | .cwLen => 0x0002C
  | .burstLen => 0x00030
  | .offset => 0x00034
  | .trials => 0x00038
  | .ctrl => 0x0003C
  | .missed => 0x00040
  | .total => 0x00044

/-- Every register of the map. -/
def RegName.all : List RegName :=
  [.id, .param0, .param1, .cmd, .status, .failOffset, .polyLen, .lenCrc, .msgLen, .cwLen, .burstLen, .offset, .trials, .ctrl,
    .missed, .total]

/-- What a mapped word of the port is: a register, or word `w` of a window (20_memory.md R70). -/
inductive Target where
  | reg (r : RegName)
  | poly (w : Nat)
  | rem (w : Nat)
  | msg (w : Nat)
  | cw (w : Nat)
deriving DecidableEq, Repr

/-- `ceil(n / k)`. -/
def ceilDiv (n k : Nat) : Nat := (n + k - 1) / k

/-- How many words of each window are mapped (20_memory.md R70). -/
def polyWords (p : Params) : Nat := ceilDiv p.polyMax 32
def remWords (p : Params) : Nat := ceilDiv (p.polyMax - 1) 32
def msgWords (p : Params) : Nat := ceilDiv p.msgMaxBytes 4
def cwWords (p : Params) : Nat := ceilDiv p.cwMaxBits 32

/-- The base of each window (20_memory.md R70, 30_encoding.md R116). -/
def polyBase : Nat := 0x00400
def remBase : Nat := 0x00800
def msgBase : Nat := 0x10000
def cwBase : Nat := 0x20000

/-- Word `w` of a window of `words` mapped words, where it is mapped. -/
def mappedWord (words w : Nat) (t : Nat → Target) : Option Target := if w < words then some (t w) else none

/-- What stands at an aligned port address; none where it is unmapped (20_memory.md R70, R72). -/
def portTarget (p : Params) (a : PortAddr) : Option Target :=
  let n := a.toNat
  if n < polyBase then (RegName.all.find? fun r => r.portOffset == n).map .reg
  else if n < remBase then mappedWord (polyWords p) ((n - polyBase) / 4) .poly
  else if n < 0x00C00 then mappedWord (remWords p) ((n - remBase) / 4) .rem
  else if n < msgBase then none
  else if n < cwBase then mappedWord (msgWords p) ((n - msgBase) / 4) .msg
  else mappedWord (cwWords p) ((n - cwBase) / 4) .cw

/-- Only an aligned 4-byte access is legal (20_memory.md R71). -/
def accessLegal (a : PortAddr) (n : AccessSize) : Bool :=
  match n with
  | .word => a.toNat % 4 == 0
  | .half => false
  | .byte => false

/-! ### Reads -/

/-- The word a register read returns (20_memory.md R73): CMD reads 0. -/
def regWord (s : State) : RegName → Word
  | .id => Config.blockId
  | .param0 => BitVec.ofNat 32 s.params.msgMaxBytes
  | .param1 => BitVec.ofNat 32 s.params.polyMax
  | .cmd => 0
  | .status => statusWord s.busy s.status
  | .failOffset => s.regs.failOffset
  | .polyLen => s.regs.polyLen
  | .lenCrc => s.regs.lenCrc
  | .msgLen => s.regs.msgLen
  | .cwLen => s.regs.cwLen
  | .burstLen => s.regs.burstLen
  | .offset => s.regs.offset
  | .trials => s.regs.trials
  | .ctrl => ctrlWord s.regs.bpol
  | .missed => s.regs.missed
  | .total => s.regs.total

/-- The 32 bits of word `w` of a bit window, from bit 31 down: bit `X[j]` where `j` is below the capacity, 0 where the word is
not backed (20_memory.md R74); `none` is a bit with no value (R86). -/
def windowCells (bit : Nat → Option Bool) (cap w : Nat) : List (Option Bool) :=
  (List.range 32).map fun j => if 32 * w + j < cap then bit (32 * w + j) else some false

/-- Bit `j` of the message buffer read as one bit array: bit 7 - (j mod 8) of byte j / 8 (20_memory.md R75, R76). -/
def msgBit (m : Store Byte) (j : Nat) : Option Bool := (Store.get m (j / 8)).map fun b => b.getLsbD (7 - j % 8)

/-- The bits of a window word. -/
def targetCells (s : State) : Target → List (Option Bool)
  | .reg r => (wordBits (regWord s r)).map some
  | .poly w => windowCells (fun j => some (Store.bit s.mem.poly j)) s.params.polyMax w
  | .rem w => windowCells (fun j => some (Store.bit s.mem.rem j)) (s.params.polyMax - 1) w
  | .msg w => windowCells (msgBit s.mem.msg) (8 * s.params.msgMaxBytes) w
  | .cw w => windowCells (Store.get s.mem.cw) s.params.cwMaxBits w

/-- The word the host reads: each bit with a value as it is, each bit with none drawn (20_memory.md R86). -/
def fillDraws (cells : List (Option Bool)) (draw : Word) : Word :=
  wordOfBits (List.zipWith (fun c d => c.getD d) cells (wordBits draw))

/-- The registers whose reads are defined while busy (70_reset_and_hazards.md R286). -/
def RegName.readableBusy : RegName → Bool
  | .status | .id | .param0 | .param1 | .cmd => true
  | .failOffset | .polyLen | .lenCrc | .msgLen | .cwLen | .burstLen | .offset | .trials | .ctrl | .missed | .total => false

/-- Every other mapped word reads as a draw while busy (70_reset_and_hazards.md R286). -/
def Target.readableBusy : Target → Bool
  | .reg r => r.readableBusy
  | .poly _ | .rem _ | .msg _ | .cw _ => false

/-- The port answers `r`. -/
def State.respond (s : State) (r : Response) : State := { s with resp := some r }

/-- One more unconstrained word has been drawn (log 4). -/
def State.tickDraw (s : State) : State := { s with draws := s.draws + 1 }

/-- A host read of a mapped word (20_memory.md R73, R86; 70_reset_and_hazards.md R286). It changes nothing but the port's
response and, where it draws, the model's count of draws. -/
def portRead (s : State) (t : Target) : State :=
  let draw := Config.freeWord s.draws
  if s.busy && !t.readableBusy then s.tickDraw.respond (.okRead draw)
  else
    match t with
    | .reg r => s.respond (.okRead (regWord s r))
    | .poly _ | .rem _ | .msg _ | .cw _ =>
      let cells := targetCells s t
      if cells.any Option.isNone then s.tickDraw.respond (.okRead (fillDraws cells draw))
      else s.respond (.okRead (fillDraws cells draw))

/-! ### Writes -/

/-- A write of `v` to a register while idle (20_memory.md R73): CMD issues, STATUS clears, RW registers store all 32 bits,
CTRL stores BPOL, RO registers ignore it. -/
def regWrite (s : State) (v : Word) : RegName → State
  | .id | .param0 | .param1 | .failOffset | .missed | .total => s
  | .cmd => s.issue v
  | .status => { s with status := s.status.writeClear v }
  | .polyLen => { s with regs := { s.regs with polyLen := v } }
  | .lenCrc => { s with regs := { s.regs with lenCrc := v } }
  | .msgLen => { s with regs := { s.regs with msgLen := v } }
  | .cwLen => { s with regs := { s.regs with cwLen := v } }
  | .burstLen => { s with regs := { s.regs with burstLen := v } }
  | .offset => { s with regs := { s.regs with offset := v } }
  | .trials => { s with regs := { s.regs with trials := v } }
  | .ctrl => { s with regs := { s.regs with bpol := v.getLsbD 0 } }

/-- A write of `v` to a mapped word while idle: a window write stores the backed bits or bytes of the word (20_memory.md R74,
R75); REM ignores it (10_state.md R47). -/
def targetWrite (s : State) (v : Word) : Target → State
  | .reg r => regWrite s v r
  | .poly w => { s with mem := { s.mem with
      poly := Store.dropZeros (Store.write s.mem.poly (32 * w) ((wordBits v).take (s.params.polyMax - 32 * w))) } }
  | .rem _ => s
  | .msg w => { s with mem := { s.mem with
      msg := Store.write s.mem.msg (4 * w) ((wordBytes v).take (s.params.msgMaxBytes - 4 * w)) } }
  | .cw w => { s with mem := { s.mem with
      cw := Store.write s.mem.cw (32 * w) ((wordBits v).take (s.params.cwMaxBits - 32 * w)) } }

/-- What a write while busy does: STATUS performs it, RO registers and REM ignore it, everything else drops it and sets OVR
(70_reset_and_hazards.md R285). -/
def targetWriteBusy (s : State) (v : Word) : Target → State
  | .reg .status => { s with status := s.status.writeClear v }
  | .reg .id | .reg .param0 | .reg .param1 | .reg .failOffset | .reg .missed | .reg .total => s
  | .reg .cmd | .reg .polyLen | .reg .lenCrc | .reg .msgLen | .reg .cwLen | .reg .burstLen | .reg .offset | .reg .trials
  | .reg .ctrl => s.setOvr
  | .rem _ => s
  | .poly _ | .msg _ | .cw _ => s.setOvr

/-- A host write of a mapped word: response OK in every case (20_memory.md R73, 70_reset_and_hazards.md R285). -/
def portWrite (s : State) (v : Word) (t : Target) : State :=
  (if s.busy then targetWriteBusy s v t else targetWrite s v t).respond .okWrite

/-- The HOST's step (00_scope.md R3): an access while rst is asserted, an illegal one and an unmapped one answer ERROR and
change no state (70_reset_and_hazards.md R280, 20_memory.md R71, R72). -/
def portStep (a : Access) (s : State) : State :=
  if s.rst then s.respond .error
  else match a with
    | .read addr n =>
      if accessLegal addr n then
        match portTarget s.params addr with
        | some t => portRead s t
        | none => s.respond .error
      else s.respond .error
    | .write addr n v =>
      if accessLegal addr n then
        match portTarget s.params addr with
        | some t => portWrite s v t
        | none => s.respond .error
      else s.respond .error

/-- The reset input (70_reset_and_hazards.md R280, R282): asserted, a pending command is abandoned; from its deassertion on
every register holds its reset value and the buffers hold no value. What is still to come, the last response and the count
of draws are the model's own and stay (log 8). -/
def resetLevel (asserted : Bool) (s : State) : State :=
  if asserted || s.rst then
    { State.resetWith s.params with rst := asserted, inputs := s.inputs, resp := s.resp, draws := s.draws }
  else s

/-- The port offset of an address of the host platform, where it falls inside the block (20_memory.md R70): every address of
the spec is an offset from BLOCK_BASE (log 12). -/
def platformOffset (p : Params) (addr : Nat) : Option PortAddr :=
  if p.blockBase ≤ addr ∧ addr < p.blockBase + 2 ^ 18 then some (BitVec.ofNat 18 (addr - p.blockBase)) else none

end Sys2Proof.Machine
end

