-- ==== Sys2Proof/Machine/Engine.lean ====
section
/-! DEFINITION. The ENGINE's step (00_scope.md R3), the order in which host and engine move (log 1), and a command placed
for the engine (log 9). -/

namespace Sys2Proof.Machine

/-- The engine's step: nothing while rst is asserted (70_reset_and_hazards.md R280) or while idle; otherwise the completion of
the pending command. An illegal word completes with ILLEGAL_CMD, decoded before anything else (30_encoding.md R112,
60_exceptions.md R256). -/
def engineStep (s : State) : Host.Outcome State Fault Refusal :=
  if s.rst then .next s
  else match s.eng with
    | .idle => .next s
    | .busy w =>
      match decodeWord w with
      | .command i => exec i s
      | .illegal _ => .next (s.completeError .illegalCmd)

/-- One input: a host access, a turn of the engine, or a level of the reset input. -/
def inputStep (i : Input) (s : State) : Host.Outcome State Fault Refusal :=
  match i with
  | .host a => .next (portStep a s)
  | .engine => engineStep s
  | .rst asserted => .next (resetLevel asserted s)

/-- The first of the inputs still to come, taken off the list; with none left the engine moves, so a pending command always
completes (70_reset_and_hazards.md R288). -/
def moveNext (s : State) : Host.Outcome State Fault Refusal :=
  match s.inputs with
  | [] => engineStep s
  | i :: rest => inputStep i { s with inputs := rest }

/-- The command word `w` issued as by a write to CMD (70_reset_and_hazards.md R284), with rst deasserted and the engine's turn
put before whatever is still to come, so that the next step completes it. -/
def placeCommand (s : State) (w : Word) : State :=
  let t := s.issue w
  { t with rst := false, inputs := .engine :: s.inputs }

end Sys2Proof.Machine
end

