-- ==== Sys2Proof/Machine/Step.lean ====
section
/-! DEFINITION. One step of the machine: one move of the host, the engine or the reset input. -/

namespace Sys2Proof.Machine

/-- One step (00_scope.md R3, log 1). -/
def step (s : State) : Host.Outcome State Fault Refusal := moveNext s

/-- `s` with the command word `w` (its bits above `nbits` 0) pending and the engine to move: the very next step runs it (log 9). -/
def State.withFetchWord (s : State) (nbits w : Nat) : State := placeCommand s (BitVec.ofNat 32 (w % 2 ^ nbits))

end Sys2Proof.Machine
end

