-- ==== Sys2Proof/Safety.lean ====
section
/-! DEFINITION. The terms claims are stated in: the invariant of the machine, the operands a command finds, the first
failing check of each command as 60_exceptions.md R256 lists it, and the burst as a set of bit indexes. -/

namespace Sys2Proof.Machine

/-- What holds in every state the block can reach: the parameters are in their ranges (00_scope.md R7); the buffers are in
their canonical form; no reserved error code stands in STATUS (10_state.md R33); ERR is set exactly when there is a code (R30,
R33); while busy, DONE, ERR and FAIL_OFFSET are clear (70_reset_and_hazards.md R284); under reset the engine is idle (R280); and
MISSED is at most TOTAL (43_validator.md, section 2). -/
structure State.Inv (s : State) : Prop where
  params_legal : s.params.legal
  mem_wf : Memory.wf s.params s.mem = true
  not_io : s.status.errCode ≠ .io
  err_iff : s.status.err = true ↔ s.status.errCode ≠ .noError
  busy_clear : s.busy = true → s.status.done = false ∧ s.status.err = false ∧ s.regs.failOffset = 0
  rst_idle : s.rst = true → s.eng = .idle
  missed_le : s.regs.missed.toNat ≤ s.regs.total.toNat

/-- A safe step: the machine goes on. -/
def State.Goes (s : State) : Prop := ∃ t, step s = .next t

/-- STATUS after a completion without error (60_exceptions.md R253). -/
def okStatus (t : Status) : Status := { t with done := true, err := false, errCode := .noError }

/-- STATUS after a completion with the error `e` (60_exceptions.md R252). -/
def errStatus (e : ErrCode) (t : Status) : Status := { t with done := true, err := true, errCode := e }

/-- STATUS after an issue (70_reset_and_hazards.md R284). -/
def issuedStatus (t : Status) : Status := { t with done := false, err := false, errCode := .noError }

/-- The message `MSG[0 .. MSG_LEN)` holds the bytes `bs`, each read one by one. -/
def MessageIs (s : State) (bs : List Byte) : Prop :=
  bs.length = s.regs.msgLen.toNat ∧ ∀ i, i < bs.length → Store.get s.mem.msg i = bs[i]?

/-- The codeword `CW[0 .. CW_LEN)` holds the bits `bits`, each read one by one. -/
def CodewordIs (s : State) (bits : Bits) : Prop :=
  bits.length = s.regs.cwLen.toNat ∧ ∀ i, i < bits.length → Store.get s.mem.cw i = bits[i]?

/-- Some message byte holds no value. -/
def MessageUnset (s : State) : Prop := ∃ i, i < s.regs.msgLen.toNat ∧ Store.get s.mem.msg i = none

/-- Some codeword bit holds no value. -/
def CodewordUnset (s : State) : Prop := ∃ i, i < s.regs.cwLen.toNat ∧ Store.get s.mem.cw i = none

/-- The codeword length ENCODE writes: 8 * MSG_LEN + LEN_CRC. -/
def encodedLen (s : State) : Nat := 8 * s.regs.msgLen.toNat + s.regs.lenCrc.toNat

/-- The first failing condition of `check_divisor` (60_exceptions.md R256). -/
def divisorError (s : State) : Option ErrCode :=
  if s.regs.polyLen.toNat = 0 then some .divisor
  else if s.params.polyMax < s.regs.polyLen.toNat then some .range
  else if Store.bit s.mem.poly 0 = false then some .divisor
  else if s.regs.lenCrc.toNat + 1 ≠ s.regs.polyLen.toNat then some .lengthMismatch
  else none

/-- The first failing condition of ENCODE (60_exceptions.md R256). -/
def encodeError (s : State) : Option ErrCode :=
  match divisorError s with
  | some e => some e
  | none =>
    if s.params.msgMaxBytes < s.regs.msgLen.toNat then some .range
    else if s.regs.msgLen.toNat = 0 then some .range
    else none

/-- The first failing condition of DECODE (60_exceptions.md R256). -/
def decodeError (s : State) : Option ErrCode :=
  match divisorError s with
  | some e => some e
  | none =>
    if s.params.cwMaxBits < s.regs.cwLen.toNat then some .range
    else if s.regs.cwLen.toNat < s.regs.polyLen.toNat then some .range
    else none

/-- The first failing condition of CORRUPT at `offset` on a codeword of `cwLen` bits (60_exceptions.md R256). -/
def corruptError (s : State) (offset cwLen : Nat) : Option ErrCode :=
  if s.regs.bpol = true then some .param
  else if s.regs.burstLen.toNat < 2 then some .param
  else if s.params.cwMaxBits < cwLen then some .range
  else if cwLen < offset + s.regs.burstLen.toNat then some .range
  else none

/-- Whether a burst of length `n` at `seed` flips bit `i` (42_burst_error.md R193, R194): the two forced bits, and the bits at
the drawn positions. -/
def burstHits (g : Generator) (seed n i : Nat) : Bool :=
  i == seed || i == seed + n - 1 || (burstRng g seed n).2.any fun q => i == seed + q

/-- A stream with the bits of the burst flipped. -/
def burstOn (g : Generator) (seed n : Nat) (c : Bits) : Bits :=
  (List.range c.length).map fun i => c.getD i false ^^ burstHits g seed n i

/-- The state after the trials at offsets 0 to k - 1, where none of them raises or faults (43_validator.md R222). -/
def trialsDone : Nat → State → Option State
  | 0, s => some s
  | k + 1, s =>
    match trialsDone k s with
    | some u =>
      match trialAt k u with
      | .done v => some v
      | .raised _ _ => none
      | .fault _ => none
    | none => none

/-- A word of the port that is mapped (20_memory.md R70, 10_state.md R23), by its address. -/
def InRegisters (a : Nat) : Prop :=
  a ∈ [0x00, 0x04, 0x08, 0x10, 0x14, 0x18, 0x20, 0x24, 0x28, 0x2C, 0x30, 0x34, 0x38, 0x3C, 0x40, 0x44]
def InPoly (p : Params) (a : Nat) : Prop := 0x400 ≤ a ∧ a < 0x400 + 4 * ((p.polyMax + 31) / 32)
def InRem (p : Params) (a : Nat) : Prop := 0x800 ≤ a ∧ a < 0x800 + 4 * ((p.polyMax - 1 + 31) / 32)
def InMsg (p : Params) (a : Nat) : Prop := 0x10000 ≤ a ∧ a < 0x10000 + 4 * ((p.msgMaxBytes + 3) / 4)
def InCw (p : Params) (a : Nat) : Prop := 0x20000 ≤ a ∧ a < 0x20000 + 4 * ((p.cwMaxBits + 31) / 32)
def IsMapped (p : Params) (a : Nat) : Prop := InRegisters a ∨ InPoly p a ∨ InRem p a ∨ InMsg p a ∨ InCw p a

/-- The RW registers and CTRL, by address (10_state.md R23). -/
def InWritable (a : Nat) : Prop := a ∈ [0x20, 0x24, 0x28, 0x2C, 0x30, 0x34, 0x38, 0x3C]

/-- The RO registers, by address (10_state.md R23). -/
def InReadOnly (a : Nat) : Prop := a ∈ [0x00, 0x04, 0x08, 0x18, 0x40, 0x44]

/-- STATUS after a host write of `v` (10_state.md R29, R30, R32): each of DONE, ERR, OVR written as 1 is cleared, and ERR_CODE with ERR. -/
def clearedStatus (v : Word) (t : Status) : Status :=
  { done := t.done && !v.getLsbD 1
    err := t.err && !v.getLsbD 2
    clean := t.clean
    ovr := t.ovr && !v.getLsbD 4
    errCode := if v.getLsbD 2 = true then .noError else t.errCode }

end Sys2Proof.Machine
end

