-- ==== Sys2Proof/Certificates/Slice0/Obligations.lean ====
section
/-! DEFINITION. The statements for the provers. A docstring names the rule a statement formalises; where it rests on a choice
of the model or on an inference the spec marks as its own, it says so. -/

open Sys2Proof Sys2Proof.Machine

/-! ### Encoding and the step -/

/-- 30_encoding.md R111: the five command words, read and written. -/
def Obligations.FiveCommandWords : Prop :=
  (decodeWord 0x00000001#32 = .command .encode ∧ encode .encode = 0x00000001#32) ∧
  (decodeWord 0x00000002#32 = .command .decode ∧ encode .decode = 0x00000002#32) ∧
  (decodeWord 0x00000003#32 = .command .corrupt ∧ encode .corrupt = 0x00000003#32) ∧
  (decodeWord 0x00000004#32 = .command .trial ∧ encode .trial = 0x00000004#32) ∧
  (decodeWord 0x00000005#32 = .command .experiment ∧ encode .experiment = 0x00000005#32)

/-- Decode and encode agree, both ways, over all 2^32 words: a word decodes to a command exactly when it is that command's
word. The spec marks it derived: "Every 32-bit value written to CMD while idle decodes to exactly one of ENCODE, DECODE,
CORRUPT, TRIAL, EXPERIMENT or ILLEGAL_CMD." -/
def Obligations.DecodeReadsExactlyTheEncodedWords : Prop :=
  ∀ (w : Word) (i : Instr), decodeWord w = .command i ↔ w = encode i

/-- 30_encoding.md R112: which words are illegal, that no other encoding is reserved, that an illegal word is issued as any
command is, and that it completes with ILLEGAL_CMD and no other effect. -/
def Obligations.IllegalWordsCompleteWithIllegalCmd : Prop :=
  ∀ w : Word,
    ((w.toNat % 16 = 0 ∨ 6 ≤ w.toNat % 16 ∨ w.toNat / 16 ≠ 0) ↔ ∀ i, w ≠ encode i) ∧
    ((w.toNat % 16 = 0 ∨ 6 ≤ w.toNat % 16 ∨ w.toNat / 16 ≠ 0) →
      (∀ s : State, s.rst = false → s.eng = .idle →
        (portStep (.write 0x00010#18 .word w) s).eng = .busy w ∧ (portStep (.write 0x00010#18 .word w) s).busy = true ∧
          (portStep (.write 0x00010#18 .word w) s).resp = some .okWrite) ∧
      (∀ s : State, s.rst = false → s.eng = .busy w →
        engineStep s = .next { s with eng := .idle, status := errStatus .illegalCmd s.status }))

/-- A step runs the decoded command: with a command pending and the engine to move, `step` is `exec` of it. That the engine
moves on its turn, and when no input is left, is the model's choice (log 1). -/
def Obligations.StepRunsThePendingCommand : Prop :=
  ∀ (s : State) (w : Word) (i : Instr), s.rst = false → s.eng = .busy w → decodeWord w = .command i →
    (s.inputs = [] → step s = exec i s) ∧
    (∀ rest, s.inputs = .engine :: rest → step s = exec i { s with inputs := rest })

/-- What a step does with the inputs (log 1): the first one is taken off the list, and a host access, a reset level or a turn
of the engine is all that happens; with none left the engine takes its turn; and with nothing pending its turn does nothing. -/
def Obligations.StepTakesTheHeadInput : Prop :=
  ∀ (s : State) (rest : List Input),
    (∀ a, s.inputs = .host a :: rest → step s = .next (portStep a { s with inputs := rest })) ∧
    (∀ b, s.inputs = .rst b :: rest → step s = .next (resetLevel b { s with inputs := rest })) ∧
    (s.inputs = .engine :: rest → step s = engineStep { s with inputs := rest }) ∧
    (s.inputs = [] → step s = engineStep s) ∧
    (s.eng = .idle → engineStep s = .next s)

/-- The placed command runs next and leaves what is still to come as it was (log 9). -/
def Obligations.PlacedCommandRunsNext : Prop :=
  ∀ (s : State) (i : Instr),
    step (s.withFetchWord 32 (encode i).toNat) =
      exec i { s with
        rst := false
        eng := .busy (encode i)
        status := issuedStatus s.status
        regs := { s.regs with failOffset := 0 } }

/-! ### Reset and the invariant -/

/-- 70_reset_and_hazards.md R281: the state after reset, register by register. -/
def Obligations.ResetStateHoldsTheSpecValues : Prop :=
  ∀ p : Params, ∃ s, s = State.resetWith p ∧
    (regWord s .id = 0x43524301#32 ∧ regWord s .param0 = BitVec.ofNat 32 p.msgMaxBytes ∧
      regWord s .param1 = BitVec.ofNat 32 p.polyMax) ∧
    regWord s .status = 0x00000000#32 ∧
    (s.regs.failOffset = 0 ∧ s.regs.missed = 0 ∧ s.regs.total = 0) ∧
    (s.regs.polyLen = 5 ∧ s.regs.lenCrc = 4 ∧ s.regs.msgLen = 0 ∧ s.regs.cwLen = 0 ∧ s.regs.offset = 0 ∧
      s.regs.burstLen = 0 ∧ s.regs.trials = 1000 ∧ regWord s .ctrl = 0x00000000#32) ∧
    (∀ j, Store.bit s.mem.poly j = decide (j < 5)) ∧ (∀ j, Store.bit s.mem.rem j = false) ∧
    (∀ j, Store.get s.mem.msg j = none) ∧ (∀ j, Store.get s.mem.cw j = none) ∧ s.eng = .idle

/-- 70_reset_and_hazards.md R280, R282: while rst is asserted the port answers ERROR and the engine makes no step; asserting
it abandons a pending command; after its deassertion everything the spec gives the block is as after reset, MSG and CW
without a value; and nothing but the reset input resets the block. -/
def Obligations.ResetInputAbandonsAndRestores : Prop :=
  (∀ (s : State) (a : Access), s.rst = true → portStep a s = { s with resp := some .error }) ∧
  (∀ s : State, s.rst = true → engineStep s = .next s) ∧
  (∀ s : State, (resetLevel true s).rst = true ∧ (resetLevel true s).eng = .idle) ∧
  (∀ s : State, s.rst = true →
    (resetLevel false s).rst = false ∧ (resetLevel false s).eng = .idle ∧ (resetLevel false s).params = s.params ∧
      (resetLevel false s).status = (State.resetWith s.params).status ∧
      (resetLevel false s).regs = (State.resetWith s.params).regs ∧
      (∀ j, Store.bit (resetLevel false s).mem.poly j = decide (j < 5)) ∧
      (∀ j, Store.bit (resetLevel false s).mem.rem j = false) ∧
      (∀ j, Store.get (resetLevel false s).mem.msg j = none) ∧ ∀ j, Store.get (resetLevel false s).mem.cw j = none) ∧
  (∀ (i : Input) (s t : State), inputStep i s = .next t → (∀ b, i ≠ .rst b) → t.rst = s.rst)

/-- The invariant holds after reset, for every block. -/
def Obligations.InvariantHoldsAtReset : Prop :=
  State.Inv State.reset ∧ ∀ p : Params, p.legal → State.Inv (State.resetWith p)

/-- Every step keeps the invariant, from every state that has it. -/
def Obligations.StepKeepsInvariant : Prop :=
  ∀ s t : State, State.Inv s → step s = .next t → State.Inv t

/-! ### STATUS -/

/-- 10_state.md R34: the reserved bits of STATUS read as 0 and writes to them are ignored; and, from R27, which field each
other bit of the word is. -/
def Obligations.StatusWordLayout : Prop :=
  ∀ s : State,
    (∀ k, (5 ≤ k ∧ k ≤ 7) ∨ 12 ≤ k → (regWord s .status).getLsbD k = false) ∧
    (regWord s .status).getLsbD 0 = s.busy ∧ (regWord s .status).getLsbD 1 = s.status.done ∧
    (regWord s .status).getLsbD 2 = s.status.err ∧ (regWord s .status).getLsbD 3 = s.status.clean ∧
    (regWord s .status).getLsbD 4 = s.status.ovr ∧ (regWord s .status).extractLsb' 8 4 = s.status.errCode.code ∧
    ∀ v v' : Word, v.getLsbD 1 = v'.getLsbD 1 → v.getLsbD 2 = v'.getLsbD 2 → v.getLsbD 4 = v'.getLsbD 4 →
      portStep (.write 0x00014#18 .word v) s = portStep (.write 0x00014#18 .word v') s

/-- 10_state.md R28: a command issue sets BUSY, a completion clears it, reset clears it, and no other event writes it. An
`Input` is one move of the host, the engine or the reset input. -/
def Obligations.BusyChangesOnlyAtIssueCompletionOrReset : Prop :=
  (∀ (s : State) (w : Word), (s.issue w).busy = true) ∧
  (∀ (i : Instr) (s t : State), exec i s = .next t → t.busy = false) ∧
  (∀ s : State, (resetLevel true s).busy = false) ∧
  (∀ (i : Input) (s t : State), inputStep i s = .next t → t.busy ≠ s.busy →
    (∃ w, i = .host (.write 0x00010#18 .word w) ∧ s.busy = false ∧ s.rst = false ∧ t.eng = .busy w) ∨
    (i = .engine ∧ s.busy = true ∧ s.rst = false ∧ t.status.done = true) ∨
    (∃ b, i = .rst b ∧ s.busy = true))

/-- 10_state.md R29, R30: an issue clears DONE and ERR; a completion sets DONE, and ERR exactly when it is one with an error; a
write of STATUS clears them where it has a 1, and ERR_CODE with ERR; and nothing else but reset writes them. -/
def Obligations.DoneAndErrFollowIssueCompletionAndClear : Prop :=
  (∀ (s : State) (w : Word), (s.issue w).status.done = false ∧ (s.issue w).status.err = false) ∧
  (∀ (i : Instr) (s t : State), exec i s = .next t →
    t.status.done = true ∧ (t.status.err = true ↔ t.status.errCode ≠ .noError)) ∧
  (∀ (s : State) (v : Word), s.rst = false →
    (portStep (.write 0x00014#18 .word v) s).status.done = (s.status.done && !v.getLsbD 1) ∧
      (portStep (.write 0x00014#18 .word v) s).status.err = (s.status.err && !v.getLsbD 2) ∧
      (v.getLsbD 2 = true → (portStep (.write 0x00014#18 .word v) s).status.errCode = .noError)) ∧
  (∀ (i : Input) (s t : State), inputStep i s = .next t →
    t.status.done ≠ s.status.done ∨ t.status.err ≠ s.status.err →
    (∃ w, i = .host (.write 0x00010#18 .word w) ∧ s.busy = false) ∨ (i = .engine ∧ s.busy = true) ∨
      (∃ v, i = .host (.write 0x00014#18 .word v)) ∨ ∃ b, i = .rst b)

/-- 10_state.md R31: CLEAN is written only by the DECODE step of DECODE, TRIAL and EXPERIMENT (and by reset); where that step
completes it says whether the remainder REM now holds is all zero; and a command that raises before its DECODE step leaves it. -/
def Obligations.CleanSaysTheRemainderIsZero : Prop :=
  (∀ (i : Input) (s t : State), inputStep i s = .next t → t.status.clean ≠ s.status.clean →
    (i = .engine ∧ s.rst = false ∧
      ∃ w, s.eng = .busy w ∧ (w = encode .decode ∨ w = encode .trial ∨ w = encode .experiment)) ∨
    (∃ b, i = .rst b)) ∧
  (∀ s t : State, exec .decode s = .next t →
    if t.status.err = true then t.status.clean = s.status.clean
    else (t.status.clean = true ↔ ∀ j, Store.bit t.mem.rem j = false)) ∧
  (∀ s t : State, exec .trial s = .next t →
    if t.status.err = true then t.status.clean = s.status.clean
    else (t.status.clean = true ↔ ∀ j, Store.bit t.mem.rem j = false)) ∧
  (∀ s t : State, exec .experiment s = .next t → t.status.err = false → 1 ≤ s.regs.trials.toNat →
    (t.status.clean = true ↔ ∀ j, Store.bit t.mem.rem j = false)) ∧
  (∀ s t : State, exec .experiment s = .next t → (t.status.err = true ∧ t.regs.failOffset = 0) ∨ s.regs.trials = 0 →
    t.status.clean = s.status.clean)

/-- 10_state.md R32: a host write that is dropped while busy sets OVR, and nothing else does; only a write of STATUS with bit 4
set or reset clears it; a command issue does not. -/
def Obligations.OvrIsSetByDroppedWritesOnly : Prop :=
  (∀ (s : State) (a : PortAddr) (v : Word), s.rst = false → s.busy = true → s.params.legal → a.toNat % 4 = 0 →
    (a.toNat = 0x10 ∨ InWritable a.toNat ∨ InPoly s.params a.toNat ∨ InMsg s.params a.toNat ∨ InCw s.params a.toNat) →
    (portStep (.write a .word v) s).status.ovr = true) ∧
  (∀ (i : Input) (s t : State), inputStep i s = .next t → s.status.ovr = false → t.status.ovr = true →
    s.busy = true ∧ ∃ a v, i = .host (.write a .word v) ∧ t.resp = some .okWrite ∧
      (a.toNat = 0x10 ∨ InWritable a.toNat ∨ InPoly s.params a.toNat ∨ InMsg s.params a.toNat ∨ InCw s.params a.toNat)) ∧
  (∀ (s : State) (v : Word), s.rst = false → v.getLsbD 4 = true →
    (portStep (.write 0x00014#18 .word v) s).status.ovr = false) ∧
  (∀ (s : State) (w : Word), (s.issue w).status.ovr = s.status.ovr) ∧
  (∀ (i : Input) (s t : State), inputStep i s = .next t → s.status.ovr = true → t.status.ovr = false →
    (∃ v, i = .host (.write 0x00014#18 .word v) ∧ v.getLsbD 4 = true) ∨ ∃ b, i = .rst b)

/-- 10_state.md R33: an issue clears ERR_CODE, a completion with an error writes its code, one without leaves it 0, clearing
ERR clears it, the legal values are 0, 1, 2, 4, 5 and 6, and no step writes a reserved code. -/
def Obligations.ReservedErrorCodesAreNeverWritten : Prop :=
  (∀ (s : State) (w : Word), (s.issue w).status.errCode.code = 0) ∧
  (ErrCode.code .noError = 0 ∧ ErrCode.code .lengthMismatch = 1 ∧ ErrCode.code .range = 2 ∧ ErrCode.code .divisor = 4 ∧
    ErrCode.code .param = 5 ∧ ErrCode.code .illegalCmd = 6) ∧
  (∀ (s : State) (e : ErrCode), (s.completeError e).status.errCode = e ∧ s.completeOk.status.errCode = .noError) ∧
  (∀ (i : Instr) (s t : State), exec i s = .next t →
    (t.status.err = true → t.status.errCode.code ∈ [1#4, 2#4, 4#4, 5#4]) ∧
    (t.status.err = false → t.status.errCode.code = 0)) ∧
  (∀ (t : Status) (v : Word), v.getLsbD 2 = true → (t.writeClear v).errCode.code = 0) ∧
  (∀ (i : Input) (s t : State), inputStep i s = .next t → s.status.errCode.code ∈ [0#4, 1#4, 2#4, 4#4, 5#4, 6#4] →
    t.status.errCode.code ∈ [0#4, 1#4, 2#4, 4#4, 5#4, 6#4])

/-- 10_state.md R35: an issue clears FAIL_OFFSET; an EXPERIMENT that fails at trial k leaves k there; every other completion
leaves it as the issue did; host writes are ignored. -/
def Obligations.FailOffsetIsTheFailingTrial : Prop :=
  (∀ (s : State) (w : Word), (s.issue w).regs.failOffset = 0) ∧
  (∀ (s u v : State) (k : Nat) (e : ErrCode), k < s.regs.trials.toNat → trialsDone k s = some u →
    trialAt k u = .raised e v → ∃ t, exec .experiment s = .next t ∧ t.status.err = true ∧ t.regs.failOffset.toNat = k) ∧
  (∀ (i : Instr) (s t : State), exec i s = .next t → i ≠ .experiment ∨ t.status.err = false →
    t.regs.failOffset = s.regs.failOffset) ∧
  (∀ (s : State) (v : Word), s.rst = false → portStep (.write 0x00018#18 .word v) s = { s with resp := some .okWrite })

/-- 60_exceptions.md R258: an error stays recorded until the host clears it, issues the next command, or resets the block; a
STATUS write with bit 2 clears ERR and ERR_CODE, an issue clears ERR, ERR_CODE, DONE and FAIL_OFFSET; nothing else is restored. -/
def Obligations.ErrorStaysUntilCleared : Prop :=
  (∀ (i : Input) (s t : State), State.Inv s → inputStep i s = .next t → s.status.err = true →
    (t.status.err = true ∧ t.status.errCode = s.status.errCode) ∨
    (∃ v, i = .host (.write 0x00014#18 .word v) ∧ v.getLsbD 2 = true) ∨
    (∃ v, i = .host (.write 0x00010#18 .word v) ∧ t.eng = .busy v) ∨ ∃ b, i = .rst b) ∧
  (∀ (s : State) (v : Word), s.rst = false →
    portStep (.write 0x00014#18 .word v) s = { s with status := clearedStatus v s.status, resp := some .okWrite }) ∧
  (∀ (s : State) (w : Word), s.rst = false → s.eng = .idle →
    portStep (.write 0x00010#18 .word w) s = { s with
      eng := .busy w
      status := { s.status with err := false, errCode := .noError, done := false }
      regs := { s.regs with failOffset := 0 }
      resp := some .okWrite })

/-! ### The register port -/

/-- 20_memory.md R71, R72 and 60_exceptions.md R255: an access that is narrow, misaligned or unmapped answers ERROR and changes
nothing, STATUS and a pending command included; a legal access of a mapped word answers OK, a read with the word. -/
def Obligations.IllegalAndUnmappedAccessesAnswerError : Prop :=
  ∀ (s : State) (a : PortAddr) (n : AccessSize) (v : Word), s.rst = false → s.params.legal →
    ((n ≠ .word ∨ a.toNat % 4 ≠ 0 ∨ ¬ IsMapped s.params a.toNat) →
      portStep (.read a n) s = { s with resp := some .error } ∧
      portStep (.write a n v) s = { s with resp := some .error }) ∧
    (n = .word → a.toNat % 4 = 0 → IsMapped s.params a.toNat →
      (∃ r, (portStep (.read a n) s).resp = some (.okRead r)) ∧ (portStep (.write a n v) s).resp = some .okWrite)

/-- 20_memory.md R79, its first sentence and 10_state.md R26: a read changes nothing but the response and the model's count of
draws (log 4, log 6). -/
def Obligations.ReadsHaveNoSideEffect : Prop :=
  ∀ (s : State) (a : PortAddr) (n : AccessSize), ∃ r d,
    portStep (.read a n) s = { s with resp := some r, draws := d } ∧ s.draws ≤ d

/-- 10_state.md R21, R24, R25: ID, PARAM0 and PARAM1 read their constants in every state, busy or not, and ignore writes. -/
def Obligations.IdentityAndParametersAreConstant : Prop :=
  ∀ (s : State) (v : Word), s.rst = false →
    portStep (.read 0x00000#18 .word) s = { s with resp := some (.okRead 0x43524301#32) } ∧
    portStep (.read 0x00004#18 .word) s = { s with resp := some (.okRead (BitVec.ofNat 32 s.params.msgMaxBytes)) } ∧
    portStep (.read 0x00008#18 .word) s = { s with resp := some (.okRead (BitVec.ofNat 32 s.params.polyMax)) } ∧
    portStep (.write 0x00000#18 .word v) s = { s with resp := some .okWrite } ∧
    portStep (.write 0x00004#18 .word v) s = { s with resp := some .okWrite } ∧
    portStep (.write 0x00008#18 .word v) s = { s with resp := some .okWrite }

/-- 20_memory.md R73, while idle: each RW register stores all 32 bits, CTRL stores BPOL alone, RO registers ignore the write,
STATUS clears the W1C bits written as 1, and a read returns the current value, CMD 0. -/
def Obligations.RegistersReadAndWriteByAccessType : Prop :=
  ∀ (s : State) (v : Word), s.rst = false → s.eng = .idle →
    (portStep (.write 0x00020#18 .word v) s = { s with regs := { s.regs with polyLen := v }, resp := some .okWrite } ∧
     portStep (.write 0x00024#18 .word v) s = { s with regs := { s.regs with lenCrc := v }, resp := some .okWrite } ∧
     portStep (.write 0x00028#18 .word v) s = { s with regs := { s.regs with msgLen := v }, resp := some .okWrite } ∧
     portStep (.write 0x0002C#18 .word v) s = { s with regs := { s.regs with cwLen := v }, resp := some .okWrite } ∧
     portStep (.write 0x00030#18 .word v) s = { s with regs := { s.regs with burstLen := v }, resp := some .okWrite } ∧
     portStep (.write 0x00034#18 .word v) s = { s with regs := { s.regs with offset := v }, resp := some .okWrite } ∧
     portStep (.write 0x00038#18 .word v) s = { s with regs := { s.regs with trials := v }, resp := some .okWrite } ∧
     portStep (.write 0x0003C#18 .word v) s = { s with regs := { s.regs with bpol := v.getLsbD 0 }, resp := some .okWrite }) ∧
    (∀ a : PortAddr, InReadOnly a.toNat → portStep (.write a .word v) s = { s with resp := some .okWrite }) ∧
    portStep (.write 0x00014#18 .word v) s = { s with status := clearedStatus v s.status, resp := some .okWrite } ∧
    (portStep (.read 0x00000#18 .word) s = { s with resp := some (.okRead 0x43524301#32) } ∧
     portStep (.read 0x00004#18 .word) s = { s with resp := some (.okRead (BitVec.ofNat 32 s.params.msgMaxBytes)) } ∧
     portStep (.read 0x00008#18 .word) s = { s with resp := some (.okRead (BitVec.ofNat 32 s.params.polyMax)) } ∧
     portStep (.read 0x00010#18 .word) s = { s with resp := some (.okRead 0) } ∧
     portStep (.read 0x00014#18 .word) s = { s with resp := some (.okRead (statusWord s.busy s.status)) } ∧
     portStep (.read 0x00018#18 .word) s = { s with resp := some (.okRead s.regs.failOffset) } ∧
     portStep (.read 0x00020#18 .word) s = { s with resp := some (.okRead s.regs.polyLen) } ∧
     portStep (.read 0x00024#18 .word) s = { s with resp := some (.okRead s.regs.lenCrc) } ∧
     portStep (.read 0x00028#18 .word) s = { s with resp := some (.okRead s.regs.msgLen) } ∧
     portStep (.read 0x0002C#18 .word) s = { s with resp := some (.okRead s.regs.cwLen) } ∧
     portStep (.read 0x00030#18 .word) s = { s with resp := some (.okRead s.regs.burstLen) } ∧
     portStep (.read 0x00034#18 .word) s = { s with resp := some (.okRead s.regs.offset) } ∧
     portStep (.read 0x00038#18 .word) s = { s with resp := some (.okRead s.regs.trials) } ∧
     portStep (.read 0x0003C#18 .word) s = { s with resp := some (.okRead (if s.regs.bpol = true then 1 else 0)) } ∧
     portStep (.read 0x00040#18 .word) s = { s with resp := some (.okRead s.regs.missed) } ∧
     portStep (.read 0x00044#18 .word) s = { s with resp := some (.okRead s.regs.total) })

/-- A read of window word `w` of a bit array: bit `X[32w + k]` at bit 31 - k where the array has it, 0 where it has not; a bit
with no value is left open. -/
def Sys2Proof.Machine.WindowWordReads (bit : Nat → Option Bool) (cap w : Nat) (v : Word) : Prop :=
  ∀ k, k < 32 →
    (cap ≤ 32 * w + k → v.getLsbD (31 - k) = false) ∧
    (∀ b, 32 * w + k < cap → bit (32 * w + k) = some b → v.getLsbD (31 - k) = b)

/-- 20_memory.md R74: the POLY, REM and CW windows pack 32 bits a word, index 0 at bit 31; a write stores the backed bits of
its word and no others; REM ignores it; unbacked bits read 0. -/
def Obligations.BitWindowsPackFromTheMostSignificantBit : Prop :=
  ∀ (s : State) (w : Nat) (v : Word), s.rst = false → s.eng = .idle → s.params.legal → Memory.wf s.params s.mem = true →
    (w < (s.params.polyMax + 31) / 32 →
      (∃ r, portStep (.read (BitVec.ofNat 18 (0x400 + 4 * w)) .word) s = { s with resp := some (.okRead r) } ∧
        WindowWordReads (fun j => some (Store.bit s.mem.poly j)) s.params.polyMax w r) ∧
      (∃ m, portStep (.write (BitVec.ofNat 18 (0x400 + 4 * w)) .word v) s =
          { s with mem := { s.mem with poly := m }, resp := some .okWrite } ∧
        ∀ j, Store.bit m j =
          if j / 32 = w ∧ j < s.params.polyMax then v.getLsbD (31 - j % 32) else Store.bit s.mem.poly j)) ∧
    (w < (s.params.polyMax - 1 + 31) / 32 →
      (∃ r, portStep (.read (BitVec.ofNat 18 (0x800 + 4 * w)) .word) s = { s with resp := some (.okRead r) } ∧
        WindowWordReads (fun j => some (Store.bit s.mem.rem j)) (s.params.polyMax - 1) w r) ∧
      portStep (.write (BitVec.ofNat 18 (0x800 + 4 * w)) .word v) s = { s with resp := some .okWrite }) ∧
    (w < (s.params.cwMaxBits + 31) / 32 →
      (∃ r d, portStep (.read (BitVec.ofNat 18 (0x20000 + 4 * w)) .word) s =
          { s with resp := some (.okRead r), draws := d } ∧
        WindowWordReads (Store.get s.mem.cw) s.params.cwMaxBits w r) ∧
      (∃ m, portStep (.write (BitVec.ofNat 18 (0x20000 + 4 * w)) .word v) s =
          { s with mem := { s.mem with cw := m }, resp := some .okWrite } ∧
        ∀ j, Store.get m j =
          if j / 32 = w ∧ j < s.params.cwMaxBits then some (v.getLsbD (31 - j % 32)) else Store.get s.mem.cw j))

/-- 20_memory.md R75: the MSG window packs 4 bytes a word, byte 4w in bits 31 to 24; unbacked bytes read 0 and ignore writes. -/
def Obligations.MessageWindowPacksBigEndianLanes : Prop :=
  ∀ (s : State) (w : Nat) (v : Word), s.rst = false → s.eng = .idle → s.params.legal →
    w < (s.params.msgMaxBytes + 3) / 4 →
    (∃ r d, portStep (.read (BitVec.ofNat 18 (0x10000 + 4 * w)) .word) s = { s with resp := some (.okRead r), draws := d } ∧
      ∀ k, k < 4 →
        (s.params.msgMaxBytes ≤ 4 * w + k → r.extractLsb' (24 - 8 * k) 8 = 0) ∧
        (∀ b, 4 * w + k < s.params.msgMaxBytes → Store.get s.mem.msg (4 * w + k) = some b →
          r.extractLsb' (24 - 8 * k) 8 = b)) ∧
    (∃ m, portStep (.write (BitVec.ofNat 18 (0x10000 + 4 * w)) .word v) s =
        { s with mem := { s.mem with msg := m }, resp := some .okWrite } ∧
      ∀ i, Store.get m i =
        if i / 4 = w ∧ i < s.params.msgMaxBytes then some (v.extractLsb' (24 - 8 * (i % 4)) 8) else Store.get s.mem.msg i)

/-- 70_reset_and_hazards.md R284: a write to CMD while idle issues the command, and that is all it does. -/
def Obligations.CommandIssue : Prop :=
  ∀ (s : State) (w : Word), s.rst = false → s.eng = .idle →
    portStep (.write 0x00010#18 .word w) s =
      { s with
        eng := .busy w
        status := issuedStatus s.status
        regs := { s.regs with failOffset := 0 }
        resp := some .okWrite }

/-- 70_reset_and_hazards.md R285: what a write does while busy, by its address. -/
def Obligations.WritesWhileBusyAreDropped : Prop :=
  ∀ (s : State) (a : PortAddr) (v : Word), s.rst = false → s.busy = true → s.params.legal → a.toNat % 4 = 0 →
    ((a.toNat = 0x10 ∨ InWritable a.toNat ∨ InPoly s.params a.toNat ∨ InMsg s.params a.toNat ∨ InCw s.params a.toNat) →
      portStep (.write a .word v) s = { s with status := { s.status with ovr := true }, resp := some .okWrite }) ∧
    (a.toNat = 0x14 →
      portStep (.write a .word v) s = { s with status := clearedStatus v s.status, resp := some .okWrite }) ∧
    ((InReadOnly a.toNat ∨ InRem s.params a.toNat) → portStep (.write a .word v) s = { s with resp := some .okWrite })

/-- 70_reset_and_hazards.md, section 3, reads while busy: STATUS, ID, PARAM0, PARAM1 and CMD read as always; every other mapped
word answers some word, of which nothing is said (the draw is the model's free value, log 4). -/
def Obligations.ReadsWhileBusy : Prop :=
  ∀ (s : State) (a : PortAddr), s.rst = false → s.busy = true → s.params.legal → a.toNat % 4 = 0 →
    (a.toNat = 0x14 → portStep (.read a .word) s = { s with resp := some (.okRead (statusWord true s.status)) }) ∧
    (a.toNat = 0x00 → portStep (.read a .word) s = { s with resp := some (.okRead 0x43524301#32) }) ∧
    (a.toNat = 0x04 →
      portStep (.read a .word) s = { s with resp := some (.okRead (BitVec.ofNat 32 s.params.msgMaxBytes)) }) ∧
    (a.toNat = 0x08 → portStep (.read a .word) s = { s with resp := some (.okRead (BitVec.ofNat 32 s.params.polyMax)) }) ∧
    (a.toNat = 0x10 → portStep (.read a .word) s = { s with resp := some (.okRead 0) }) ∧
    (IsMapped s.params a.toNat → a.toNat ∉ [0x00, 0x04, 0x08, 0x10, 0x14] →
      ∃ v, portStep (.read a .word) s = { s with resp := some (.okRead v), draws := s.draws + 1 })

/-! ### Datapath -/

/-- 40_bitstream.md R131 to R138: each primitive, bit by bit, with the condition under which it raises. -/
def Obligations.BitStreamPrimitives : Prop :=
  (∀ bs : List Byte, (fromBytes bs).length = 8 * bs.length ∧
    ∀ i k, k < 8 → (fromBytes bs)[8 * i + k]? = bs[i]?.map fun b => b.getLsbD (7 - k)) ∧
  (∀ n, (zeros n).length = n ∧ ∀ i, i < n → (zeros n)[i]? = some false) ∧
  (∀ (S : Bits) (lo hi : Nat), (hi < lo ∨ S.length < hi → slice S lo hi = .raise .range) ∧
    (lo ≤ hi → hi ≤ S.length → ∃ T, slice S lo hi = .ok T ∧ T.length = hi - lo ∧ ∀ j, j < hi - lo → T[j]? = S[lo + j]?)) ∧
  (∀ A B : Bits, (concat A B).length = A.length + B.length ∧ (∀ j, j < A.length → (concat A B)[j]? = A[j]?) ∧
    ∀ j, (concat A B)[A.length + j]? = B[j]?) ∧
  (∀ S : Bits, 1 ≤ S.length → (shiftLeftOne S).length = S.length ∧
    (∀ j, j < S.length - 1 → (shiftLeftOne S)[j]? = S[j + 1]?) ∧ (shiftLeftOne S)[S.length - 1]? = some false) ∧
  (∀ A B : Bits, (A.length ≠ B.length → xorInPlace A B = .raise .lengthMismatch) ∧
    (A.length = B.length → ∃ T, xorInPlace A B = .ok T ∧ T.length = A.length ∧
      ∀ j, T.getD j false = (A.getD j false ^^ B.getD j false))) ∧
  (∀ (S : Bits) (i : Nat) (v : Bool), (S.length ≤ i → getBit S i = .raise .range ∧ setBit S i v = .raise .range) ∧
    ∀ h : i < S.length, getBit S i = .ok S[i] ∧
      ∃ T, setBit S i v = .ok T ∧ T.length = S.length ∧ ∀ j, j < S.length → T[j]? = if j = i then some v else S[j]?) ∧
  (∀ A B : Bits, (A.length ≠ B.length → bitsEq A B = .raise .lengthMismatch) ∧
    (A.length = B.length → ∃ b, bitsEq A B = .ok b ∧ (b = true ↔ ∀ j : Nat, A[j]? = B[j]?)))

/-- A stream read as a polynomial over GF(2): bit j of a stream of length n is the coefficient of x^(n - 1 - j). -/
def Sys2Proof.Machine.StreamPoly (S : Bits) (P : Polynomial (ZMod 2)) : Prop :=
  ∀ k, P.coeff k = if k < S.length ∧ S.getD (S.length - 1 - k) false = true then 1 else 0

/-- The kernel computes the remainder of polynomials over GF(2). The spec marks it derived: "`computeRemainder(dividend,
divisor)` is the unique stream `R` of `p - 1` bits with `poly(R) = poly(dividend) mod poly(divisor)`." -/
def Obligations.KernelIsPolynomialRemainder : Prop :=
  ∀ (dividend d : Bits) (D P : Polynomial (ZMod 2)), d.headD false = true → d.length ≤ dividend.length →
    StreamPoly dividend D → StreamPoly d P →
    ∃ R, computeRemainder dividend d = .ok R ∧ R.length = d.length - 1 ∧ StreamPoly R (D %ₘ P) ∧
      ∀ R' : Bits, R'.length = d.length - 1 → StreamPoly R' (D %ₘ P) → R' = R

/-- The kernel is linear. The spec marks it derived: "`computeRemainder(A xor B, d) = computeRemainder(A, d) xor
computeRemainder(B, d)`." -/
def Obligations.RemainderIsLinear : Prop :=
  ∀ A B d : Bits, A.length = B.length → 1 ≤ d.length → d.length ≤ A.length →
    ∃ RA RB, computeRemainder A d = .ok RA ∧ computeRemainder B d = .ok RB ∧
      computeRemainder (xorBits A B) d = .ok (xorBits RA RB)

/-- The syndrome depends on the error alone. The spec marks it derived: "DECODE of `c xor e` gives `computeRemainder(e, d)`." -/
def Obligations.SyndromeDependsOnlyOnTheError : Prop :=
  ∀ m e d R : Bits, 1 ≤ m.length → d.headD false = true → computeRemainder (m ++ zeros (d.length - 1)) d = .ok R →
    e.length = (m ++ R).length → computeRemainder (xorBits (m ++ R) e) d = computeRemainder e d

/-- The detection bound for a divisor ending in 1. The spec marks it derived: "every nonzero error pattern whose flipped bits
all lie within `r` consecutive positions is detected." -/
def Obligations.ShortBurstsAreDetected : Prop :=
  ∀ (c e d : Bits) (k : Nat), 2 ≤ d.length → d.headD false = true → d.getD (d.length - 1) false = true →
    d.length ≤ c.length → e.length = c.length → (∃ i, e.getD i false = true) →
    (∀ i, e.getD i false = true → k ≤ i ∧ i < k + (d.length - 1)) →
    computeRemainder c d = .ok (zeros (d.length - 1)) →
    ∃ R, computeRemainder (xorBits c e) d = .ok R ∧ R ≠ zeros (d.length - 1)

/-- The default divisor. The spec marks it derived: "an error that flips exactly two bits at positions `a < b` is missed iff
`(b - a) mod 5 = 0`." -/
def Obligations.DefaultDivisorTwoBitErrors : Prop :=
  ∀ L a b : Nat, 5 ≤ L → a < b → b < L →
    (computeRemainder ((List.range L).map fun i => i == a || i == b) [true, true, true, true, true] = .ok (zeros 4) ↔
      (b - a) % 5 = 0)

/-! ### ENCODE and DECODE -/

/-- ENCODE where every check passes and every message byte has a value: CW, CW_LEN and REM, and nothing else but the completion. -/
def Sys2Proof.Machine.EncodeCompletes : Prop :=
  ∀ (s : State) (bs : List Byte), encodeError s = none → MessageIs s bs →
    ∃ rem t, computeRemainder (fromBytes bs ++ zeros s.regs.lenCrc.toNat) (divisor s) = .ok rem ∧
      rem.length = s.regs.lenCrc.toNat ∧ exec .encode s = .next t ∧
      (∀ j, Store.get t.mem.cw j = if j < encodedLen s then (fromBytes bs ++ rem)[j]? else Store.get s.mem.cw j) ∧
      (∀ j, Store.bit t.mem.rem j = rem.getD j false) ∧
      t = { s with
        eng := .idle
        status := okStatus s.status
        regs := { s.regs with cwLen := BitVec.ofNat 32 (encodedLen s) }
        mem := { s.mem with cw := t.mem.cw, rem := t.mem.rem } } ∧
      (s.params.legal → t.regs.cwLen.toNat = encodedLen s)

/-- ENCODE where a check fails: the first failing one is reported, and nothing but STATUS changes. -/
def Sys2Proof.Machine.EncodeRaises : Prop :=
  ∀ (s : State) (e : ErrCode), encodeError s = some e →
    exec .encode s = .next { s with eng := .idle, status := errStatus e s.status }

/-- ENCODE where every check passes and a message byte has no value: the model fault. -/
def Sys2Proof.Machine.EncodeFaults : Prop := ∀ s : State, encodeError s = none → MessageUnset s → exec .encode s = .fault .uninit

/-- 41_crc_engine.md R164, R165: ENCODE, with its checks in order. -/
def Obligations.EncodeFollowsItsRule : Prop := EncodeCompletes ∧ EncodeRaises ∧ EncodeFaults

/-- DECODE where every check passes and every codeword bit has a value: REM and CLEAN, and nothing else but the completion. -/
def Sys2Proof.Machine.DecodeCompletes : Prop :=
  ∀ (s : State) (c : Bits), decodeError s = none → CodewordIs s c →
    ∃ rem t, computeRemainder c (divisor s) = .ok rem ∧ rem.length = s.regs.lenCrc.toNat ∧ exec .decode s = .next t ∧
      (∀ j, Store.bit t.mem.rem j = rem.getD j false) ∧
      t = { s with
        eng := .idle
        status := { okStatus s.status with clean := decide (rem = zeros s.regs.lenCrc.toNat) }
        mem := { s.mem with rem := t.mem.rem } }

/-- DECODE where a check fails. -/
def Sys2Proof.Machine.DecodeRaises : Prop :=
  ∀ (s : State) (e : ErrCode), decodeError s = some e →
    exec .decode s = .next { s with eng := .idle, status := errStatus e s.status }

/-- DECODE where every check passes and a codeword bit has no value. -/
def Sys2Proof.Machine.DecodeFaults : Prop := ∀ s : State, decodeError s = none → CodewordUnset s → exec .decode s = .fault .uninit

/-- 41_crc_engine.md R164, R167: DECODE, with its checks in order. -/
def Obligations.DecodeFollowsItsRule : Prop := DecodeCompletes ∧ DecodeRaises ∧ DecodeFaults

/-- The round trip. The spec marks it derived: "After an ENCODE that completes without error, a DECODE with the same POLY_LEN,
LEN_CRC and POLY, and with CW unchanged, gives REM = all zero and STATUS.CLEAN = 1." -/
def Obligations.DecodeAfterEncodeIsClean : Prop :=
  ∀ s t u : State, s.params.legal → exec .encode s = .next t → t.status.err = false →
    u.params = t.params → u.mem.poly = t.mem.poly → u.mem.cw = t.mem.cw →
    u.regs.polyLen = t.regs.polyLen → u.regs.lenCrc = t.regs.lenCrc → u.regs.cwLen = t.regs.cwLen →
    ∃ v, exec .decode u = .next v ∧ v.status.err = false ∧ v.status.clean = true ∧ ∀ j, Store.bit v.mem.rem j = false

/-- The message packing is the codeword packing. The spec marks it derived: "after an ENCODE, CW window word `w` equals MSG
window word `w` for every `w < floor(MSG_LEN / 4)`." -/
def Obligations.MessageWordsEqualCodewordWords : Prop :=
  ∀ (s t : State) (w : Nat), s.params.legal → s.rst = false → exec .encode s = .next t → t.status.err = false →
    w < s.regs.msgLen.toNat / 4 →
    ∃ v, (portStep (.read (BitVec.ofNat 18 (0x20000 + 4 * w)) .word) t).resp = some (.okRead v) ∧
      (portStep (.read (BitVec.ofNat 18 (0x10000 + 4 * w)) .word) t).resp = some (.okRead v)

/-! ### CORRUPT -/

/-- CORRUPT where every check passes: the burst's bits of CW are flipped, a bit with no value stays without one, and nothing
else changes but the completion. -/
def Sys2Proof.Machine.CorruptCompletes : Prop :=
  ∀ s : State, corruptError s s.regs.offset.toNat s.regs.cwLen.toNat = none →
    ∃ t, exec .corrupt s = .next t ∧
      (∀ j, Store.get t.mem.cw j =
        (Store.get s.mem.cw j).map fun b =>
          b ^^ burstHits s.params.gen s.regs.offset.toNat s.regs.burstLen.toNat j) ∧
      t = { s with eng := .idle, status := okStatus s.status, mem := { s.mem with cw := t.mem.cw } }

/-- CORRUPT where a check fails: CW is unchanged. -/
def Sys2Proof.Machine.CorruptRaises : Prop :=
  ∀ (s : State) (e : ErrCode), corruptError s s.regs.offset.toNat s.regs.cwLen.toNat = some e →
    exec .corrupt s = .next { s with eng := .idle, status := errStatus e s.status }

/-- 42_burst_error.md R193, R194, R199: CORRUPT, its flip set, and bits with no value. -/
def Obligations.CorruptFollowsItsRule : Prop := CorruptCompletes ∧ CorruptRaises

/-- The boundary and extent guarantees. The spec marks them derived: "After a CORRUPT that completes without error, `CW[s]` and
`CW[s + n - 1]` differ from their values before it" and "A successful CORRUPT flips exactly `|F| = 2 + |D|` bits, with
`2 ≤ |F| ≤ n`. All of them lie in `[s, s + n)`, and every bit outside that range is unchanged." -/
def Obligations.CorruptFlipsBothEndsAndStaysInside : Prop :=
  ∀ s : State, corruptError s s.regs.offset.toNat s.regs.cwLen.toNat = none →
    ∃ t, exec .corrupt s = .next t ∧
      (∀ b, Store.get s.mem.cw s.regs.offset.toNat = some b → Store.get t.mem.cw s.regs.offset.toNat = some (!b)) ∧
      (∀ b, Store.get s.mem.cw (s.regs.offset.toNat + s.regs.burstLen.toNat - 1) = some b →
        Store.get t.mem.cw (s.regs.offset.toNat + s.regs.burstLen.toNat - 1) = some (!b)) ∧
      (∀ j, j < s.regs.offset.toNat ∨ s.regs.offset.toNat + s.regs.burstLen.toNat ≤ j →
        Store.get t.mem.cw j = Store.get s.mem.cw j) ∧
      (∃ F : Finset Nat, 2 ≤ F.card ∧ F.card ≤ s.regs.burstLen.toNat ∧
        F.card ≤ 2 + (burstRng s.params.gen s.regs.offset.toNat s.regs.burstLen.toNat).1 ∧
        (∀ q ∈ F, q < s.regs.burstLen.toNat) ∧
        ∀ j b, Store.get s.mem.cw j = some b →
          Store.get t.mem.cw j = some (if ∃ q ∈ F, j = s.regs.offset.toNat + q then !b else b))

/-- 42_burst_error.md R190: the laws of BURST_RNG, of every generator the model has (laws 1 and 4, determinism and
statelessness, hold of it as a function of seed and length). -/
def Obligations.GeneratorObeysItsLaws : Prop :=
  ∀ (g : Generator) (seed n : Nat), 2 ≤ n →
    (burstRng g seed n).1 < n - 1 ∧ (burstRng g seed n).2.length = (burstRng g seed n).1 ∧
      ∀ q ∈ (burstRng g seed n).2, 1 ≤ q ∧ q < n - 1

/-- 42_burst_error.md, section 1, the known values of the reference instance, and two rows of the table of 95_test_vectors.md. -/
def Obligations.ReferenceGeneratorValues : Prop :=
  referenceDraw 0 0 = 0x61F96636#32 ∧ referenceDraw 0 1 = 0x587BB499#32 ∧ referenceDraw 0 2 = 0xD8377A75#32 ∧
    referenceDraw 1 0 = 0xA06BF3B0#32 ∧ burstRng .reference 7 4 = (2, [2, 2]) ∧
    burstRng .reference 4 8 = (6, [3, 4, 6, 3, 6, 4])

/-! ### TRIAL and EXPERIMENT -/

/-- TRIAL where no check fails: the encoded codeword corrupted at OFFSET stands in CW, the syndrome in REM, the outcome in
CLEAN; OFFSET and everything else stay. -/
def Sys2Proof.Machine.TrialCompletes : Prop :=
  ∀ (s : State) (bs : List Byte), s.params.legal → encodeError s = none → MessageIs s bs →
    corruptError s s.regs.offset.toNat (encodedLen s) = none →
    ∃ rem syn t, computeRemainder (fromBytes bs ++ zeros s.regs.lenCrc.toNat) (divisor s) = .ok rem ∧
      computeRemainder (burstOn s.params.gen s.regs.offset.toNat s.regs.burstLen.toNat (fromBytes bs ++ rem)) (divisor s) =
        .ok syn ∧
      exec .trial s = .next t ∧
      (∀ j, Store.get t.mem.cw j =
        if j < encodedLen s
        then (burstOn s.params.gen s.regs.offset.toNat s.regs.burstLen.toNat (fromBytes bs ++ rem))[j]?
        else Store.get s.mem.cw j) ∧
      (∀ j, Store.bit t.mem.rem j = syn.getD j false) ∧
      t = { s with
        eng := .idle
        status := { okStatus s.status with clean := decide (syn = zeros s.regs.lenCrc.toNat) }
        regs := { s.regs with cwLen := BitVec.ofNat 32 (encodedLen s) }
        mem := { s.mem with cw := t.mem.cw, rem := t.mem.rem } }

/-- TRIAL where ENCODE raises: nothing but STATUS changes. -/
def Sys2Proof.Machine.TrialRaisesInEncode : Prop :=
  ∀ (s : State) (e : ErrCode), encodeError s = some e →
    exec .trial s = .next { s with eng := .idle, status := errStatus e s.status }

/-- TRIAL where CORRUPT raises: CW, CW_LEN and REM hold ENCODE's results, CLEAN stays. -/
def Sys2Proof.Machine.TrialRaisesInCorrupt : Prop :=
  ∀ (s : State) (bs : List Byte) (e : ErrCode), s.params.legal → encodeError s = none → MessageIs s bs →
    corruptError s s.regs.offset.toNat (encodedLen s) = some e →
    ∃ rem t, computeRemainder (fromBytes bs ++ zeros s.regs.lenCrc.toNat) (divisor s) = .ok rem ∧
      exec .trial s = .next t ∧
      (∀ j, Store.get t.mem.cw j = if j < encodedLen s then (fromBytes bs ++ rem)[j]? else Store.get s.mem.cw j) ∧
      (∀ j, Store.bit t.mem.rem j = rem.getD j false) ∧
      t = { s with
        eng := .idle
        status := errStatus e s.status
        regs := { s.regs with cwLen := BitVec.ofNat 32 (encodedLen s) }
        mem := { s.mem with cw := t.mem.cw, rem := t.mem.rem } }

/-- TRIAL where a message byte has no value: the model fault. -/
def Sys2Proof.Machine.TrialFaults : Prop := ∀ s : State, encodeError s = none → MessageUnset s → exec .trial s = .fault .uninit

/-- 43_validator.md R221: TRIAL, and what it keeps when a step raises. -/
def Obligations.TrialFollowsItsRule : Prop :=
  TrialCompletes ∧ TrialRaisesInEncode ∧ TrialRaisesInCorrupt ∧ TrialFaults

/-- The trial at offset k of an EXPERIMENT on the encoded codeword `cw` is a miss. -/
def Sys2Proof.Machine.missedAt (s : State) (cw : Bits) (k : Nat) : Bool :=
  decide (computeRemainder (burstOn s.params.gen k s.regs.burstLen.toNat cw) (divisor s) = .ok (zeros s.regs.lenCrc.toNat))

/-- EXPERIMENT of no trials: no check is made, and MISSED and TOTAL are 0. -/
def Sys2Proof.Machine.ExperimentOfNoTrials : Prop :=
  ∀ s : State, s.regs.trials = 0 →
    exec .experiment s = .next { s with
      eng := .idle, status := okStatus s.status, regs := { s.regs with missed := 0, total := 0 } }

/-- EXPERIMENT where every trial runs: MISSED counts the misses over the offsets 0 to TRIALS - 1, TOTAL is TRIALS, and CW, REM and
CLEAN are as the last trial left them. -/
def Sys2Proof.Machine.ExperimentSweeps : Prop :=
  ∀ (s : State) (bs : List Byte), s.params.legal → encodeError s = none → MessageIs s bs →
    s.regs.bpol = false → 2 ≤ s.regs.burstLen.toNat → 1 ≤ s.regs.trials.toNat →
    s.regs.trials.toNat - 1 + s.regs.burstLen.toNat ≤ encodedLen s →
    ∃ rem syn t, computeRemainder (fromBytes bs ++ zeros s.regs.lenCrc.toNat) (divisor s) = .ok rem ∧
      computeRemainder
        (burstOn s.params.gen (s.regs.trials.toNat - 1) s.regs.burstLen.toNat (fromBytes bs ++ rem)) (divisor s) = .ok syn ∧
      exec .experiment s = .next t ∧
      t.regs.missed.toNat = (List.range s.regs.trials.toNat).countP (missedAt s (fromBytes bs ++ rem)) ∧
      (∀ j, Store.get t.mem.cw j =
        if j < encodedLen s
        then (burstOn s.params.gen (s.regs.trials.toNat - 1) s.regs.burstLen.toNat (fromBytes bs ++ rem))[j]?
        else Store.get s.mem.cw j) ∧
      (∀ j, Store.bit t.mem.rem j = syn.getD j false) ∧
      t = { s with
        eng := .idle
        status := { okStatus s.status with clean := decide (syn = zeros s.regs.lenCrc.toNat) }
        regs := { s.regs with
          cwLen := BitVec.ofNat 32 (encodedLen s), missed := t.regs.missed, total := s.regs.trials }
        mem := { s.mem with cw := t.mem.cw, rem := t.mem.rem } }

/-- EXPERIMENT where trial k is the first to raise: CW, CW_LEN, REM and CLEAN as it left them, MISSED and TOTAL 0, FAIL_OFFSET k. -/
def Sys2Proof.Machine.ExperimentFails : Prop :=
  ∀ (s u v : State) (k : Nat) (e : ErrCode), k < s.regs.trials.toNat → trialsDone k s = some u → trialAt k u = .raised e v →
    exec .experiment s = .next { v with
      eng := .idle
      status := errStatus e v.status
      regs := { v.regs with missed := 0, total := 0, failOffset := BitVec.ofNat 32 k } }

/-- EXPERIMENT of at least one trial where every check of ENCODE passes and a message byte has no value: the model fault, at the
first trial's ENCODE. -/
def Sys2Proof.Machine.ExperimentFaults : Prop :=
  ∀ s : State, 1 ≤ s.regs.trials.toNat → encodeError s = none → MessageUnset s → exec .experiment s = .fault .uninit

/-- 43_validator.md R222, R223: EXPERIMENT, a sweep that fails, and a message with a byte that holds no value. -/
def Obligations.ExperimentFollowsItsRule : Prop :=
  ExperimentOfNoTrials ∧ ExperimentSweeps ∧ ExperimentFails ∧ ExperimentFaults

/-- Where a sweep fails. The spec marks it derived: "If the ENCODE or CORRUPT configuration check fails, it fails at `k = 0` with
its code. ... Otherwise ... The sweep fails iff `(T - 1) + n > L`, with code RANGE. Its FAIL_OFFSET is then
`max(0, L - n + 1)`." -/
def Obligations.SweepFailsAtTheFirstOffsetOutOfRange : Prop :=
  ∀ s : State, s.params.legal → 1 ≤ s.regs.trials.toNat →
    (∀ e, encodeError s = some e →
      exec .experiment s = .next { s with
        eng := .idle
        status := errStatus e s.status
        regs := { s.regs with missed := 0, total := 0, failOffset := 0 } }) ∧
    (∀ bs, encodeError s = none → MessageIs s bs → (s.regs.bpol = true ∨ s.regs.burstLen.toNat < 2) →
      ∃ t, exec .experiment s = .next t ∧ t.status.err = true ∧ t.status.errCode = .param ∧
        t.regs.failOffset = 0 ∧ t.regs.missed = 0 ∧ t.regs.total = 0) ∧
    (∀ bs, encodeError s = none → MessageIs s bs → s.regs.bpol = false → 2 ≤ s.regs.burstLen.toNat →
      encodedLen s < s.regs.trials.toNat - 1 + s.regs.burstLen.toNat →
      ∃ t, exec .experiment s = .next t ∧ t.status.err = true ∧ t.status.errCode = .range ∧
        t.regs.failOffset.toNat = encodedLen s + 1 - s.regs.burstLen.toNat ∧ t.regs.missed = 0 ∧ t.regs.total = 0) ∧
    (∀ bs, encodeError s = none → MessageIs s bs → s.regs.bpol = false → 2 ≤ s.regs.burstLen.toNat →
      s.regs.trials.toNat - 1 + s.regs.burstLen.toNat ≤ encodedLen s →
      ∃ t, exec .experiment s = .next t ∧ t.status.err = false ∧ t.regs.total = s.regs.trials)

/-- No miss for short bursts. The spec marks it derived: "with a divisor whose last bit is 1, `MISSED = 0` whenever
`BURST_LEN ≤ LEN_CRC`", for every generator. -/
def Obligations.NoMissForBurstsUpToTheDegree : Prop :=
  ∀ s t : State, s.params.legal → Store.bit s.mem.poly (s.regs.polyLen.toNat - 1) = true →
    s.regs.burstLen.toNat ≤ s.regs.lenCrc.toNat → exec .experiment s = .next t → t.regs.missed = 0

/-- The registers and buffers the outcome of a trial may depend on. -/
def Sys2Proof.Machine.SameTrialInputs (s u : State) : Prop :=
  s.params = u.params ∧ s.mem.msg = u.mem.msg ∧ s.mem.poly = u.mem.poly ∧ s.regs.polyLen = u.regs.polyLen ∧
    s.regs.lenCrc = u.regs.lenCrc ∧ s.regs.msgLen = u.regs.msgLen ∧ s.regs.burstLen = u.regs.burstLen ∧
    s.regs.bpol = u.regs.bpol

/-- Independence of trials. The spec marks it derived: "The outcome of `TrialAt(k)` depends only on MSG, MSG_LEN, POLY, POLY_LEN,
LEN_CRC, BURST_LEN, CTRL.BPOL and `k`. It does not depend on the CW contents an earlier trial left." -/
def Obligations.TrialOutcomeIgnoresTheOldCodeword : Prop :=
  (∀ s u t : State, s.params.legal → SameTrialInputs s u → s.regs.offset = u.regs.offset → exec .trial s = .next t →
    ∃ v, exec .trial u = .next v ∧ v.status.errCode = t.status.errCode ∧
      (t.status.err = false → v.status.clean = t.status.clean ∧ v.regs.cwLen = t.regs.cwLen ∧
        (∀ j, Store.bit v.mem.rem j = Store.bit t.mem.rem j) ∧
        ∀ j, j < t.regs.cwLen.toNat → Store.get v.mem.cw j = Store.get t.mem.cw j)) ∧
  (∀ s u t : State, s.params.legal → SameTrialInputs s u → s.regs.trials = u.regs.trials → exec .experiment s = .next t →
    ∃ v, exec .experiment u = .next v ∧ v.status.errCode = t.status.errCode ∧ v.regs.missed = t.regs.missed ∧
      v.regs.total = t.regs.total ∧ (t.status.err = true → v.regs.failOffset = t.regs.failOffset))

/-! ### All commands -/

/-- The footprint of the commands (20_memory.md, section 3, the table the spec derives): whatever the command, the engine writes
none of POLY, MSG, POLY_LEN, LEN_CRC, MSG_LEN, BURST_LEN, OFFSET, TRIALS, CTRL and OVR; MISSED and TOTAL only in EXPERIMENT;
CW and CW_LEN not in DECODE; REM, CLEAN and CW_LEN not in CORRUPT; CLEAN not in ENCODE; no bit of CW at or above the length
ENCODE writes in ENCODE, TRIAL and EXPERIMENT, in a block with legal parameters; no bit of CW but the burst's in CORRUPT; and
the model's own fields never. -/
def Obligations.CommandsTouchOnlyTheirFootprint : Prop :=
  ∀ (i : Instr) (s t : State), exec i s = .next t →
    t.params = s.params ∧ t.rst = s.rst ∧ t.inputs = s.inputs ∧ t.resp = s.resp ∧ t.draws = s.draws ∧
    t.mem.poly = s.mem.poly ∧ t.mem.msg = s.mem.msg ∧ t.status.ovr = s.status.ovr ∧
    t.regs.polyLen = s.regs.polyLen ∧ t.regs.lenCrc = s.regs.lenCrc ∧ t.regs.msgLen = s.regs.msgLen ∧
    t.regs.burstLen = s.regs.burstLen ∧ t.regs.offset = s.regs.offset ∧ t.regs.trials = s.regs.trials ∧
    t.regs.bpol = s.regs.bpol ∧
    (i ≠ .experiment →
      t.regs.missed = s.regs.missed ∧ t.regs.total = s.regs.total ∧ t.regs.failOffset = s.regs.failOffset) ∧
    (i = .decode → t.mem.cw = s.mem.cw ∧ t.regs.cwLen = s.regs.cwLen) ∧
    (i = .corrupt → t.mem.rem = s.mem.rem ∧ t.regs.cwLen = s.regs.cwLen) ∧
    (i = .encode ∨ i = .corrupt → t.status.clean = s.status.clean) ∧
    (s.params.legal → i = .encode ∨ i = .trial ∨ i = .experiment →
      ∀ j, encodedLen s ≤ j → Store.get t.mem.cw j = Store.get s.mem.cw j) ∧
    (i = .corrupt → ∀ j, burstHits s.params.gen s.regs.offset.toNat s.regs.burstLen.toNat j = false →
      Store.get t.mem.cw j = Store.get s.mem.cw j)

/-- Every command completes in one engine step, with or without an error, or ends in the model fault; none is refused
(70_reset_and_hazards.md, section 3, termination; 60_exceptions.md, section 1). -/
def Obligations.EveryCommandCompletesOrFaults : Prop :=
  ∀ (i : Instr) (s : State),
    (∃ t, exec i s = .next t ∧ t.eng = .idle ∧ t.status.done = true ∧ t.status.errCode ≠ .illegalCmd ∧
      (t.status.err = true ↔ t.status.errCode ≠ .noError)) ∨
    exec i s = .fault .uninit

/-- The model fault comes only from an operand with no value, after every check of that step has passed (20_memory.md,
section 4; 60_exceptions.md, section 2). -/
def Obligations.FaultOnlyOnAnUnsetOperand : Prop :=
  ∀ (i : Instr) (s : State) (f : Fault), s.params.legal → exec i s = .fault f →
    f = .uninit ∧
      ((i = .decode ∧ decodeError s = none ∧ CodewordUnset s) ∨
        ((i = .encode ∨ i = .trial ∨ i = .experiment) ∧ encodeError s = none ∧ MessageUnset s))
end

