-- ==== Sys2Proof/Laws/Kernel.lean ====
section
/-! SUPPORT. The remainder kernel as a total function (40_bitstream.md R139: none of its primitives raises but its first
slice), the length of its result, and its linearity over exclusive-or. -/

namespace Sys2Proof.Machine

/-! ### Exclusive-or of streams of equal length -/

@[simp] theorem xorBits_length (a b : Bits) : (xorBits a b).length = min a.length b.length := by simp [xorBits]

theorem xorBits_getElem? (a b : Bits) (h : a.length = b.length) (i : Nat) :
    (xorBits a b)[i]? = if i < a.length then some (a.getD i false ^^ b.getD i false) else none := by
  by_cases hi : i < a.length
  · rw [if_pos hi, xorBits, List.getElem?_zipWith, List.getElem?_eq_getElem hi,
      List.getElem?_eq_getElem (by omega : i < b.length)]
    simp [List.getD, hi, (by omega : i < b.length)]
  · rw [if_neg hi, List.getElem?_eq_none (by simp [xorBits]; omega)]

theorem getD_of_lt {a : Bits} {i : Nat} (h : i < a.length) : a.getD i false = a[i] := by
  simp [List.getD, List.getElem?_eq_getElem h]

/-- Two streams of the same length with the same bits are equal. -/
theorem bits_ext {a b : Bits} (h : a.length = b.length) (hb : ∀ i, i < a.length → a.getD i false = b.getD i false) : a = b := by
  refine List.ext_getElem h fun i h1 h2 => ?_
  have := hb i h1
  rwa [getD_of_lt h1, getD_of_lt h2] at this

theorem xorBits_getD (a b : Bits) (h : a.length = b.length) (i : Nat) :
    (xorBits a b).getD i false = (a.getD i false ^^ b.getD i false) := by
  by_cases hi : i < a.length
  · simp only [List.getD, xorBits_getElem? a b h, if_pos hi, Option.getD_some]
  · simp only [List.getD]
    rw [xorBits_getElem? a b h, if_neg hi, List.getElem?_eq_none (by omega), List.getElem?_eq_none (by omega)]
    rfl

@[simp] theorem zeros_length (n : Nat) : (zeros n).length = n := by simp [zeros]

theorem zeros_getD (n i : Nat) : (zeros n).getD i false = false := by
  simp only [zeros, List.getD, List.getElem?_replicate]; split <;> rfl

theorem xorBits_self (a : Bits) : xorBits a a = zeros a.length := by
  refine bits_ext (by simp [zeros]) fun i hi => ?_
  rw [xorBits_getD a a rfl, zeros_getD, Bool.xor_self]

theorem xorBits_zeros (a : Bits) (n : Nat) (h : a.length = n) : xorBits a (zeros n) = a := by
  refine bits_ext (by simp [zeros, h]) fun i hi => ?_
  rw [xorBits_getD a _ (by simp [h]), zeros_getD, Bool.xor_false]

theorem xorBits_comm (a b : Bits) : xorBits a b = xorBits b a := by
  unfold xorBits
  rw [List.zipWith_comm]
  simp only [Bool.xor_comm]

theorem xorBits_xor_xor (a b c d : Bits) (h1 : a.length = b.length) (h2 : c.length = d.length) (h3 : a.length = c.length) :
    xorBits (xorBits a b) (xorBits c d) = xorBits (xorBits a c) (xorBits b d) := by
  refine bits_ext (by simp; omega) fun i hi => ?_
  rw [xorBits_getD (xorBits a b) (xorBits c d) (by simp; omega), xorBits_getD (xorBits a c) (xorBits b d) (by simp; omega),
    xorBits_getD a b h1, xorBits_getD c d h2, xorBits_getD a c h3, xorBits_getD b d (by omega)]
  cases a.getD i false <;> cases b.getD i false <;> cases c.getD i false <;> cases d.getD i false <;> rfl

theorem xorBits_cancel (a b : Bits) (h : a.length = b.length) : xorBits (xorBits a b) b = a := by
  refine bits_ext (by simp; omega) fun i hi => ?_
  rw [xorBits_getD _ _ (by simp; omega), xorBits_getD _ _ h]
  cases a.getD i false <;> cases b.getD i false <;> rfl

theorem xorBits_append (a b c d : Bits) (h : a.length = c.length) :
    xorBits (a ++ b) (c ++ d) = xorBits a c ++ xorBits b d := by
  unfold xorBits; rw [List.zipWith_append h]

theorem xorBits_drop (a b : Bits) (n : Nat) : (xorBits a b).drop n = xorBits (a.drop n) (b.drop n) := by
  unfold xorBits; rw [List.drop_zipWith]

theorem xorBits_take (a b : Bits) (n : Nat) : (xorBits a b).take n = xorBits (a.take n) (b.take n) := by
  unfold xorBits; rw [List.take_zipWith]

theorem headD_eq_getD (a : Bits) : a.headD false = a.getD 0 false := by cases a <;> rfl

theorem xorBits_headD (a b : Bits) (h : a.length = b.length) : (xorBits a b).headD false = (a.headD false ^^ b.headD false) := by
  simp only [headD_eq_getD, xorBits_getD a b h]

theorem zeros_append (m n : Nat) : zeros (m + n) = zeros m ++ zeros n := by simp [zeros]

@[simp] theorem byteBits_length (b : Byte) : (byteBits b).length = 8 := by simp [byteBits]

@[simp] theorem fromBytes_length (bs : List Byte) : (fromBytes bs).length = 8 * bs.length := by
  induction bs with
  | nil => rfl
  | cons b bs ih => simp only [fromBytes, List.flatMap_cons, List.length_append, byteBits_length, List.length_cons] at *; omega

/-! ### The kernel as a total function -/

/-- Step 2a where the lengths agree. -/
def reduceBits (d rem : Bits) : Bits := if rem.headD false = true then xorBits rem d else rem

/-- The loop where the lengths agree. -/
def divideBits (d : Bits) : (rem rest : Bits) → Bits
  | rem, [] => reduceBits d rem
  | rem, b :: rest => divideBits d (bringDown (reduceBits d rem) b) rest

/-- The remainder of a dividend at least as long as the divisor. -/
def remainderBits (dividend d : Bits) : Bits :=
  (divideBits d (dividend.take d.length) (dividend.drop d.length)).drop 1

theorem reduceOnce_ok {d rem : Bits} (h : rem.length = d.length) : reduceOnce d rem = .ok (reduceBits d rem) := by
  simp only [reduceOnce, reduceBits, xorInPlace]
  split <;> simp [h]

theorem reduceBits_length {d rem : Bits} (h : rem.length = d.length) : (reduceBits d rem).length = d.length := by
  simp only [reduceBits]; split <;> simp [h]

theorem bringDown_eq (rem : Bits) (b : Bool) : bringDown rem b = rem.drop 1 ++ [b] := by
  simp only [bringDown, shiftLeftOne]
  rw [List.set_append]
  simp only [List.length_drop, Nat.sub_self]
  rw [if_neg (by omega)]
  cases h : rem.length <;> simp

theorem bringDown_length {rem : Bits} (b : Bool) (h : 1 ≤ rem.length) : (bringDown rem b).length = rem.length := by
  rw [bringDown_eq]; simp; omega

theorem divideLoop_ok {d : Bits} (hd : 1 ≤ d.length) (rest : Bits) {rem : Bits} (h : rem.length = d.length) :
    divideLoop d rem rest = .ok (divideBits d rem rest) := by
  induction rest generalizing rem with
  | nil => exact reduceOnce_ok h
  | cons b rest ih =>
    simp only [divideLoop, divideBits, reduceOnce_ok h, Result.andThen]
    have hl := reduceBits_length h
    exact ih (by rw [bringDown_length b (by omega), hl])

theorem divideBits_length {d : Bits} (hd : 1 ≤ d.length) (rest : Bits) {rem : Bits} (h : rem.length = d.length) :
    (divideBits d rem rest).length = d.length := by
  induction rest generalizing rem with
  | nil => exact reduceBits_length h
  | cons b rest ih =>
    have hl := reduceBits_length h
    exact ih (by rw [bringDown_length b (by omega), hl])

/-- The kernel raises nothing where the dividend is at least as long as a non-empty divisor. -/
theorem computeRemainder_ok {dividend d : Bits} (hd : 1 ≤ d.length) (hL : d.length ≤ dividend.length) :
    computeRemainder dividend d = .ok (remainderBits dividend d) := by
  have h1 : (dividend.take d.length).length = d.length := by simp [hL]
  simp only [computeRemainder, slice]
  rw [if_neg (by omega)]
  simp only [List.drop_zero, Nat.sub_zero, Result.andThen]
  rw [divideLoop_ok hd _ h1]
  simp only
  rw [divideBits_length hd _ h1, if_neg (by omega)]
  have h2 := divideBits_length hd (dividend.drop d.length) h1
  rw [List.take_of_length_le (by rw [List.length_drop, h2])]
  rfl

/-- The kernel's first slice raises RANGE where the dividend is shorter than the divisor (40_bitstream.md R139). -/
theorem computeRemainder_short {dividend d : Bits} (hL : dividend.length < d.length) :
    computeRemainder dividend d = .raise .range := by
  simp only [computeRemainder, slice]
  rw [if_pos (by omega)]
  rfl

theorem remainderBits_length {dividend d : Bits} (hd : 1 ≤ d.length) (hL : d.length ≤ dividend.length) :
    (remainderBits dividend d).length = d.length - 1 := by
  have h1 : (dividend.take d.length).length = d.length := by simp [hL]
  rw [remainderBits, List.length_drop, divideBits_length hd _ h1]

/-! ### Linearity -/

theorem reduceBits_xor {d a b : Bits} (ha : a.length = d.length) (hb : b.length = d.length) :
    reduceBits d (xorBits a b) = xorBits (reduceBits d a) (reduceBits d b) := by
  simp only [reduceBits]
  rw [xorBits_headD a b (by omega)]
  cases hA : a.headD false <;> cases hB : b.headD false
  · simp
  · simp only [Bool.false_xor, if_true, Bool.false_eq_true, if_false]
    refine bits_ext (by simp) fun i _ => ?_
    rw [xorBits_getD _ _ (by simp; omega), xorBits_getD _ _ (by omega), xorBits_getD _ _ (by simp; omega),
      xorBits_getD _ _ (by omega)]
    cases a.getD i false <;> cases b.getD i false <;> cases d.getD i false <;> rfl
  · simp only [Bool.xor_false, if_true, Bool.false_eq_true, if_false]
    refine bits_ext (by simp; omega) fun i _ => ?_
    rw [xorBits_getD _ _ (by simp; omega), xorBits_getD _ _ (by omega), xorBits_getD _ _ (by simp; omega),
      xorBits_getD _ _ (by omega)]
    cases a.getD i false <;> cases b.getD i false <;> cases d.getD i false <;> rfl
  · simp only [Bool.xor_self, Bool.false_eq_true, if_false, if_true]
    refine bits_ext (by simp; omega) fun i _ => ?_
    rw [xorBits_getD _ _ (by omega), xorBits_getD _ _ (by simp; omega), xorBits_getD _ _ (by omega),
      xorBits_getD _ _ (by omega)]
    cases a.getD i false <;> cases b.getD i false <;> cases d.getD i false <;> rfl

theorem bringDown_xor {a b : Bits} (x y : Bool) (h : a.length = b.length) :
    bringDown (xorBits a b) (x ^^ y) = xorBits (bringDown a x) (bringDown b y) := by
  rw [bringDown_eq, bringDown_eq, bringDown_eq, xorBits_append _ _ _ _ (by simp; omega), xorBits_drop]
  rfl

theorem divideBits_xor {d : Bits} (h1 : 1 ≤ d.length) (p q : Bits) (hpq : p.length = q.length)
    {a b : Bits} (ha : a.length = d.length) (hb : b.length = d.length) :
    divideBits d (xorBits a b) (xorBits p q) = xorBits (divideBits d a p) (divideBits d b q) := by
  induction p generalizing q a b with
  | nil =>
    cases q with
    | nil => exact reduceBits_xor ha hb
    | cons y q => cases hpq
  | cons x p ih =>
    cases q with
    | nil => cases hpq
    | cons y q =>
      have la := reduceBits_length ha
      have lb := reduceBits_length hb
      show divideBits d (bringDown (reduceBits d (xorBits a b)) (x ^^ y)) (xorBits p q) = _
      rw [reduceBits_xor ha hb, bringDown_xor x y (by omega)]
      exact ih q (by simpa using hpq) (by rw [bringDown_length x (by omega), la]) (by rw [bringDown_length y (by omega), lb])

/-- The remainder is linear in the dividend (41_crc_engine.md, section 1). -/
theorem remainderBits_xor {d A B : Bits} (h1 : 1 ≤ d.length) (hAB : A.length = B.length)
    (hL : d.length ≤ A.length) : remainderBits (xorBits A B) d = xorBits (remainderBits A d) (remainderBits B d) := by
  simp only [remainderBits]
  rw [xorBits_take, xorBits_drop, divideBits_xor h1 _ _ (by simp; omega) (by simp; omega) (by simp; omega), xorBits_drop]

/-- A dividend of zeros followed by fewer bits than the divisor has is its own remainder. -/
theorem divideBits_small {d : Bits} (t rest : Bits) {n : Nat} (hn : n + t.length = d.length)
    (ht : t.length + rest.length < d.length) :
    divideBits d (zeros n ++ t) rest = zeros (n - rest.length) ++ t ++ rest := by
  induction rest generalizing t n with
  | nil =>
    simp only [divideBits, reduceBits]
    rw [if_neg]
    · simp
    · match n, (by simp at ht; omega : 1 ≤ n) with
      | n + 1, _ => simp [zeros, List.replicate_succ]
  | cons b rest ih =>
    simp only [List.length_cons] at *
    match n, (by omega : 1 ≤ n) with
    | n + 1, _ =>
      have hr : reduceBits d (zeros (n + 1) ++ t) = zeros (n + 1) ++ t := by
        simp only [reduceBits]
        rw [if_neg (by simp [zeros, List.replicate_succ])]
      have hz : zeros (n + 1) ++ t = false :: (zeros n ++ t) := by simp [zeros, List.replicate_succ]
      show divideBits d (bringDown (reduceBits d (zeros (n + 1) ++ t)) b) rest = _
      rw [hr, bringDown_eq, hz, List.drop_one, List.tail_cons, List.append_assoc,
        ih (t ++ [b]) (by simp; omega) (by simp; omega)]
      simp

/-- Zeros divide to the zero remainder before any bit is brought in, so leading zeros can be cut. -/
theorem divideBits_zeros {d : Bits} (h1 : 1 ≤ d.length) (k : Nat) (rest : Bits) :
    divideBits d (zeros d.length) (zeros k ++ rest) = divideBits d (zeros d.length) rest := by
  induction k with
  | zero => simp [zeros]
  | succ k ih =>
    rw [show zeros (k + 1) ++ rest = false :: (zeros k ++ rest) by simp [zeros, List.replicate_succ], divideBits]
    have hr : bringDown (reduceBits d (zeros d.length)) false = zeros d.length := by
      have h0 : ¬ (zeros d.length).headD false = true := by rw [headD_eq_getD, zeros_getD]; simp
      simp only [reduceBits]
      rw [if_neg h0, bringDown_eq]
      obtain ⟨m, hm⟩ : ∃ m, d.length = m + 1 := ⟨d.length - 1, by omega⟩
      rw [hm, show ([false] : Bits) = zeros 1 from rfl, show zeros (m + 1) = zeros 1 ++ zeros m by rw [← zeros_append]; congr 1; omega]
      simp only [zeros, List.replicate_one, List.cons_append, List.nil_append, List.drop_one, List.tail_cons]
      rw [show [false] = List.replicate 1 false from rfl, List.replicate_append_replicate, ← List.replicate_succ]
    rw [hr, ih]

/-- A message of zeros followed by `R`, shorter than the divisor, leaves `R` as its remainder. -/
theorem remainderBits_zeros_append {d R : Bits} (n : Nat) (h1 : 1 ≤ d.length) (hR : R.length = d.length - 1) (hn : 1 ≤ n) :
    remainderBits (zeros n ++ R) d = R := by
  simp only [remainderBits]
  by_cases hnd : n ≤ d.length
  · rw [List.take_append, List.drop_append]
    simp only [zeros_length]
    have e1 : (zeros n).take d.length = zeros n := List.take_of_length_le (by simpa using hnd)
    have e2 : (zeros n).drop d.length = [] := List.drop_eq_nil_of_le (by simpa using hnd)
    rw [e1, e2, List.nil_append]
    rw [divideBits_small (R.take (d.length - n)) (R.drop (d.length - n)) (by simp; omega) (by simp; omega),
      List.append_assoc, List.take_append_drop]
    simp only [List.length_drop]
    rw [show n - (R.length - (d.length - n)) = 1 by omega]
    rfl
  · rw [show zeros n = zeros d.length ++ zeros (n - d.length) by rw [← zeros_append]; congr 1; omega, List.append_assoc,
      List.take_left' (zeros_length _), List.drop_left' (zeros_length _), divideBits_zeros h1]
    have := divideBits_small (d := d) [] R (n := d.length) (by simp) (by simp; omega)
    rw [List.append_nil] at this
    rw [this, hR, show d.length - (d.length - 1) = 1 by omega, List.append_nil]
    rfl

/-- Appending the remainder in place of the padding zeros gives a dividend with remainder zero. -/
theorem remainderBits_codeword {d m : Bits} (h1 : 1 ≤ d.length) (hm : 1 ≤ m.length) :
    remainderBits (m ++ remainderBits (m ++ zeros (d.length - 1)) d) d = zeros (d.length - 1) := by
  set r := d.length - 1 with hr
  have hL : d.length ≤ (m ++ zeros r).length := by simp; omega
  have lR := remainderBits_length h1 hL
  set R := remainderBits (m ++ zeros r) d with hRdef
  have e : m ++ R = xorBits (m ++ zeros r) (zeros m.length ++ R) := by
    rw [xorBits_append _ _ _ _ (by simp), xorBits_zeros m _ rfl, xorBits_comm, xorBits_zeros R r (by omega)]
  rw [e, remainderBits_xor h1 (by simp; omega) hL, ← hRdef, remainderBits_zeros_append _ h1 lR hm, xorBits_self, lR]

end Sys2Proof.Machine
end

