-- ==== Sys2Proof/Laws/State.lean ====
section
/-! SUPPORT. One lemma per field per update of State, true by rfl, so that no proof unfolds a record update. -/

namespace Sys2Proof.Machine

variable (s : State)

@[simp] theorem State.setRem_params (r : Bits) : (s.setRem r).params = s.params := rfl
@[simp] theorem State.setRem_rst (r : Bits) : (s.setRem r).rst = s.rst := rfl
@[simp] theorem State.setRem_eng (r : Bits) : (s.setRem r).eng = s.eng := rfl
@[simp] theorem State.setRem_status (r : Bits) : (s.setRem r).status = s.status := rfl
@[simp] theorem State.setRem_regs (r : Bits) : (s.setRem r).regs = s.regs := rfl
@[simp] theorem State.setRem_mem (r : Bits) : (s.setRem r).mem = { s.mem with rem := Store.dropZeros (Store.numbered 0 r) } := rfl
@[simp] theorem State.setRem_inputs (r : Bits) : (s.setRem r).inputs = s.inputs := rfl
@[simp] theorem State.setRem_resp (r : Bits) : (s.setRem r).resp = s.resp := rfl
@[simp] theorem State.setRem_draws (r : Bits) : (s.setRem r).draws = s.draws := rfl

@[simp] theorem State.setCodeword_params (c : Bits) : (s.setCodeword c).params = s.params := rfl
@[simp] theorem State.setCodeword_rst (c : Bits) : (s.setCodeword c).rst = s.rst := rfl
@[simp] theorem State.setCodeword_eng (c : Bits) : (s.setCodeword c).eng = s.eng := rfl
@[simp] theorem State.setCodeword_status (c : Bits) : (s.setCodeword c).status = s.status := rfl
@[simp] theorem State.setCodeword_regs (c : Bits) : (s.setCodeword c).regs = { s.regs with cwLen := BitVec.ofNat 32 c.length } := rfl
@[simp] theorem State.setCodeword_mem (c : Bits) : (s.setCodeword c).mem = { s.mem with cw := Store.write s.mem.cw 0 c } := rfl
@[simp] theorem State.setCodeword_inputs (c : Bits) : (s.setCodeword c).inputs = s.inputs := rfl
@[simp] theorem State.setCodeword_resp (c : Bits) : (s.setCodeword c).resp = s.resp := rfl
@[simp] theorem State.setCodeword_draws (c : Bits) : (s.setCodeword c).draws = s.draws := rfl

@[simp] theorem State.flipCw_params (f : Nat → Bool) : (s.flipCw f).params = s.params := rfl
@[simp] theorem State.flipCw_rst (f : Nat → Bool) : (s.flipCw f).rst = s.rst := rfl
@[simp] theorem State.flipCw_eng (f : Nat → Bool) : (s.flipCw f).eng = s.eng := rfl
@[simp] theorem State.flipCw_status (f : Nat → Bool) : (s.flipCw f).status = s.status := rfl
@[simp] theorem State.flipCw_regs (f : Nat → Bool) : (s.flipCw f).regs = s.regs := rfl
@[simp] theorem State.flipCw_mem (f : Nat → Bool) : (s.flipCw f).mem = { s.mem with cw := Store.flipWhere s.mem.cw f } := rfl
@[simp] theorem State.flipCw_inputs (f : Nat → Bool) : (s.flipCw f).inputs = s.inputs := rfl
@[simp] theorem State.flipCw_resp (f : Nat → Bool) : (s.flipCw f).resp = s.resp := rfl
@[simp] theorem State.flipCw_draws (f : Nat → Bool) : (s.flipCw f).draws = s.draws := rfl

@[simp] theorem State.setClean_params (b : Bool) : (s.setClean b).params = s.params := rfl
@[simp] theorem State.setClean_rst (b : Bool) : (s.setClean b).rst = s.rst := rfl
@[simp] theorem State.setClean_eng (b : Bool) : (s.setClean b).eng = s.eng := rfl
@[simp] theorem State.setClean_status (b : Bool) : (s.setClean b).status = { s.status with clean := b } := rfl
@[simp] theorem State.setClean_regs (b : Bool) : (s.setClean b).regs = s.regs := rfl
@[simp] theorem State.setClean_mem (b : Bool) : (s.setClean b).mem = s.mem := rfl
@[simp] theorem State.setClean_inputs (b : Bool) : (s.setClean b).inputs = s.inputs := rfl
@[simp] theorem State.setClean_resp (b : Bool) : (s.setClean b).resp = s.resp := rfl
@[simp] theorem State.setClean_draws (b : Bool) : (s.setClean b).draws = s.draws := rfl

@[simp] theorem State.setSweep_params (m n : Nat) : (s.setSweep m n).params = s.params := rfl
@[simp] theorem State.setSweep_rst (m n : Nat) : (s.setSweep m n).rst = s.rst := rfl
@[simp] theorem State.setSweep_eng (m n : Nat) : (s.setSweep m n).eng = s.eng := rfl
@[simp] theorem State.setSweep_status (m n : Nat) : (s.setSweep m n).status = s.status := rfl
@[simp] theorem State.setSweep_regs (m n : Nat) : (s.setSweep m n).regs = { s.regs with missed := BitVec.ofNat 32 m, total := BitVec.ofNat 32 n } := rfl
@[simp] theorem State.setSweep_mem (m n : Nat) : (s.setSweep m n).mem = s.mem := rfl
@[simp] theorem State.setSweep_inputs (m n : Nat) : (s.setSweep m n).inputs = s.inputs := rfl
@[simp] theorem State.setSweep_resp (m n : Nat) : (s.setSweep m n).resp = s.resp := rfl
@[simp] theorem State.setSweep_draws (m n : Nat) : (s.setSweep m n).draws = s.draws := rfl

@[simp] theorem State.setSweepFailed_params (k : Nat) : (s.setSweepFailed k).params = s.params := rfl
@[simp] theorem State.setSweepFailed_rst (k : Nat) : (s.setSweepFailed k).rst = s.rst := rfl
@[simp] theorem State.setSweepFailed_eng (k : Nat) : (s.setSweepFailed k).eng = s.eng := rfl
@[simp] theorem State.setSweepFailed_status (k : Nat) : (s.setSweepFailed k).status = s.status := rfl
@[simp] theorem State.setSweepFailed_regs (k : Nat) : (s.setSweepFailed k).regs = { s.regs with missed := 0, total := 0, failOffset := BitVec.ofNat 32 k } := rfl
@[simp] theorem State.setSweepFailed_mem (k : Nat) : (s.setSweepFailed k).mem = s.mem := rfl
@[simp] theorem State.setSweepFailed_inputs (k : Nat) : (s.setSweepFailed k).inputs = s.inputs := rfl
@[simp] theorem State.setSweepFailed_resp (k : Nat) : (s.setSweepFailed k).resp = s.resp := rfl
@[simp] theorem State.setSweepFailed_draws (k : Nat) : (s.setSweepFailed k).draws = s.draws := rfl

@[simp] theorem State.issue_params (w : Word) : (s.issue w).params = s.params := rfl
@[simp] theorem State.issue_rst (w : Word) : (s.issue w).rst = s.rst := rfl
@[simp] theorem State.issue_eng (w : Word) : (s.issue w).eng = .busy w := rfl
@[simp] theorem State.issue_status (w : Word) : (s.issue w).status = { s.status with done := false, err := false, errCode := .noError } := rfl
@[simp] theorem State.issue_regs (w : Word) : (s.issue w).regs = { s.regs with failOffset := 0 } := rfl
@[simp] theorem State.issue_mem (w : Word) : (s.issue w).mem = s.mem := rfl
@[simp] theorem State.issue_inputs (w : Word) : (s.issue w).inputs = s.inputs := rfl
@[simp] theorem State.issue_resp (w : Word) : (s.issue w).resp = s.resp := rfl
@[simp] theorem State.issue_draws (w : Word) : (s.issue w).draws = s.draws := rfl

@[simp] theorem State.completeOk_params : (s.completeOk).params = s.params := rfl
@[simp] theorem State.completeOk_rst : (s.completeOk).rst = s.rst := rfl
@[simp] theorem State.completeOk_eng : (s.completeOk).eng = .idle := rfl
@[simp] theorem State.completeOk_status : (s.completeOk).status = { s.status with done := true, err := false, errCode := .noError } := rfl
@[simp] theorem State.completeOk_regs : (s.completeOk).regs = s.regs := rfl
@[simp] theorem State.completeOk_mem : (s.completeOk).mem = s.mem := rfl
@[simp] theorem State.completeOk_inputs : (s.completeOk).inputs = s.inputs := rfl
@[simp] theorem State.completeOk_resp : (s.completeOk).resp = s.resp := rfl
@[simp] theorem State.completeOk_draws : (s.completeOk).draws = s.draws := rfl

@[simp] theorem State.completeError_params (e : ErrCode) : (s.completeError e).params = s.params := rfl
@[simp] theorem State.completeError_rst (e : ErrCode) : (s.completeError e).rst = s.rst := rfl
@[simp] theorem State.completeError_eng (e : ErrCode) : (s.completeError e).eng = .idle := rfl
@[simp] theorem State.completeError_status (e : ErrCode) : (s.completeError e).status = { s.status with done := true, err := true, errCode := e } := rfl
@[simp] theorem State.completeError_regs (e : ErrCode) : (s.completeError e).regs = s.regs := rfl
@[simp] theorem State.completeError_mem (e : ErrCode) : (s.completeError e).mem = s.mem := rfl
@[simp] theorem State.completeError_inputs (e : ErrCode) : (s.completeError e).inputs = s.inputs := rfl
@[simp] theorem State.completeError_resp (e : ErrCode) : (s.completeError e).resp = s.resp := rfl
@[simp] theorem State.completeError_draws (e : ErrCode) : (s.completeError e).draws = s.draws := rfl

@[simp] theorem State.setOvr_params : (s.setOvr).params = s.params := rfl
@[simp] theorem State.setOvr_rst : (s.setOvr).rst = s.rst := rfl
@[simp] theorem State.setOvr_eng : (s.setOvr).eng = s.eng := rfl
@[simp] theorem State.setOvr_status : (s.setOvr).status = { s.status with ovr := true } := rfl
@[simp] theorem State.setOvr_regs : (s.setOvr).regs = s.regs := rfl
@[simp] theorem State.setOvr_mem : (s.setOvr).mem = s.mem := rfl
@[simp] theorem State.setOvr_inputs : (s.setOvr).inputs = s.inputs := rfl
@[simp] theorem State.setOvr_resp : (s.setOvr).resp = s.resp := rfl
@[simp] theorem State.setOvr_draws : (s.setOvr).draws = s.draws := rfl

@[simp] theorem State.respond_params (r : Response) : (s.respond r).params = s.params := rfl
@[simp] theorem State.respond_rst (r : Response) : (s.respond r).rst = s.rst := rfl
@[simp] theorem State.respond_eng (r : Response) : (s.respond r).eng = s.eng := rfl
@[simp] theorem State.respond_status (r : Response) : (s.respond r).status = s.status := rfl
@[simp] theorem State.respond_regs (r : Response) : (s.respond r).regs = s.regs := rfl
@[simp] theorem State.respond_mem (r : Response) : (s.respond r).mem = s.mem := rfl
@[simp] theorem State.respond_inputs (r : Response) : (s.respond r).inputs = s.inputs := rfl
@[simp] theorem State.respond_resp (r : Response) : (s.respond r).resp = some r := rfl
@[simp] theorem State.respond_draws (r : Response) : (s.respond r).draws = s.draws := rfl

@[simp] theorem State.tickDraw_params : (s.tickDraw).params = s.params := rfl
@[simp] theorem State.tickDraw_rst : (s.tickDraw).rst = s.rst := rfl
@[simp] theorem State.tickDraw_eng : (s.tickDraw).eng = s.eng := rfl
@[simp] theorem State.tickDraw_status : (s.tickDraw).status = s.status := rfl
@[simp] theorem State.tickDraw_regs : (s.tickDraw).regs = s.regs := rfl
@[simp] theorem State.tickDraw_mem : (s.tickDraw).mem = s.mem := rfl
@[simp] theorem State.tickDraw_inputs : (s.tickDraw).inputs = s.inputs := rfl
@[simp] theorem State.tickDraw_resp : (s.tickDraw).resp = s.resp := rfl
@[simp] theorem State.tickDraw_draws : (s.tickDraw).draws = s.draws + 1 := rfl

@[simp] theorem placeCommand_eng (w : Word) : (placeCommand s w).eng = .busy w := rfl
@[simp] theorem placeCommand_rst (w : Word) : (placeCommand s w).rst = false := rfl
@[simp] theorem placeCommand_inputs (w : Word) : (placeCommand s w).inputs = .engine :: s.inputs := rfl
@[simp] theorem placeCommand_mem (w : Word) : (placeCommand s w).mem = s.mem := rfl
@[simp] theorem placeCommand_params (w : Word) : (placeCommand s w).params = s.params := rfl

@[simp] theorem resetWith_params (p : Params) : (State.resetWith p).params = p := rfl
@[simp] theorem resetWith_rst (p : Params) : (State.resetWith p).rst = false := rfl
@[simp] theorem resetWith_eng (p : Params) : (State.resetWith p).eng = .idle := rfl
@[simp] theorem resetWith_status (p : Params) : (State.resetWith p).status = .reset := rfl
@[simp] theorem resetWith_regs (p : Params) : (State.resetWith p).regs = .reset := rfl
@[simp] theorem resetWith_mem (p : Params) : (State.resetWith p).mem = .reset := rfl
@[simp] theorem resetWith_inputs (p : Params) : (State.resetWith p).inputs = [] := rfl

end Sys2Proof.Machine
end

