-- ==== Sys2Proof/Laws/Store.lean ====
section
/-! SUPPORT. What reading a cell gives after each store operation, and that each operation keeps the canonical form. -/

namespace Sys2Proof.Machine

variable {β : Type}

theorem Store.get_append (a b : Store β) (i : Nat) :
    Store.get (a ++ b) i = (Store.get a i).or (Store.get b i) := by
  induction a with
  | nil => rfl
  | cons c a ih =>
    simp only [List.cons_append, Store.get]
    split <;> simp [ih]

theorem Store.get_filter (p : Nat → Bool) (m : Store β) (i : Nat) :
    Store.get (m.filter fun c => p c.1) i = if p i then Store.get m i else none := by
  induction m with
  | nil => simp [Store.get]
  | cons c m ih =>
    by_cases hc : p c.1 <;> by_cases hi : c.1 = i <;> simp_all [Store.get]

theorem Store.get_numbered (lo : Nat) (vs : List β) (i : Nat) :
    Store.get (Store.numbered lo vs) i = if lo ≤ i then vs[i - lo]? else none := by
  induction vs generalizing lo with
  | nil => simp [Store.numbered, Store.get]
  | cons v vs ih =>
    simp only [Store.numbered, Store.get, ih]
    rcases Nat.lt_trichotomy lo i with h | h | h
    · rw [if_neg (by omega), if_pos (by omega), if_pos (by omega), show i - lo = (i - (lo + 1)) + 1 by omega]
      simp
    · subst h; simp
    · rw [if_neg (by omega), if_neg (by omega), if_neg (by omega)]

/-- Read after write: inside the range written the new cell, elsewhere the old one. -/
theorem Store.get_write (m : Store β) (lo : Nat) (vs : List β) (i : Nat) :
    Store.get (Store.write m lo vs) i = if lo ≤ i ∧ i < lo + vs.length then vs[i - lo]? else Store.get m i := by
  have h1 := Store.get_filter (fun k => decide (k < lo)) m i
  have h2 := Store.get_filter (fun k => decide (lo + vs.length ≤ k)) m i
  simp only [Store.write, Store.get_append, Store.get_numbered]
  rw [h1, h2]
  by_cases ha : i < lo
  · rw [if_pos (by simpa using ha), if_neg (by omega), if_neg (by simp; omega), if_neg (by omega)]
    simp
  · rw [if_neg (by simpa using ha), if_pos (by omega)]
    by_cases hb : i < lo + vs.length
    · rw [if_neg (by simp; omega), if_pos (by omega)]; simp
    · rw [if_pos (by simp; omega), if_neg (by omega), List.getElem?_eq_none (by omega)]; simp

theorem Store.get_flipWhere (m : Store Bool) (f : Nat → Bool) (i : Nat) :
    Store.get (Store.flipWhere m f) i = (Store.get m i).map fun b => if f i then !b else b := by
  induction m with
  | nil => rfl
  | cons c m ih =>
    simp only [Store.flipWhere, List.map_cons, Store.get] at *
    split
    · rename_i h; subst h; simp
    · exact ih

theorem Store.readAll_eq_some (m : Store β) (lo n : Nat) (vs : List β) :
    Store.readAll m lo n = some vs ↔ vs.length = n ∧ ∀ i, i < n → Store.get m (lo + i) = vs[i]? := by
  induction n generalizing lo vs with
  | zero =>
    simp only [Store.readAll, Option.some.injEq]
    constructor
    · rintro rfl; simp
    · rintro ⟨h, -⟩; exact (List.eq_nil_of_length_eq_zero h).symm
  | succ n ih =>
    simp only [Store.readAll]
    constructor
    · intro h
      split at h
      · rename_i v ws hv hws
        obtain ⟨hl, hg⟩ := (ih _ _).1 hws
        simp only [Option.some.injEq] at h
        subst h
        refine ⟨by simp [hl], fun i hi => ?_⟩
        cases i with
        | zero => simpa using hv
        | succ i => simpa [Nat.add_assoc, Nat.add_comm 1] using hg i (by omega)
      · cases h
    · rintro ⟨hl, hg⟩
      match vs, hl with
      | v :: vs, hl =>
        have hv : Store.get m lo = some v := by simpa using hg 0 (by omega)
        have hvs : Store.readAll m (lo + 1) n = some vs :=
          (ih _ _).2 ⟨by simpa using hl, fun i hi => by
            have := hg (i + 1) (by omega)
            simpa [Nat.add_assoc, Nat.add_comm 1] using this⟩
        rw [hv, hvs]

/-- A read of cells that each hold a value gives them all. -/
theorem Store.readAll_isSome (m : Store β) (lo n : Nat) (h : ∀ i, i < n → (Store.get m (lo + i)).isSome) :
    (Store.readAll m lo n).isSome := by
  induction n generalizing lo with
  | zero => rfl
  | succ n ih =>
    have h0 := h 0 (by omega)
    have hn := ih (lo + 1) fun i hi => by
      have := h (i + 1) (by omega)
      simpa [Nat.add_assoc, Nat.add_comm 1] using this
    rw [Option.isSome_iff_exists] at *
    obtain ⟨v, hv⟩ := h0
    obtain ⟨vs, hvs⟩ := hn
    exact ⟨v :: vs, by simp only [Nat.add_zero] at hv; simp [Store.readAll, hv, hvs]⟩

/-! ### The canonical form -/

theorem Store.rising_mono {lo lo' : Nat} {m : Store β} (hl : lo' ≤ lo) (h : Store.rising lo m = true) :
    Store.rising lo' m = true := by
  cases m with
  | nil => rfl
  | cons c m =>
    simp only [Store.rising, Bool.and_eq_true, decide_eq_true_eq] at *
    exact ⟨by omega, h.2⟩

theorem Store.rising_le {lo : Nat} {m : Store β} (h : Store.rising lo m = true) {c : Nat × β} (hc : c ∈ m) : lo ≤ c.1 := by
  induction m generalizing lo with
  | nil => cases hc
  | cons d m ih =>
    simp only [Store.rising, Bool.and_eq_true, decide_eq_true_eq] at h
    rcases List.mem_cons.1 hc with rfl | hc
    · exact h.1
    · have := ih h.2 hc; omega

theorem Store.rising_filter {lo : Nat} {m : Store β} (p : Nat × β → Bool) (h : Store.rising lo m = true) :
    Store.rising lo (m.filter p) = true := by
  induction m generalizing lo with
  | nil => rfl
  | cons c m ih =>
    simp only [Store.rising, Bool.and_eq_true, decide_eq_true_eq] at h
    rw [List.filter_cons]
    split
    · simp only [Store.rising, Bool.and_eq_true, decide_eq_true_eq]
      exact ⟨h.1, ih h.2⟩
    · exact Store.rising_mono (by omega) (ih h.2)

/-- Two rising stores, the second wholly at or above `mid` and the first below it, give a rising store. -/
theorem Store.rising_append {lo mid : Nat} {a b : Store β} (ha : Store.rising lo a = true)
    (hlt : ∀ c ∈ a, c.1 < mid) (hb : Store.rising mid b = true) (hm : lo ≤ mid) : Store.rising lo (a ++ b) = true := by
  induction a generalizing lo with
  | nil => exact Store.rising_mono hm hb
  | cons c a ih =>
    simp only [Store.rising, List.cons_append, Bool.and_eq_true, decide_eq_true_eq] at *
    exact ⟨ha.1, ih ha.2 (fun d hd => hlt d (List.mem_cons_of_mem _ hd)) (by have := hlt c List.mem_cons_self; omega)⟩

theorem Store.rising_numbered (lo : Nat) (vs : List β) : Store.rising lo (Store.numbered lo vs) = true := by
  induction vs generalizing lo with
  | nil => rfl
  | cons v vs ih => simp [Store.numbered, Store.rising, ih]

theorem Store.mem_numbered {lo : Nat} {vs : List β} {c : Nat × β} (h : c ∈ Store.numbered lo vs) :
    lo ≤ c.1 ∧ c.1 < lo + vs.length := by
  induction vs generalizing lo with
  | nil => cases h
  | cons v vs ih =>
    rcases List.mem_cons.1 h with rfl | h
    · simp
    · have := ih h; simp only [List.length_cons]; omega

theorem Store.rising_of_le {m : Store β} {lo k : Nat} (h : Store.rising lo m = true) (hk : ∀ c ∈ m, k ≤ c.1) :
    Store.rising k m = true := by
  cases m with
  | nil => rfl
  | cons c m =>
    simp only [Store.rising, Bool.and_eq_true, decide_eq_true_eq] at *
    exact ⟨hk c List.mem_cons_self, h.2⟩

theorem Store.rising_write {m : Store β} (lo : Nat) (vs : List β) (h : Store.rising 0 m = true) :
    Store.rising 0 (Store.write m lo vs) = true := by
  unfold Store.write
  refine Store.rising_append (mid := lo + vs.length) (Store.rising_append (mid := lo) (Store.rising_filter _ h) ?_
    (Store.rising_numbered _ _) (by omega)) ?_ (Store.rising_of_le (Store.rising_filter _ h) ?_) (by omega)
  · intro c hc; simpa using (List.mem_filter.1 hc).2
  · intro c hc
    rcases List.mem_append.1 hc with hc | hc
    · have : c.1 < lo := by simpa using (List.mem_filter.1 hc).2
      omega
    · exact (Store.mem_numbered hc).2
  · intro c hc; simpa using (List.mem_filter.1 hc).2

theorem Store.within_write {m : Store β} {cap : Nat} (lo : Nat) (vs : List β) (h : Store.within m cap = true)
    (hv : lo + vs.length ≤ cap ∨ vs = []) : Store.within (Store.write m lo vs) cap = true := by
  simp only [Store.within, List.all_eq_true, decide_eq_true_eq] at *
  intro c hc
  simp only [Store.write, List.append_assoc, List.mem_append] at hc
  rcases hc with hc | hc | hc
  · exact h c (List.mem_filter.1 hc).1
  · have := Store.mem_numbered hc
    rcases hv with hv | rfl
    · omega
    · simp at this; omega
  · exact h c (List.mem_filter.1 hc).1

theorem Store.within_filter {m : Store β} {cap : Nat} (p : Nat × β → Bool) (h : Store.within m cap = true) :
    Store.within (m.filter p) cap = true := by
  simp only [Store.within, List.all_eq_true, decide_eq_true_eq] at *
  exact fun c hc => h c (List.mem_filter.1 hc).1

theorem Store.all_dropZeros (m : Store Bool) : (Store.dropZeros m).all (fun c => c.2) = true := by
  simp only [Store.dropZeros, List.all_eq_true]
  exact fun c hc => (List.mem_filter.1 hc).2

theorem Store.rising_flipWhere {m : Store Bool} {lo : Nat} (f : Nat → Bool) (h : Store.rising lo m = true) :
    Store.rising lo (Store.flipWhere m f) = true := by
  induction m generalizing lo with
  | nil => rfl
  | cons c m ih =>
    simp only [Store.flipWhere, List.map_cons, Store.rising, Bool.and_eq_true] at *
    exact ⟨h.1, ih h.2⟩

theorem Store.within_flipWhere {m : Store Bool} {cap : Nat} (f : Nat → Bool) (h : Store.within m cap = true) :
    Store.within (Store.flipWhere m f) cap = true := by
  simpa [Store.within, Store.flipWhere] using h

theorem Store.get_of_lt {m : Store β} {lo i : Nat} (h : Store.rising lo m = true) (hi : i < lo) : Store.get m i = none := by
  induction m generalizing lo with
  | nil => rfl
  | cons c m ih =>
    simp only [Store.rising, Bool.and_eq_true, decide_eq_true_eq] at h
    simp only [Store.get]
    rw [if_neg (by omega)]
    exact ih h.2 (by omega)

/-- Taking the zero bits out of a rising store changes no bit it reads as. -/
theorem Store.bit_dropZeros {m : Store Bool} {lo : Nat} (h : Store.rising lo m = true) (j : Nat) :
    Store.bit (Store.dropZeros m) j = Store.bit m j := by
  induction m generalizing lo with
  | nil => rfl
  | cons c m ih =>
    obtain ⟨k, b⟩ := c
    simp only [Store.rising, Bool.and_eq_true, decide_eq_true_eq] at h
    have ih := ih h.2
    simp only [Store.bit, Store.dropZeros, List.filter_cons] at *
    cases b with
    | true =>
      simp only [if_true, Store.get]
      split
      · rfl
      · exact ih
    | false =>
      simp only [Bool.false_eq_true, if_false, Store.get]
      split
      · rename_i hk
        subst hk
        rw [ih, Store.get_of_lt h.2 (Nat.lt_succ_self _)]
        rfl
      · exact ih

theorem Store.bit_numbered (vs : Bits) (j : Nat) :
    Store.bit (Store.dropZeros (Store.numbered 0 vs)) j = vs.getD j false := by
  rw [Store.bit_dropZeros (Store.rising_numbered 0 vs), Store.bit, Store.get_numbered]
  simp [List.getD]

end Sys2Proof.Machine
end

