-- ==== Sys2Proof/Laws/Commands.lean ====
section
/-! SUPPORT. What the steps of each command can do, said once: the check that fails, the model fault, or the state they end
in, with the kernel as a total function. -/

namespace Sys2Proof.Machine

/-! ### Operands and checks -/

@[simp] theorem divisor_length (s : State) : (divisor s).length = s.regs.polyLen.toNat := by simp [divisor]

theorem divisor_getD (s : State) (i : Nat) :
    (divisor s).getD i false = (decide (i < s.regs.polyLen.toNat) && Store.bit s.mem.poly i) := by
  simp only [divisor, List.getD, List.getElem?_map]
  by_cases h : i < s.regs.polyLen.toNat
  · simp [h]
  · rw [List.getElem?_eq_none (by simpa using h)]; simp [h]

theorem checkDivisor_eq (s : State) (rest : Option ErrCode) :
    checkDivisor s rest = match divisorError s with
      | some e => some e
      | none => rest := by
  simp only [checkDivisor, failIf, divisorError]
  split
  · rfl
  split
  · rfl
  split
  · rfl
  by_cases h : s.regs.lenCrc.toNat ≠ s.regs.polyLen.toNat - 1
  · rw [if_pos h, if_pos (by omega)]
  · rw [if_neg h, if_neg (by omega)]

/-- What a passed divisor check says (41_crc_engine.md R164). -/
theorem divisorError_none {s : State} (h : divisorError s = none) :
    1 ≤ s.regs.polyLen.toNat ∧ s.regs.polyLen.toNat ≤ s.params.polyMax ∧ Store.bit s.mem.poly 0 = true ∧
      s.regs.lenCrc.toNat + 1 = s.regs.polyLen.toNat := by
  unfold divisorError at h
  split at h
  · cases h
  split at h
  · cases h
  split at h
  · cases h
  split at h
  · cases h
  rename_i h1 h2 h3 h4
  exact ⟨by omega, by omega, by simpa using h3, by omega⟩

theorem divisor_head {s : State} (h : divisorError s = none) : (divisor s).headD false = true := by
  obtain ⟨h1, -, h3, -⟩ := divisorError_none h
  rw [headD_eq_getD, divisor_getD, h3]
  simp; omega

theorem checkEncode_eq (s : State) : checkEncode s = encodeError s := by
  simp only [checkEncode, encodeError, checkDivisor_eq, failIf]
  cases hd : divisorError s with
  | some e => rfl
  | none =>
    have := divisorError_none hd
    simp only
    split
    · rfl
    · by_cases h : s.regs.msgLen.toNat = 0
      · rw [if_pos (by omega), if_pos h]
      · rw [if_neg (by omega), if_neg h]

theorem checkDecode_eq (s : State) : checkDecode s = decodeError s := by
  rw [checkDecode, decodeError, checkDivisor_eq]
  rfl

theorem checkCorrupt_eq (s : State) (k : Nat) : checkCorrupt s k = corruptError s k s.regs.cwLen.toNat := rfl

/-- What ENCODE's passed checks say (41_crc_engine.md R165). -/
theorem encodeError_none {s : State} (h : encodeError s = none) :
    divisorError s = none ∧ s.regs.msgLen.toNat ≤ s.params.msgMaxBytes ∧ 1 ≤ s.regs.msgLen.toNat := by
  unfold encodeError at h
  split at h
  · cases h
  · rename_i hd
    split at h
    · cases h
    split at h
    · cases h
    · exact ⟨hd, by omega, by omega⟩

/-- What DECODE's passed checks say (41_crc_engine.md R167). -/
theorem decodeError_none {s : State} (h : decodeError s = none) :
    divisorError s = none ∧ s.regs.cwLen.toNat ≤ s.params.cwMaxBits ∧ s.regs.polyLen.toNat ≤ s.regs.cwLen.toNat := by
  unfold decodeError at h
  split at h
  · cases h
  · rename_i hd
    split at h
    · cases h
    split at h
    · cases h
    · exact ⟨hd, by omega, by omega⟩

/-- What CORRUPT's passed checks say (42_burst_error.md R194). -/
theorem corruptError_none {s : State} {k L : Nat} (h : corruptError s k L = none) :
    s.regs.bpol = false ∧ 2 ≤ s.regs.burstLen.toNat ∧ L ≤ s.params.cwMaxBits ∧ k + s.regs.burstLen.toNat ≤ L := by
  unfold corruptError at h
  split at h
  · cases h
  split at h
  · cases h
  split at h
  · cases h
  split at h
  · cases h
  rename_i h1 h2 h3 h4
  exact ⟨by simpa using h1, by omega, by omega, by omega⟩

theorem corruptError_eq_none {s : State} {k L : Nat} (h1 : s.regs.bpol = false) (h2 : 2 ≤ s.regs.burstLen.toNat)
    (h3 : L ≤ s.params.cwMaxBits) (h4 : k + s.regs.burstLen.toNat ≤ L) : corruptError s k L = none := by
  unfold corruptError
  rw [if_neg (by simp [h1]), if_neg (by omega), if_neg (by omega), if_neg (by omega)]

/-- A check of the block never gives a code of another class, so never a reserved one. -/
theorem divisorError_code {s : State} {e : ErrCode} (h : divisorError s = some e) :
    e = .divisor ∨ e = .range ∨ e = .lengthMismatch := by
  unfold divisorError at h
  split at h
  · simp_all
  split at h
  · simp_all
  split at h
  · simp_all
  split at h
  · simp_all
  · cases h

theorem encodeError_code {s : State} {e : ErrCode} (h : encodeError s = some e) :
    e = .divisor ∨ e = .range ∨ e = .lengthMismatch := by
  unfold encodeError at h
  split at h
  · rename_i hd
    cases h
    exact divisorError_code hd
  · split at h
    · simp_all
    split at h
    · simp_all
    · cases h

theorem decodeError_code {s : State} {e : ErrCode} (h : decodeError s = some e) :
    e = .divisor ∨ e = .range ∨ e = .lengthMismatch := by
  unfold decodeError at h
  split at h
  · rename_i hd
    cases h
    exact divisorError_code hd
  · split at h
    · simp_all
    split at h
    · simp_all
    · cases h

theorem corruptError_code {s : State} {k L : Nat} {e : ErrCode} (h : corruptError s k L = some e) :
    e = .param ∨ e = .range := by
  unfold corruptError at h
  split at h
  · simp_all
  split at h
  · simp_all
  split at h
  · simp_all
  split at h
  · simp_all
  · cases h

theorem messageBytes_eq_some (s : State) (bs : List Byte) : messageBytes s = some bs ↔ MessageIs s bs := by
  simp only [messageBytes, Store.readAll_eq_some, Nat.zero_add, MessageIs]
  constructor
  · rintro ⟨h1, h2⟩; exact ⟨h1, fun i hi => h2 i (by omega)⟩
  · rintro ⟨h1, h2⟩; exact ⟨h1, fun i hi => h2 i (by omega)⟩

theorem codeword_eq_some (s : State) (c : Bits) : codeword s = some c ↔ CodewordIs s c := by
  simp only [codeword, Store.readAll_eq_some, Nat.zero_add, CodewordIs]
  constructor
  · rintro ⟨h1, h2⟩; exact ⟨h1, fun i hi => h2 i (by omega)⟩
  · rintro ⟨h1, h2⟩; exact ⟨h1, fun i hi => h2 i (by omega)⟩

theorem messageBytes_eq_none (s : State) : messageBytes s = none ↔ MessageUnset s := by
  constructor
  · intro h
    by_contra hn
    have := Store.readAll_isSome s.mem.msg 0 s.regs.msgLen.toNat fun i hi => by
      by_contra hc
      exact hn ⟨i, hi, by simpa using hc⟩
    rw [messageBytes] at h; rw [h] at this; cases this
  · rintro ⟨i, hi, hg⟩
    cases hm : messageBytes s with
    | none => rfl
    | some bs =>
      obtain ⟨h1, h2⟩ := (messageBytes_eq_some s bs).1 hm
      rw [h2 i (by omega), List.getElem?_eq_getElem (by omega)] at hg
      cases hg

theorem codeword_eq_none (s : State) : codeword s = none ↔ CodewordUnset s := by
  constructor
  · intro h
    by_contra hn
    have := Store.readAll_isSome s.mem.cw 0 s.regs.cwLen.toNat fun i hi => by
      by_contra hc
      exact hn ⟨i, hi, by simpa using hc⟩
    rw [codeword] at h; rw [h] at this; cases this
  · rintro ⟨i, hi, hg⟩
    cases hm : codeword s with
    | none => rfl
    | some c =>
      obtain ⟨h1, h2⟩ := (codeword_eq_some s c).1 hm
      rw [h2 i (by omega), List.getElem?_eq_getElem (by omega)] at hg
      cases hg

/-! ### The steps -/

/-- The remainder ENCODE computes for the message `bs`. -/
def encodedRem (s : State) (bs : List Byte) : Bits :=
  remainderBits (fromBytes bs ++ zeros s.regs.lenCrc.toNat) (divisor s)

/-- The state the steps of ENCODE end in. -/
def encoded (s : State) (bs : List Byte) : State :=
  (s.setCodeword (fromBytes bs ++ encodedRem s bs)).setRem (encodedRem s bs)

theorem encode_dividend_long {s : State} {bs : List Byte} (h : encodeError s = none) (hb : MessageIs s bs) :
    1 ≤ (divisor s).length ∧ (divisor s).length ≤ (fromBytes bs ++ zeros s.regs.lenCrc.toNat).length := by
  obtain ⟨hd, -, hm⟩ := encodeError_none h
  have := divisorError_none hd
  have := hb.1
  simp
  omega

theorem encodedRem_length {s : State} {bs : List Byte} (h : encodeError s = none) (hb : MessageIs s bs) :
    (encodedRem s bs).length = s.regs.lenCrc.toNat := by
  obtain ⟨h1, h2⟩ := encode_dividend_long h hb
  have := divisorError_none (encodeError_none h).1
  rw [encodedRem, remainderBits_length h1 h2, divisor_length]
  omega

theorem encodeSteps_raises {s : State} {e : ErrCode} (h : encodeError s = some e) : encodeSteps s = .raised e s := by
  simp only [encodeSteps, checkEncode_eq, h, Run.afterCheck]

theorem encodeSteps_faults {s : State} (h : encodeError s = none) (hm : MessageUnset s) : encodeSteps s = .fault .uninit := by
  simp only [encodeSteps, checkEncode_eq, h, Run.afterCheck, (messageBytes_eq_none s).2 hm, Run.ofOperand]

theorem encodeSteps_done {s : State} {bs : List Byte} (h : encodeError s = none) (hb : MessageIs s bs) :
    encodeSteps s = .done (encoded s bs) := by
  obtain ⟨h1, h2⟩ := encode_dividend_long h hb
  simp only [encodeSteps, checkEncode_eq, h, Run.afterCheck, (messageBytes_eq_some s bs).2 hb, Run.ofOperand, concat,
    computeRemainder_ok h1 h2, Run.ofResult]
  rfl

/-- ENCODE does one of three things. -/
theorem encodeSteps_cases (s : State) :
    (∃ e, encodeError s = some e ∧ encodeSteps s = .raised e s) ∨
    (encodeError s = none ∧ MessageUnset s ∧ encodeSteps s = .fault .uninit) ∨
    (∃ bs, encodeError s = none ∧ MessageIs s bs ∧ encodeSteps s = .done (encoded s bs)) := by
  cases h : encodeError s with
  | some e => exact .inl ⟨e, rfl, encodeSteps_raises h⟩
  | none =>
    cases hm : messageBytes s with
    | none => exact .inr (.inl ⟨rfl, (messageBytes_eq_none s).1 hm, encodeSteps_faults h ((messageBytes_eq_none s).1 hm)⟩)
    | some bs =>
      have hb := (messageBytes_eq_some s bs).1 hm
      exact .inr (.inr ⟨bs, rfl, hb, encodeSteps_done h hb⟩)

/-- The state the steps of DECODE end in, for the codeword `c`. -/
def decoded (s : State) (c : Bits) : State :=
  (s.setRem (remainderBits c (divisor s))).setClean
    (decide (remainderBits c (divisor s) = zeros s.regs.lenCrc.toNat))

theorem decode_dividend_long {s : State} {c : Bits} (h : decodeError s = none) (hc : CodewordIs s c) :
    1 ≤ (divisor s).length ∧ (divisor s).length ≤ c.length := by
  obtain ⟨hd, -, hl⟩ := decodeError_none h
  have := divisorError_none hd
  have := hc.1
  rw [divisor_length]
  omega

theorem decodedRem_length {s : State} {c : Bits} (h : decodeError s = none) (hc : CodewordIs s c) :
    (remainderBits c (divisor s)).length = s.regs.lenCrc.toNat := by
  obtain ⟨h1, h2⟩ := decode_dividend_long h hc
  have := divisorError_none (decodeError_none h).1
  rw [remainderBits_length h1 h2, divisor_length]
  omega

theorem decodeSteps_raises {s : State} {e : ErrCode} (h : decodeError s = some e) : decodeSteps s = .raised e s := by
  simp only [decodeSteps, checkDecode_eq, h, Run.afterCheck]

theorem decodeSteps_faults {s : State} (h : decodeError s = none) (hm : CodewordUnset s) : decodeSteps s = .fault .uninit := by
  simp only [decodeSteps, checkDecode_eq, h, Run.afterCheck, (codeword_eq_none s).2 hm, Run.ofOperand]

theorem decodeSteps_done {s : State} {c : Bits} (h : decodeError s = none) (hc : CodewordIs s c) :
    decodeSteps s = .done (decoded s c) := by
  obtain ⟨h1, h2⟩ := decode_dividend_long h hc
  have hl := decodedRem_length h hc
  simp only [decodeSteps, checkDecode_eq, h, Run.afterCheck, (codeword_eq_some s c).2 hc, Run.ofOperand,
    computeRemainder_ok h1 h2, Run.ofResult, bitsEq]
  rw [if_neg (by simp [hl])]
  have : (remainderBits c (divisor s) == zeros s.regs.lenCrc.toNat) =
      decide (remainderBits c (divisor s) = zeros s.regs.lenCrc.toNat) := by
    rw [Bool.eq_iff_iff]; simp
  rw [this]
  rfl

/-- DECODE does one of three things. -/
theorem decodeSteps_cases (s : State) :
    (∃ e, decodeError s = some e ∧ decodeSteps s = .raised e s) ∨
    (decodeError s = none ∧ CodewordUnset s ∧ decodeSteps s = .fault .uninit) ∨
    (∃ c, decodeError s = none ∧ CodewordIs s c ∧ decodeSteps s = .done (decoded s c)) := by
  cases h : decodeError s with
  | some e => exact .inl ⟨e, rfl, decodeSteps_raises h⟩
  | none =>
    cases hm : codeword s with
    | none => exact .inr (.inl ⟨rfl, (codeword_eq_none s).1 hm, decodeSteps_faults h ((codeword_eq_none s).1 hm)⟩)
    | some c =>
      have hc := (codeword_eq_some s c).1 hm
      exact .inr (.inr ⟨c, rfl, hc, decodeSteps_done h hc⟩)

/-- The state the steps of CORRUPT at `k` end in. -/
def corrupted (s : State) (k : Nat) : State := s.flipCw (burstHits s.params.gen k s.regs.burstLen.toNat)

theorem isFlipped_eq (g : Generator) (k n i : Nat) (hn : 2 ≤ n) : isFlipped k (burstFlips g k n) i = burstHits g k n i := by
  rw [Bool.eq_iff_iff]
  simp only [isFlipped, burstFlips, burstHits, Bool.and_eq_true, decide_eq_true_eq, List.contains_cons, Bool.or_eq_true,
    beq_iff_eq, List.contains_iff_mem, List.any_eq_true]
  constructor
  · rintro ⟨h, h0 | h0 | h0⟩
    · exact .inl (.inl (by omega))
    · exact .inl (.inr (by omega))
    · exact .inr ⟨_, h0, by omega⟩
  · rintro ((h | h) | ⟨q, hq, h⟩)
    · exact ⟨by omega, .inl (by omega)⟩
    · exact ⟨by omega, .inr (.inl (by omega))⟩
    · exact ⟨by omega, .inr (.inr (by rwa [show i - k = q by omega]))⟩

theorem corruptSteps_raises {s : State} {k : Nat} {e : ErrCode} (h : corruptError s k s.regs.cwLen.toNat = some e) :
    corruptSteps k s = .raised e s := by
  simp only [corruptSteps, checkCorrupt_eq, h, Run.afterCheck]

theorem corruptSteps_done {s : State} {k : Nat} (h : corruptError s k s.regs.cwLen.toNat = none) :
    corruptSteps k s = .done (corrupted s k) := by
  have hn := (corruptError_none h).2.1
  simp only [corruptSteps, checkCorrupt_eq, h, Run.afterCheck, corrupted]
  congr 2
  funext i
  exact isFlipped_eq _ _ _ _ hn

/-- CORRUPT does one of two things. -/
theorem corruptSteps_cases (s : State) (k : Nat) :
    (∃ e, corruptError s k s.regs.cwLen.toNat = some e ∧ corruptSteps k s = .raised e s) ∨
    (corruptError s k s.regs.cwLen.toNat = none ∧ corruptSteps k s = .done (corrupted s k)) := by
  cases h : corruptError s k s.regs.cwLen.toNat with
  | some e => exact .inl ⟨e, rfl, corruptSteps_raises h⟩
  | none => exact .inr ⟨rfl, corruptSteps_done h⟩

/-! ### What the end states read as -/

@[simp] theorem burstOn_length (g : Generator) (k n : Nat) (c : Bits) : (burstOn g k n c).length = c.length := by
  simp [burstOn]

theorem burstOn_getElem? (g : Generator) (k n : Nat) (cw : Bits) (i : Nat) :
    (burstOn g k n cw)[i]? = cw[i]?.map fun b => b ^^ burstHits g k n i := by
  simp only [burstOn, List.getElem?_map]
  by_cases h : i < cw.length
  · rw [List.getElem?_range h, List.getElem?_eq_getElem h]; simp [List.getD, h]
  · rw [List.getElem?_eq_none (by simpa using h), List.getElem?_eq_none (by omega)]; rfl

/-- The pattern of bits a burst flips in a stream of `L` bits. -/
def burstPattern (g : Generator) (k n L : Nat) : Bits := (List.range L).map (burstHits g k n)

@[simp] theorem burstPattern_length (g : Generator) (k n L : Nat) : (burstPattern g k n L).length = L := by simp [burstPattern]

theorem burstPattern_getD (g : Generator) (k n L i : Nat) :
    (burstPattern g k n L).getD i false = (decide (i < L) && burstHits g k n i) := by
  simp only [burstPattern, List.getD, List.getElem?_map]
  by_cases h : i < L
  · rw [List.getElem?_range h]; simp [h]
  · rw [List.getElem?_eq_none (by simpa using h)]; simp [h]

/-- A burst is an exclusive-or with its pattern. -/
theorem burstOn_eq_xor (g : Generator) (k n : Nat) (c : Bits) :
    burstOn g k n c = xorBits c (burstPattern g k n c.length) := by
  refine bits_ext (by simp) fun i hi => ?_
  simp only [burstOn_length] at hi
  rw [xorBits_getD _ _ (by simp), burstPattern_getD]
  simp only [List.getD, burstOn_getElem?]
  rw [List.getElem?_eq_getElem hi]
  simp [hi]

theorem encoded_get_cw {s : State} {bs : List Byte} (h : encodeError s = none) (hb : MessageIs s bs) (j : Nat) :
    Store.get (encoded s bs).mem.cw j =
      if j < encodedLen s then (fromBytes bs ++ encodedRem s bs)[j]? else Store.get s.mem.cw j := by
  have hl : (fromBytes bs ++ encodedRem s bs).length = encodedLen s := by
    rw [List.length_append, fromBytes_length, encodedRem_length h hb, hb.1]; rfl
  show Store.get (Store.write s.mem.cw 0 (fromBytes bs ++ encodedRem s bs)) j = _
  rw [Store.get_write, hl]
  simp

theorem encoded_bit_rem (s : State) (bs : List Byte) (j : Nat) :
    Store.bit (encoded s bs).mem.rem j = (encodedRem s bs).getD j false := Store.bit_numbered _ _

theorem encoded_cwLen {s : State} {bs : List Byte} (h : encodeError s = none) (hb : MessageIs s bs) :
    (encoded s bs).regs.cwLen = BitVec.ofNat 32 (encodedLen s) := by
  have hl : (fromBytes bs ++ encodedRem s bs).length = encodedLen s := by
    rw [List.length_append, fromBytes_length, encodedRem_length h hb, hb.1]; rfl
  show BitVec.ofNat 32 (fromBytes bs ++ encodedRem s bs).length = _
  rw [hl]

/-- ENCODE's length is below 2^32 and inside the buffer (20_memory.md, section 3, capacity). -/
theorem encodedLen_le {s : State} (hp : s.params.legal) (h : encodeError s = none) :
    encodedLen s ≤ s.params.cwMaxBits ∧ encodedLen s < 2 ^ 32 ∧ s.regs.polyLen.toNat ≤ encodedLen s := by
  obtain ⟨hd, h1, h2⟩ := encodeError_none h
  have := divisorError_none hd
  have hp := hp
  simp only [Params.legal] at hp
  simp only [encodedLen, Params.cwMaxBits]
  omega

theorem encoded_cwLen_toNat {s : State} {bs : List Byte} (hp : s.params.legal) (h : encodeError s = none) (hb : MessageIs s bs) :
    (encoded s bs).regs.cwLen.toNat = encodedLen s := by
  rw [encoded_cwLen h hb, BitVec.toNat_ofNat, Nat.mod_eq_of_lt (encodedLen_le hp h).2.1]

theorem decoded_bit_rem (s : State) (c : Bits) (j : Nat) :
    Store.bit (decoded s c).mem.rem j = (remainderBits c (divisor s)).getD j false := Store.bit_numbered _ _

theorem corrupted_get_cw (s : State) (k j : Nat) :
    Store.get (corrupted s k).mem.cw j =
      (Store.get s.mem.cw j).map fun b => b ^^ burstHits s.params.gen k s.regs.burstLen.toNat j := by
  show Store.get (Store.flipWhere s.mem.cw _) j = _
  rw [Store.get_flipWhere]
  congr 1
  funext b
  cases burstHits s.params.gen k s.regs.burstLen.toNat j <;> simp

/-! ### A trial -/

/-- The codeword of a trial after the burst at `k`. -/
def trialCodeword (s : State) (bs : List Byte) (k : Nat) : Bits :=
  burstOn s.params.gen k s.regs.burstLen.toNat (fromBytes bs ++ encodedRem s bs)

/-- The state a trial at `k` ends in. -/
def trialed (s : State) (bs : List Byte) (k : Nat) : State := decoded (corrupted (encoded s bs) k) (trialCodeword s bs k)

@[simp] theorem encoded_params (s : State) (bs : List Byte) : (encoded s bs).params = s.params := rfl
@[simp] theorem encoded_status (s : State) (bs : List Byte) : (encoded s bs).status = s.status := rfl
@[simp] theorem encoded_poly (s : State) (bs : List Byte) : (encoded s bs).mem.poly = s.mem.poly := rfl
@[simp] theorem encoded_msg (s : State) (bs : List Byte) : (encoded s bs).mem.msg = s.mem.msg := rfl
@[simp] theorem corrupted_regs (s : State) (k : Nat) : (corrupted s k).regs = s.regs := rfl
@[simp] theorem corrupted_params (s : State) (k : Nat) : (corrupted s k).params = s.params := rfl
@[simp] theorem decoded_regs (s : State) (c : Bits) : (decoded s c).regs = s.regs := rfl
@[simp] theorem decoded_params (s : State) (c : Bits) : (decoded s c).params = s.params := rfl

theorem corruptError_encoded {s : State} {bs : List Byte} (hp : s.params.legal) (h : encodeError s = none)
    (hb : MessageIs s bs) (k : Nat) :
    corruptError (encoded s bs) k (encoded s bs).regs.cwLen.toNat = corruptError s k (encodedLen s) := by
  rw [encoded_cwLen_toNat hp h hb]
  rfl

theorem decodeError_trial {s : State} {bs : List Byte} (hp : s.params.legal) (h : encodeError s = none)
    (hb : MessageIs s bs) (k : Nat) : decodeError (corrupted (encoded s bs) k) = none := by
  have hd : divisorError (corrupted (encoded s bs) k) = divisorError s := rfl
  have hl := encodedLen_le hp h
  have hc : (corrupted (encoded s bs) k).regs.cwLen.toNat = encodedLen s := encoded_cwLen_toNat hp h hb
  unfold decodeError
  rw [hd, (encodeError_none h).1, hc]
  simp only
  rw [if_neg (by show ¬ s.params.cwMaxBits < _; omega), if_neg (by show ¬ _ < s.regs.polyLen.toNat; omega)]

theorem codewordIs_trial {s : State} {bs : List Byte} (hp : s.params.legal) (h : encodeError s = none)
    (hb : MessageIs s bs) (k : Nat) : CodewordIs (corrupted (encoded s bs) k) (trialCodeword s bs k) := by
  have hl : (fromBytes bs ++ encodedRem s bs).length = encodedLen s := by
    rw [List.length_append, fromBytes_length, encodedRem_length h hb, hb.1]; rfl
  have hc : (corrupted (encoded s bs) k).regs.cwLen.toNat = encodedLen s := encoded_cwLen_toNat hp h hb
  refine ⟨by rw [hc, trialCodeword, burstOn_length, hl], fun i hi => ?_⟩
  rw [trialCodeword, burstOn_length, hl] at hi
  rw [corrupted_get_cw, encoded_get_cw h hb, if_pos hi, trialCodeword, burstOn_getElem?]
  rfl

theorem trialAt_raises_encode {s : State} {e : ErrCode} (k : Nat) (h : encodeError s = some e) :
    trialAt k s = .raised e s := by simp only [trialAt, encodeSteps_raises h, Run.andThen]

theorem trialAt_faults {s : State} (k : Nat) (h : encodeError s = none) (hm : MessageUnset s) :
    trialAt k s = .fault .uninit := by simp only [trialAt, encodeSteps_faults h hm, Run.andThen]

theorem trialAt_raises_corrupt {s : State} {bs : List Byte} {k : Nat} {e : ErrCode} (hp : s.params.legal)
    (h : encodeError s = none) (hb : MessageIs s bs) (hc : corruptError s k (encodedLen s) = some e) :
    trialAt k s = .raised e (encoded s bs) := by
  simp only [trialAt, encodeSteps_done h hb, Run.andThen,
    corruptSteps_raises ((corruptError_encoded hp h hb k).trans hc)]

theorem trialAt_done {s : State} {bs : List Byte} {k : Nat} (hp : s.params.legal) (h : encodeError s = none)
    (hb : MessageIs s bs) (hc : corruptError s k (encodedLen s) = none) : trialAt k s = .done (trialed s bs k) := by
  simp only [trialAt, encodeSteps_done h hb, Run.andThen, corruptSteps_done ((corruptError_encoded hp h hb k).trans hc),
    decodeSteps_done (decodeError_trial hp h hb k) (codewordIs_trial hp h hb k)]
  rfl

/-- A trial does one of four things, in a block with legal parameters. -/
theorem trialAt_cases {s : State} (hp : s.params.legal) (k : Nat) :
    (∃ e, encodeError s = some e ∧ trialAt k s = .raised e s) ∨
    (encodeError s = none ∧ MessageUnset s ∧ trialAt k s = .fault .uninit) ∨
    (∃ bs e, encodeError s = none ∧ MessageIs s bs ∧ corruptError s k (encodedLen s) = some e ∧
      trialAt k s = .raised e (encoded s bs)) ∨
    (∃ bs, encodeError s = none ∧ MessageIs s bs ∧ corruptError s k (encodedLen s) = none ∧
      trialAt k s = .done (trialed s bs k)) := by
  rcases encodeSteps_cases s with ⟨e, h, -⟩ | ⟨h, hm, -⟩ | ⟨bs, h, hb, -⟩
  · exact .inl ⟨e, h, trialAt_raises_encode k h⟩
  · exact .inr (.inl ⟨h, hm, trialAt_faults k h hm⟩)
  · cases hc : corruptError s k (encodedLen s) with
    | some e => exact .inr (.inr (.inl ⟨bs, e, h, hb, rfl, trialAt_raises_corrupt hp h hb hc⟩))
    | none => exact .inr (.inr (.inr ⟨bs, h, hb, rfl, trialAt_done hp h hb hc⟩))

/-- The remainder a trial leaves: the syndrome of its codeword. -/
def trialSyndrome (s : State) (bs : List Byte) (k : Nat) : Bits := remainderBits (trialCodeword s bs k) (divisor s)

theorem trialed_bit_rem (s : State) (bs : List Byte) (k j : Nat) :
    Store.bit (trialed s bs k).mem.rem j = (trialSyndrome s bs k).getD j false := decoded_bit_rem _ _ _

theorem trialed_clean (s : State) (bs : List Byte) (k : Nat) :
    (trialed s bs k).status.clean = decide (trialSyndrome s bs k = zeros s.regs.lenCrc.toNat) := rfl

theorem trialed_get_cw {s : State} {bs : List Byte} (h : encodeError s = none) (hb : MessageIs s bs) (k : Nat)
    (hn : 2 ≤ s.regs.burstLen.toNat) (hk : k + s.regs.burstLen.toNat ≤ encodedLen s) (j : Nat) :
    Store.get (trialed s bs k).mem.cw j =
      if j < encodedLen s then (trialCodeword s bs k)[j]? else Store.get s.mem.cw j := by
  show Store.get (corrupted (encoded s bs) k).mem.cw j = _
  rw [corrupted_get_cw, encoded_get_cw h hb]
  by_cases hj : j < encodedLen s
  · rw [if_pos hj, if_pos hj, trialCodeword, burstOn_getElem?]
    rfl
  · rw [if_neg hj, if_neg hj]
    have : burstHits (encoded s bs).params.gen k (encoded s bs).regs.burstLen.toNat j = false := by
      show burstHits s.params.gen k s.regs.burstLen.toNat j = false
      simp only [burstHits, Bool.or_eq_false_iff, beq_eq_false_iff_ne, List.any_eq_false, beq_iff_eq]
      refine ⟨⟨by omega, by omega⟩, fun q hq => ?_⟩
      simp only [burstRng, List.mem_map, List.mem_range] at hq
      obtain ⟨a, ha, rfl⟩ := hq
      have h3 : 0 < s.regs.burstLen.toNat - 2 := by
        by_contra hc
        have : s.regs.burstLen.toNat - 1 = 1 := by omega
        rw [this, Nat.mod_one] at ha
        omega
      have := Nat.mod_lt (Generator.draw s.params.gen k s.regs.burstLen.toNat (a + 1)) h3
      omega
    rw [this]
    cases Store.get s.mem.cw j <;> simp

theorem trialed_syndrome_length {s : State} {bs : List Byte} (hp : s.params.legal) (h : encodeError s = none)
    (hb : MessageIs s bs) (k : Nat) : (trialSyndrome s bs k).length = s.regs.lenCrc.toNat :=
  decodedRem_length (s := corrupted (encoded s bs) k) (decodeError_trial hp h hb k) (codewordIs_trial hp h hb k)

end Sys2Proof.Machine
end

