-- ==== Sys2Proof/Laws/Memory.lean ====
section
/-! SUPPORT. Every operation on the buffers keeps their canonical form (Memory.wf), and the buffers after reset have it. -/

namespace Sys2Proof.Machine

theorem Memory.wf_iff (p : Params) (m : Memory) :
    Memory.wf p m = true ↔
      (Store.rising 0 m.poly = true ∧ Store.within m.poly p.polyMax = true ∧ m.poly.all (fun c => c.2) = true) ∧
      (Store.rising 0 m.rem = true ∧ Store.within m.rem (p.polyMax - 1) = true ∧ m.rem.all (fun c => c.2) = true) ∧
      (Store.rising 0 m.msg = true ∧ Store.within m.msg p.msgMaxBytes = true) ∧
      (Store.rising 0 m.cw = true ∧ Store.within m.cw p.cwMaxBits = true) := by
  simp only [Memory.wf, Bool.and_eq_true, and_assoc]

theorem Store.within_numbered {β : Type} {lo : Nat} {vs : List β} {cap : Nat} (h : lo + vs.length ≤ cap) :
    Store.within (Store.numbered lo vs) cap = true := by
  simp only [Store.within, List.all_eq_true, decide_eq_true_eq]
  intro c hc
  have := Store.mem_numbered hc
  omega

/-- The buffers after reset are in canonical form. -/
theorem Memory.wf_reset {p : Params} (hp : p.legal) : Memory.wf p Memory.reset = true := by
  rw [Memory.wf_iff]
  simp only [Params.legal] at hp
  simp [Memory.reset, Store.rising, Store.within]
  omega

/-- A write of REM keeps it, where the remainder fits. -/
theorem Memory.wf_setRem {s : State} {r : Bits} (h : Memory.wf s.params s.mem = true) (hr : r.length ≤ s.params.polyMax - 1) :
    Memory.wf (s.setRem r).params (s.setRem r).mem = true := by
  rw [Memory.wf_iff] at *
  obtain ⟨h1, -, h3, h4⟩ := h
  refine ⟨h1, ⟨Store.rising_filter _ (Store.rising_numbered 0 r),
    Store.within_filter _ (Store.within_numbered (by simpa using hr)), Store.all_dropZeros _⟩, h3, h4⟩

/-- A write of the codeword keeps it, where the codeword fits. -/
theorem Memory.wf_setCodeword {s : State} {r : Bits} (h : Memory.wf s.params s.mem = true)
    (hr : r.length ≤ s.params.cwMaxBits) : Memory.wf (s.setCodeword r).params (s.setCodeword r).mem = true := by
  rw [Memory.wf_iff] at *
  obtain ⟨h1, h2, h3, h4⟩ := h
  exact ⟨h1, h2, h3, Store.rising_write 0 r h4.1, Store.within_write 0 r h4.2 (.inl (by simpa using hr))⟩

/-- A flip keeps it. -/
theorem Memory.wf_flipCw {s : State} (f : Nat → Bool) (h : Memory.wf s.params s.mem = true) :
    Memory.wf (s.flipCw f).params (s.flipCw f).mem = true := by
  rw [Memory.wf_iff] at *
  obtain ⟨h1, h2, h3, h4⟩ := h
  exact ⟨h1, h2, h3, Store.rising_flipWhere f h4.1, Store.within_flipWhere f h4.2⟩

theorem wordBits_length (w : Word) : (wordBits w).length = 32 := by simp [wordBits]
theorem wordBytes_length (w : Word) : (wordBytes w).length = 4 := by simp [wordBytes]

theorem take_fits {β : Type} (vs : List β) (cap lo : Nat) :
    lo + (vs.take (cap - lo)).length ≤ cap ∨ vs.take (cap - lo) = [] := by
  by_cases h : lo ≤ cap
  · left; simp; omega
  · right; rw [show cap - lo = 0 by omega, List.take_zero]

/-- A host write of a mapped word keeps it. -/
theorem Memory.wf_targetWrite {s : State} (v : Word) (t : Target) (h : Memory.wf s.params s.mem = true) :
    Memory.wf (targetWrite s v t).params (targetWrite s v t).mem = true := by
  rw [Memory.wf_iff] at *
  obtain ⟨h1, h2, h3, h4⟩ := h
  cases t with
  | reg r => cases r <;> exact ⟨h1, h2, h3, h4⟩
  | poly w =>
    exact ⟨⟨Store.rising_filter _ (Store.rising_write _ _ h1.1),
      Store.within_filter _ (Store.within_write _ _ h1.2.1 (take_fits _ _ _)), Store.all_dropZeros _⟩, h2, h3, h4⟩
  | rem w => exact ⟨h1, h2, h3, h4⟩
  | msg w => exact ⟨h1, h2, ⟨Store.rising_write _ _ h3.1, Store.within_write _ _ h3.2 (take_fits _ _ _)⟩, h4⟩
  | cw w => exact ⟨h1, h2, h3, Store.rising_write _ _ h4.1, Store.within_write _ _ h4.2 (take_fits _ _ _)⟩

/-- The steps of ENCODE keep it. -/
theorem Memory.wf_encoded {s : State} {bs : List Byte} (hp : s.params.legal) (he : encodeError s = none) (hb : MessageIs s bs)
    (h : Memory.wf s.params s.mem = true) : Memory.wf (encoded s bs).params (encoded s bs).mem = true := by
  have hl := encodedRem_length he hb
  have hd := divisorError_none (encodeError_none he).1
  refine Memory.wf_setRem (s := s.setCodeword _) (Memory.wf_setCodeword h ?_) (by simp only [State.setCodeword_params]; omega)
  rw [List.length_append, fromBytes_length, hl, hb.1]
  exact (encodedLen_le hp he).1

/-- The steps of DECODE keep it. -/
theorem Memory.wf_decoded {s : State} {bits : Bits} (he : decodeError s = none) (hc : CodewordIs s bits)
    (h : Memory.wf s.params s.mem = true) : Memory.wf (decoded s bits).params (decoded s bits).mem = true := by
  have hl := decodedRem_length he hc
  have hd := divisorError_none (decodeError_none he).1
  exact Memory.wf_setRem (s := s) h (by omega)

/-- A trial keeps it. -/
theorem Memory.wf_trialed {s : State} {bs : List Byte} (k : Nat) (hp : s.params.legal) (he : encodeError s = none)
    (hb : MessageIs s bs) (h : Memory.wf s.params s.mem = true) :
    Memory.wf (trialed s bs k).params (trialed s bs k).mem = true :=
  Memory.wf_decoded (decodeError_trial hp he hb k) (codewordIs_trial hp he hb k)
    (Memory.wf_flipCw (s := encoded s bs) _ (Memory.wf_encoded hp he hb h))

end Sys2Proof.Machine
end

