-- ==== Sys2Proof/Machine/HostProgram.lean ====
section
/-! DEFINITION. The host-program notation of the spec (30_encoding.md R116, R117): each step is an access, that is the triple
(dir, address, data), and the pseudo-operations are their expansions. WAIT is a host loop: here it is given how many of its
reads still find BUSY, since the latency is unspecified (log 19). -/

namespace Sys2Proof.Machine

/-- What `<reg>` names: a register, or word `w` of a window, at its port offset (30_encoding.md R116). -/
def Target.portOffset : Target → Nat
  | .reg r => r.portOffset
  | .poly w => polyBase + 4 * w
  | .rem w => remBase + 4 * w
  | .msg w => msgBase + 4 * w
  | .cw w => cwBase + 4 * w

/-- `W <reg>, <value>`. -/
def hostWrite (t : Target) (v : Word) : Input := .host (.write (BitVec.ofNat 18 t.portOffset) .word v)

/-- `R <reg>`. -/
def hostRead (t : Target) : Input := .host (.read (BitVec.ofNat 18 t.portOffset) .word)

/-- `CMD <mnemonic>`. -/
def hostCmd (i : Instr) : List Input := [hostWrite (.reg .cmd) (encode i)]

/-- `WAIT`, whose first `polls` reads find BUSY = 1 and whose last read, after the completion, finds it 0. -/
def hostWait (polls : Nat) : List Input :=
  List.replicate polls (hostRead (.reg .status)) ++ [.engine, hostRead (.reg .status)]

/-- `RUN <mnemonic>`: CMD, then WAIT. -/
def hostRun (i : Instr) (polls : Nat) : List Input := hostCmd i ++ hostWait polls

/-- `CLRST`: clears DONE, ERR and OVR. -/
def hostClearStatus : List Input := [hostWrite (.reg .status) 0x00000016#32]

/-- The words that hold `bits`, 32 to a word, the last filled with zeros (20_memory.md R74); `fuel` bounds the words. -/
def packBits : (fuel : Nat) → Bits → List Word
  | 0, _ => []
  | fuel + 1, bits =>
    match bits with
    | [] => []
    | b :: bs =>
      wordOfBits (((b :: bs).take 32) ++ zeros (32 - (b :: bs).length)) :: packBits fuel ((b :: bs).drop 32)

/-- One write for each word of a window, from word 0 up. -/
def hostWriteWindow (t : Nat → Target) : (w : Nat) → List Word → List Input
  | _, [] => []
  | w, v :: vs => hostWrite (t w) v :: hostWriteWindow t (w + 1) vs

/-- `SETPOLY "<bits>"`: the POLY words, then POLY_LEN, then LEN_CRC. -/
def hostSetPoly (bits : Bits) : List Input :=
  hostWriteWindow .poly 0 (packBits bits.length bits) ++
    [hostWrite (.reg .polyLen) (BitVec.ofNat 32 bits.length), hostWrite (.reg .lenCrc) (BitVec.ofNat 32 (bits.length - 1))]

/-- `LOADMSG <bytes>`: the MSG words, then MSG_LEN. -/
def hostLoadMsg (bytes : List Byte) : List Input :=
  hostWriteWindow .msg 0 (packBits (8 * bytes.length) (fromBytes bytes)) ++
    [hostWrite (.reg .msgLen) (BitVec.ofNat 32 bytes.length)]

end Sys2Proof.Machine
end

