-- ==== Sys2Proof/Laws/Port.lean ====
section
/-! SUPPORT. The register port: which address is which target, and everything an access can do. -/

namespace Sys2Proof.Machine

/-- The target is mapped in a block with the parameters `p` (20_memory.md R70). -/
def Target.mapped (p : Params) : Target → Prop
  | .reg _ => True
  | .poly w => w < polyWords p
  | .rem w => w < remWords p
  | .msg w => w < msgWords p
  | .cw w => w < cwWords p

theorem findReg_eq_some (n : Nat) (r : RegName) :
    (RegName.all.find? fun r => r.portOffset == n) = some r ↔ n = r.portOffset := by
  constructor
  · intro h
    have := List.find?_some (p := fun r : RegName => r.portOffset == n) h
    exact (beq_iff_eq.1 this).symm
  · rintro rfl; cases r <;> rfl

theorem portOffset_lt (r : RegName) : r.portOffset < 0x48 ∧ r.portOffset % 4 = 0 := by cases r <;> decide

theorem mappedWord_eq_some (words w : Nat) (f : Nat → Target) (t : Target) :
    mappedWord words w f = some t ↔ w < words ∧ t = f w := by
  unfold mappedWord; split <;> simp_all [eq_comm]

theorem words_fit {p : Params} (hp : p.legal) :
    polyWords p ≤ 256 ∧ remWords p ≤ 256 ∧ msgWords p ≤ 16384 ∧ cwWords p ≤ 16640 := by
  obtain ⟨⟨h1, h2⟩, h3, h4⟩ := hp
  simp only [polyWords, remWords, msgWords, cwWords, ceilDiv, Params.cwMaxBits]
  omega

/-- An aligned address stands for `t` exactly when it is `t`'s offset and `t` is mapped. -/
theorem portTarget_eq_some {p : Params} (hp : p.legal) {a : PortAddr} (ha : a.toNat % 4 = 0) (t : Target) :
    portTarget p a = some t ↔ a.toNat = t.portOffset ∧ t.mapped p := by
  obtain ⟨w1, w2, w3, w4⟩ := words_fit hp
  unfold portTarget polyBase remBase msgBase cwBase
  dsimp only
  have hr := portOffset_lt
  split
  · cases h : (RegName.all.find? fun r => r.portOffset == a.toNat) with
    | none =>
      cases t with
      | reg r =>
        have hn : a.toNat ≠ r.portOffset := fun e => by simp [(findReg_eq_some _ _).2 e] at h
        simp [Target.portOffset, hn]
      | poly w | rem w | msg w | cw w => simp [Target.portOffset, polyBase, remBase, msgBase, cwBase]; omega
    | some r =>
      have h' := (findReg_eq_some _ _).1 h
      cases t with
      | reg r' =>
        simp only [Option.map_some, Option.some.injEq, Target.reg.injEq, Target.portOffset, Target.mapped, and_true]
        rw [← findReg_eq_some, h, Option.some.injEq]
      | poly w | rem w | msg w | cw w => simp [Target.portOffset, polyBase, remBase, msgBase, cwBase]; omega
  · rename_i h0
    cases t with
    | reg r =>
      have := hr r
      simp only [Target.portOffset]
      repeat' split
      all_goals simp only [mappedWord_eq_some, reduceCtorEq, and_false, false_iff, not_and]; omega
    | poly w | rem w | msg w | cw w =>
      simp only [Target.portOffset, Target.mapped, polyBase, remBase, msgBase, cwBase]
      repeat' split
      all_goals
        simp only [mappedWord_eq_some, Target.poly.injEq, Target.rem.injEq, Target.msg.injEq, Target.cw.injEq,
          reduceCtorEq, and_false, false_iff, not_and]
        omega

/-- An aligned address is mapped exactly when some target stands at it. -/
theorem isMapped_iff {p : Params} (hp : p.legal) {a : PortAddr} (ha : a.toNat % 4 = 0) :
    IsMapped p a.toNat ↔ ∃ t, portTarget p a = some t := by
  simp only [portTarget_eq_some hp ha]
  constructor
  · rintro (h | h | h | h | h)
    · simp only [InRegisters, List.mem_cons, List.not_mem_nil, or_false] at h
      rcases h with h | h | h | h | h | h | h | h | h | h | h | h | h | h | h | h
      · exact ⟨.reg .id, h, trivial⟩
      · exact ⟨.reg .param0, h, trivial⟩
      · exact ⟨.reg .param1, h, trivial⟩
      · exact ⟨.reg .cmd, h, trivial⟩
      · exact ⟨.reg .status, h, trivial⟩
      · exact ⟨.reg .failOffset, h, trivial⟩
      · exact ⟨.reg .polyLen, h, trivial⟩
      · exact ⟨.reg .lenCrc, h, trivial⟩
      · exact ⟨.reg .msgLen, h, trivial⟩
      · exact ⟨.reg .cwLen, h, trivial⟩
      · exact ⟨.reg .burstLen, h, trivial⟩
      · exact ⟨.reg .offset, h, trivial⟩
      · exact ⟨.reg .trials, h, trivial⟩
      · exact ⟨.reg .ctrl, h, trivial⟩
      · exact ⟨.reg .missed, h, trivial⟩
      · exact ⟨.reg .total, h, trivial⟩
    · refine ⟨.poly ((a.toNat - polyBase) / 4), ?_, ?_⟩ <;>
        simp only [Target.portOffset, Target.mapped, polyBase, polyWords, ceilDiv, InPoly] at * <;> omega
    · refine ⟨.rem ((a.toNat - remBase) / 4), ?_, ?_⟩ <;>
        simp only [Target.portOffset, Target.mapped, remBase, remWords, ceilDiv, InRem] at * <;> omega
    · refine ⟨.msg ((a.toNat - msgBase) / 4), ?_, ?_⟩ <;>
        simp only [Target.portOffset, Target.mapped, msgBase, msgWords, ceilDiv, InMsg] at * <;> omega
    · refine ⟨.cw ((a.toNat - cwBase) / 4), ?_, ?_⟩ <;>
        simp only [Target.portOffset, Target.mapped, cwBase, cwWords, ceilDiv, InCw] at * <;> omega
  · rintro ⟨t, h1, h2⟩
    cases t with
    | reg r => left; rw [h1]; cases r <;> simp [InRegisters, Target.portOffset, RegName.portOffset]
    | poly w =>
      right; left
      simp only [Target.portOffset, Target.mapped, polyBase, polyWords, ceilDiv, InPoly] at *; omega
    | rem w =>
      right; right; left
      simp only [Target.portOffset, Target.mapped, remBase, remWords, ceilDiv, InRem] at *; omega
    | msg w =>
      right; right; right; left
      simp only [Target.portOffset, Target.mapped, msgBase, msgWords, ceilDiv, InMsg] at *; omega
    | cw w =>
      right; right; right; right
      simp only [Target.portOffset, Target.mapped, cwBase, cwWords, ceilDiv, InCw] at *; omega

/-- The register addresses, in every block. -/
@[simp] theorem portTarget_reg (p : Params) (r : RegName) :
    portTarget p (BitVec.ofNat 18 r.portOffset) = some (.reg r) := by cases r <;> rfl

/-- A mapped target's own address stands for it. -/
theorem portTarget_offset {p : Params} (hp : p.legal) {t : Target} (ht : t.mapped p) :
    portTarget p (BitVec.ofNat 18 t.portOffset) = some t ∧ accessLegal (BitVec.ofNat 18 t.portOffset) .word = true := by
  have hlt : t.portOffset < 2 ^ 18 ∧ t.portOffset % 4 = 0 := by
    obtain ⟨w1, w2, w3, w4⟩ := words_fit hp
    cases t with
    | reg r => have := portOffset_lt r; simp only [Target.portOffset]; omega
    | poly w | rem w | msg w | cw w =>
      simp only [Target.portOffset, Target.mapped, polyBase, remBase, msgBase, cwBase] at *; omega
  have hn : (BitVec.ofNat 18 t.portOffset).toNat = t.portOffset := by
    rw [BitVec.toNat_ofNat, Nat.mod_eq_of_lt hlt.1]
  refine ⟨(portTarget_eq_some hp (by rw [hn]; exact hlt.2) t).2 ⟨hn, ht⟩, ?_⟩
  simp only [accessLegal, hn, hlt.2]; rfl

/-- A read changes nothing but the response and the count of draws. -/
theorem portRead_frame (s : State) (t : Target) : ∃ v d, portRead s t = { s with resp := some (.okRead v), draws := d } ∧
    (d = s.draws ∨ d = s.draws + 1) := by
  unfold portRead
  simp only
  repeat' split
  all_goals exact ⟨_, _, rfl, by simp [State.tickDraw]⟩

/-- Everything an access can do: an error, a read of a target, or a write of one. -/
theorem portStep_cases (a : Access) (s : State) :
    portStep a s = s.respond .error ∨
    (s.rst = false ∧ ∃ addr t, a = .read addr .word ∧ addr.toNat % 4 = 0 ∧ portTarget s.params addr = some t ∧
      portStep a s = portRead s t) ∨
    (s.rst = false ∧ ∃ addr t v, a = .write addr .word v ∧ addr.toNat % 4 = 0 ∧ portTarget s.params addr = some t ∧
      portStep a s = portWrite s v t) := by
  by_cases hr : s.rst = true
  · left; simp [portStep, hr]
  · have hr' : s.rst = false := by simpa using hr
    cases a with
    | read addr n =>
      simp only [portStep, hr', Bool.false_eq_true, if_false]
      by_cases hl : accessLegal addr n = true
      · rw [if_pos hl]
        have hn : n = .word ∧ addr.toNat % 4 = 0 := by cases n <;> simp_all [accessLegal]
        obtain ⟨rfl, h4⟩ := hn
        cases ht : portTarget s.params addr with
        | none => exact .inl rfl
        | some t => exact .inr (.inl ⟨trivial, addr, t, rfl, h4, ht, rfl⟩)
      · rw [if_neg hl]; exact .inl rfl
    | write addr n v =>
      simp only [portStep, hr', Bool.false_eq_true, if_false]
      by_cases hl : accessLegal addr n = true
      · rw [if_pos hl]
        have hn : n = .word ∧ addr.toNat % 4 = 0 := by cases n <;> simp_all [accessLegal]
        obtain ⟨rfl, h4⟩ := hn
        cases ht : portTarget s.params addr with
        | none => exact .inl rfl
        | some t => exact .inr (.inr ⟨trivial, addr, t, v, rfl, h4, ht, rfl⟩)
      · rw [if_neg hl]; exact .inl rfl

theorem portOffset_inj {r : RegName} {a : PortAddr} (h : a.toNat = r.portOffset) : a = BitVec.ofNat 18 r.portOffset := by
  apply BitVec.eq_of_toNat_eq; rw [h, BitVec.toNat_ofNat]; cases r <;> rfl

/-- A register stands at its own address only. -/
theorem portTarget_reg_unique {p : Params} {a : PortAddr} {r : RegName} (h : portTarget p a = some (.reg r)) :
    a = BitVec.ofNat 18 r.portOffset := by
  unfold portTarget at h
  dsimp only at h
  split at h
  · cases hf : (RegName.all.find? fun r => r.portOffset == a.toNat) with
    | none => rw [hf] at h; cases h
    | some r' => rw [hf] at h; simp at h; subst h; exact portOffset_inj ((findReg_eq_some _ _).1 hf)
  all_goals (repeat' split at h) <;> simp [mappedWord_eq_some] at h

/-- What an access can do to the engine and to STATUS: nothing; a STATUS write; a drop that sets OVR; or a command's issue. -/
theorem portStep_effect (a : Access) (s : State) :
    ((portStep a s).eng = s.eng ∧ (portStep a s).status = s.status ∧ (portStep a s).regs.failOffset = s.regs.failOffset) ∨
    (∃ v, a = .write 0x00014#18 .word v ∧ portStep a s = { s with status := s.status.writeClear v, resp := some .okWrite }) ∨
    (s.busy = true ∧ s.rst = false ∧ ∃ addr v t, a = .write addr .word v ∧ addr.toNat % 4 = 0 ∧ portTarget s.params addr = some t ∧
      portStep a s = { s with status := { s.status with ovr := true }, resp := some .okWrite } ∧
      (addr.toNat = 0x10 ∨ InWritable addr.toNat ∨ (∃ w, t = .poly w) ∨ (∃ w, t = .msg w) ∨ ∃ w, t = .cw w)) ∨
    (s.busy = false ∧ s.rst = false ∧ ∃ v, a = .write 0x00010#18 .word v ∧ portStep a s = (s.issue v).respond .okWrite) := by
  rcases portStep_cases a s with he | ⟨-, _, tt, _, _, _, he⟩ | ⟨hr, addr, tt, v, ha, h4, ht, he⟩
  · left; rw [he]; exact ⟨rfl, rfl, rfl⟩
  · left; obtain ⟨v, d, h, -⟩ := portRead_frame s tt; rw [he, h]; exact ⟨rfl, rfl, rfl⟩
  · rw [he]
    unfold portWrite
    by_cases hb : s.busy = true
    · rw [if_pos hb]
      cases tt with
      | rem w => left; exact ⟨rfl, rfl, rfl⟩
      | reg r =>
        have had := portTarget_reg_unique ht
        cases r with
        | id | param0 | param1 | failOffset | missed | total => left; exact ⟨rfl, rfl, rfl⟩
        | status => right; left; exact ⟨v, by rw [ha, had]; rfl, rfl⟩
        | cmd => right; right; left; exact ⟨hb, hr, addr, v, _, ha, h4, ht, rfl, .inl (by rw [had]; rfl)⟩
        | _ => right; right; left; exact ⟨hb, hr, addr, v, _, ha, h4, ht, rfl, .inr (.inl (by rw [had]; unfold InWritable; decide))⟩
      | poly w => right; right; left; exact ⟨hb, hr, addr, v, _, ha, h4, ht, rfl, .inr (.inr (.inl ⟨w, rfl⟩))⟩
      | msg w => right; right; left; exact ⟨hb, hr, addr, v, _, ha, h4, ht, rfl, .inr (.inr (.inr (.inl ⟨w, rfl⟩)))⟩
      | cw w => right; right; left; exact ⟨hb, hr, addr, v, _, ha, h4, ht, rfl, .inr (.inr (.inr (.inr ⟨w, rfl⟩)))⟩
    · rw [if_neg hb]
      have hb' : s.busy = false := by simpa using hb
      cases tt with
      | reg r =>
        have had := portTarget_reg_unique ht
        cases r with
        | status => right; left; exact ⟨v, by rw [ha, had]; rfl, rfl⟩
        | cmd => right; right; right; exact ⟨hb', hr, v, by rw [ha, had]; rfl, rfl⟩
        | _ => left; exact ⟨rfl, rfl, rfl⟩
      | _ => left; exact ⟨rfl, rfl, rfl⟩

/-- An address that stands for a window word lies in the window. -/
theorem portTarget_in_window {p : Params} {a : PortAddr} (t : Target) (h : portTarget p a = some t) :
    (∀ w, t = .poly w → InPoly p a.toNat) ∧ (∀ w, t = .msg w → InMsg p a.toNat) ∧ (∀ w, t = .cw w → InCw p a.toNat) := by
  unfold portTarget polyBase remBase msgBase cwBase at h
  dsimp only at h
  have ha := a.isLt
  split at h
  · cases hf : (RegName.all.find? fun r => r.portOffset == a.toNat) with
    | none => rw [hf] at h; cases h
    | some r' => rw [hf] at h; simp at h; subst h; simp
  · repeat' split at h
    all_goals try cases h
    all_goals
      simp only [mappedWord_eq_some, polyWords, remWords, msgWords, cwWords, ceilDiv] at h
      obtain ⟨h1, rfl⟩ := h
      refine ⟨?_, ?_, ?_⟩ <;> intro w hw <;> first | (cases hw; done) | (simp only [InPoly, InMsg, InCw]; omega)

end Sys2Proof.Machine
end

