-- ==== Sys2Proof/Laws/Sweep.lean ====
section
/-! SUPPORT. A property of the state that each trial keeps holds at the end of a sweep; and how a sweep of trials that all
complete ends. -/

namespace Sys2Proof.Machine

/-- What every end of a sweep satisfies: `P` holds of the state it ends in, where a trial keeps `P` whether it completes or
raises. -/
theorem sweep_keeps {P : State → Prop} (hdone : ∀ k s t, P s → trialAt k s = .done t → P t)
    (hraise : ∀ k s e t, P s → trialAt k s = .raised e t → P t) (n k missed : Nat) {s : State} (hs : P s) :
    (∀ m t, sweep n k missed s = .finished m t → P t ∧ m ≤ missed + n) ∧
    (∀ j e t, sweep n k missed s = .failed j e t → P t ∧ k ≤ j ∧ j < k + n ∧ ∃ u, P u ∧ trialAt j u = .raised e t) ∧
    (∀ f, sweep n k missed s = .fault f → ∃ j u, P u ∧ trialAt j u = .fault f) := by
  induction n generalizing k missed s with
  | zero =>
    refine ⟨fun m t h => ?_, fun j e t h => ?_, fun f h => ?_⟩
    · simp only [sweep, SweepEnd.finished.injEq] at h
      obtain ⟨rfl, rfl⟩ := h
      exact ⟨hs, by omega⟩
    · cases h
    · cases h
  | succ n ih =>
    simp only [sweep]
    cases ht : trialAt k s with
    | done t =>
      have hP := hdone k s t hs ht
      obtain ⟨h1, h2, h3⟩ := ih (k + 1) (if t.status.clean = true then missed + 1 else missed) hP
      refine ⟨fun m u h => ?_, fun j e u h => ?_, h3⟩
      · obtain ⟨a, b⟩ := h1 m u h
        refine ⟨a, ?_⟩
        split at b <;> omega
      · obtain ⟨a, b, c, d⟩ := h2 j e u h
        exact ⟨a, by omega, by omega, d⟩
    | raised e t =>
      refine ⟨fun m u h => ?_, fun j e' u h => ?_, fun f h => ?_⟩
      · cases h
      · simp only [SweepEnd.failed.injEq] at h
        obtain ⟨rfl, rfl, rfl⟩ := h
        exact ⟨hraise k s e t hs ht, by omega, by omega, s, hs, ht⟩
      · cases h
    | fault f =>
      refine ⟨fun m u h => ?_, fun j e' u h => ?_, fun f' h => ?_⟩
      · cases h
      · cases h
      · cases f; cases f'
        exact ⟨k, s, hs, ht⟩

/-- The registers and storage a trial depends on, which no trial changes. -/
structure SameOperands (s u : State) : Prop where
  params : s.params = u.params
  msg : s.mem.msg = u.mem.msg
  poly : s.mem.poly = u.mem.poly
  polyLen : s.regs.polyLen = u.regs.polyLen
  lenCrc : s.regs.lenCrc = u.regs.lenCrc
  msgLen : s.regs.msgLen = u.regs.msgLen
  burstLen : s.regs.burstLen = u.regs.burstLen
  bpol : s.regs.bpol = u.regs.bpol

theorem SameOperands.symm {s u : State} (h : SameOperands s u) : SameOperands u s :=
  ⟨h.params.symm, h.msg.symm, h.poly.symm, h.polyLen.symm, h.lenCrc.symm, h.msgLen.symm, h.burstLen.symm, h.bpol.symm⟩

theorem SameOperands.trans {s u v : State} (h : SameOperands s u) (g : SameOperands u v) : SameOperands s v :=
  ⟨h.params.trans g.params, h.msg.trans g.msg, h.poly.trans g.poly, h.polyLen.trans g.polyLen, h.lenCrc.trans g.lenCrc,
    h.msgLen.trans g.msgLen, h.burstLen.trans g.burstLen, h.bpol.trans g.bpol⟩

theorem SameOperands.refl (s : State) : SameOperands s s := ⟨rfl, rfl, rfl, rfl, rfl, rfl, rfl, rfl⟩

section
variable {s u : State} (h : SameOperands s u)
include h

theorem SameOperands.encodeError_eq : encodeError s = encodeError u := by
  simp only [encodeError, divisorError, h.params, h.poly, h.polyLen, h.lenCrc, h.msgLen]

theorem SameOperands.corruptError_eq (k L : Nat) : corruptError s k L = corruptError u k L := by
  simp only [corruptError, h.params, h.burstLen, h.bpol]

theorem SameOperands.encodedLen_eq : encodedLen s = encodedLen u := by simp only [encodedLen, h.msgLen, h.lenCrc]

theorem SameOperands.messageIs {bs : List Byte} (hb : MessageIs s bs) : MessageIs u bs := by
  unfold MessageIs at *; rwa [h.msg, h.msgLen] at hb

theorem SameOperands.messageUnset (hm : MessageUnset s) : MessageUnset u := by
  unfold MessageUnset at *; rwa [h.msg, h.msgLen] at hm

theorem SameOperands.divisor_eq : divisor s = divisor u := by simp only [divisor, h.polyLen, h.poly]

theorem SameOperands.encodedRem_eq (bs : List Byte) : encodedRem s bs = encodedRem u bs := by
  simp only [encodedRem, h.lenCrc, h.divisor_eq]

theorem SameOperands.trialCodeword_eq (bs : List Byte) (k : Nat) : trialCodeword s bs k = trialCodeword u bs k := by
  simp only [trialCodeword, h.params, h.burstLen, h.encodedRem_eq]

theorem SameOperands.trialSyndrome_eq (bs : List Byte) (k : Nat) : trialSyndrome s bs k = trialSyndrome u bs k := by
  simp only [trialSyndrome, h.trialCodeword_eq, h.divisor_eq]

end

theorem sameOperands_encoded (s : State) (bs : List Byte) : SameOperands s (encoded s bs) :=
  ⟨rfl, rfl, rfl, rfl, rfl, rfl, rfl, rfl⟩

theorem sameOperands_trialed (s : State) (bs : List Byte) (k : Nat) : SameOperands s (trialed s bs k) :=
  ⟨rfl, rfl, rfl, rfl, rfl, rfl, rfl, rfl⟩

/-- A message of the same length that holds the same bytes is the same list. -/
theorem messageIs_unique {s : State} {bs cs : List Byte} (hb : MessageIs s bs) (hc : MessageIs s cs) : bs = cs :=
  Option.some.inj (((messageBytes_eq_some s bs).2 hb).symm.trans ((messageBytes_eq_some s cs).2 hc))

/-- A miss at offset `k`. -/
def missAt (s : State) (bs : List Byte) (k : Nat) : Bool := decide (trialSyndrome s bs k = zeros s.regs.lenCrc.toNat)

/-- A sweep whose trials all complete ends after the last one, with the misses counted. -/
theorem sweep_all_done {s0 : State} {bs : List Byte} (hp : s0.params.legal) (he : encodeError s0 = none)
    (hb : MessageIs s0 bs) (n k missed : Nat) {s : State} (hs : SameOperands s0 s)
    (hc : ∀ j, k ≤ j → j < k + n → corruptError s0 j (encodedLen s0) = none) :
    ∃ t, sweep n k missed s =
        .finished (missed + (List.range n).countP fun j => missAt s0 bs (k + j)) t ∧
      SameOperands s0 t ∧ (n = 0 → t = s) ∧
      (1 ≤ n → ∃ u, SameOperands s0 u ∧ trialAt (k + n - 1) u = .done t ∧
        ∀ j, encodedLen s0 ≤ j → Store.get u.mem.cw j = Store.get s.mem.cw j) := by
  induction n generalizing k missed s with
  | zero => exact ⟨s, by simp [sweep], hs, fun _ => rfl, fun h => absurd h (by omega)⟩
  | succ n ih =>
    have hps : s.params.legal := hs.params ▸ hp
    have hes : encodeError s = none := hs.encodeError_eq ▸ he
    have hbs := hs.messageIs hb
    have hck : corruptError s k (encodedLen s) = none := by
      rw [← hs.corruptError_eq, ← hs.encodedLen_eq]; exact hc k (by omega) (by omega)
    have ht := trialAt_done hps hes hbs hck
    have hst : SameOperands s0 (trialed s bs k) := hs.trans (sameOperands_trialed s bs k)
    obtain ⟨t, h1, h2, h3, h4⟩ := ih (k + 1) (if (trialed s bs k).status.clean = true then missed + 1 else missed) hst
      fun j a b => hc j (by omega) (by omega)
    refine ⟨t, ?_, h2, fun h => absurd h (by omega), fun _ => ?_⟩
    · simp only [sweep, ht, h1]
      congr 1
      rw [List.range_succ_eq_map, List.countP_cons, List.countP_map, trialed_clean, ← hs.trialSyndrome_eq, ← hs.lenCrc]
      have : (fun j => missAt s0 bs (k + 1 + j)) = ((fun j => missAt s0 bs (k + j)) ∘ Nat.succ) := by
        funext j; simp only [Function.comp]; congr 1; omega
      rw [this]
      simp only [missAt, Nat.add_zero, decide_eq_true_eq]
      split <;> omega
    · by_cases hn : n = 0
      · subst hn
        rw [h3 rfl]
        exact ⟨s, hs, by simpa using ht, fun _ _ => rfl⟩
      · obtain ⟨u, a, b, d⟩ := h4 (by omega)
        refine ⟨u, a, by rwa [show k + (n + 1) - 1 = k + 1 + n - 1 by omega], fun j hj => ?_⟩
        obtain ⟨-, hn2, -, hk2⟩ := corruptError_none hck
        rw [d j hj, trialed_get_cw hes hbs k hn2 hk2, if_neg (by rw [← hs.encodedLen_eq]; omega)]

/-- A sweep whose first `m` trials complete and whose next one raises ends there. -/
theorem sweep_fails_at {s : State} {n k missed m : Nat} {u v : State} {e : ErrCode}
    (hrun : ∀ j, j < m → ∃ a b, trialAt (k + j) a = .done b) (hm : m < n)
    (hu : ∃ chain : Nat → State, chain 0 = s ∧ chain m = u ∧ ∀ j, j < m → trialAt (k + j) (chain j) = .done (chain (j + 1)))
    (hr : trialAt (k + m) u = .raised e v) : sweep n k missed s = .failed (k + m) e v := by
  induction m generalizing n k missed s with
  | zero =>
    obtain ⟨chain, h0, h1, -⟩ := hu
    obtain ⟨n, rfl⟩ : ∃ n', n = n' + 1 := ⟨n - 1, by omega⟩
    have : s = u := h0.symm.trans h1
    subst this
    simp only [Nat.add_zero] at hr
    simp only [sweep, hr, Nat.add_zero]
  | succ m ih =>
    obtain ⟨chain, h0, h1, h2⟩ := hu
    obtain ⟨n, rfl⟩ : ∃ n', n = n' + 1 := ⟨n - 1, by omega⟩
    have h3 := h2 0 (by omega)
    simp only [Nat.add_zero, h0] at h3
    simp only [sweep, h3]
    rw [show k + (m + 1) = k + 1 + m by omega] at hr ⊢
    refine ih (fun j hj => ?_) (by omega) ⟨fun j => chain (j + 1), rfl, h1, fun j hj => ?_⟩ hr
    · obtain ⟨a, b, hab⟩ := hrun (j + 1) (by omega)
      exact ⟨a, b, by rwa [show k + 1 + j = k + (j + 1) by omega]⟩
    · have := h2 (j + 1) (by omega)
      rwa [show k + 1 + j = k + (j + 1) by omega]

end Sys2Proof.Machine
end

