-- ==== Sys2Proof/Laws/Exec.lean ====
section
/-! SUPPORT. What the engine never writes (20_memory.md, section 3), everything a step of the machine can do, and how a command
starts and ends. -/

namespace Sys2Proof.Machine

/-- `t` has the fields no command writes as `s` has them. -/
structure Kept (s t : State) : Prop where
  params : t.params = s.params
  rst : t.rst = s.rst
  inputs : t.inputs = s.inputs
  resp : t.resp = s.resp
  draws : t.draws = s.draws
  poly : t.mem.poly = s.mem.poly
  msg : t.mem.msg = s.mem.msg
  ovr : t.status.ovr = s.status.ovr
  polyLen : t.regs.polyLen = s.regs.polyLen
  lenCrc : t.regs.lenCrc = s.regs.lenCrc
  msgLen : t.regs.msgLen = s.regs.msgLen
  burstLen : t.regs.burstLen = s.regs.burstLen
  offset : t.regs.offset = s.regs.offset
  trials : t.regs.trials = s.regs.trials
  bpol : t.regs.bpol = s.regs.bpol

theorem Kept.refl (s : State) : Kept s s := ⟨rfl, rfl, rfl, rfl, rfl, rfl, rfl, rfl, rfl, rfl, rfl, rfl, rfl, rfl, rfl⟩

theorem Kept.trans {s t u : State} (h : Kept s t) (g : Kept t u) : Kept s u :=
  ⟨g.params.trans h.params, g.rst.trans h.rst, g.inputs.trans h.inputs, g.resp.trans h.resp, g.draws.trans h.draws,
    g.poly.trans h.poly, g.msg.trans h.msg, g.ovr.trans h.ovr, g.polyLen.trans h.polyLen, g.lenCrc.trans h.lenCrc,
    g.msgLen.trans h.msgLen, g.burstLen.trans h.burstLen, g.offset.trans h.offset, g.trials.trans h.trials,
    g.bpol.trans h.bpol⟩

theorem kept_encoded (s : State) (bs : List Byte) : Kept s (encoded s bs) :=
  ⟨rfl, rfl, rfl, rfl, rfl, rfl, rfl, rfl, rfl, rfl, rfl, rfl, rfl, rfl, rfl⟩
theorem kept_corrupted (s : State) (k : Nat) : Kept s (corrupted s k) :=
  ⟨rfl, rfl, rfl, rfl, rfl, rfl, rfl, rfl, rfl, rfl, rfl, rfl, rfl, rfl, rfl⟩
theorem kept_decoded (s : State) (c : Bits) : Kept s (decoded s c) :=
  ⟨rfl, rfl, rfl, rfl, rfl, rfl, rfl, rfl, rfl, rfl, rfl, rfl, rfl, rfl, rfl⟩
theorem kept_completeOk (s : State) : Kept s s.completeOk :=
  ⟨rfl, rfl, rfl, rfl, rfl, rfl, rfl, rfl, rfl, rfl, rfl, rfl, rfl, rfl, rfl⟩
theorem kept_completeError (s : State) (e : ErrCode) : Kept s (s.completeError e) :=
  ⟨rfl, rfl, rfl, rfl, rfl, rfl, rfl, rfl, rfl, rfl, rfl, rfl, rfl, rfl, rfl⟩

/-- What `P` relates the start of the steps of a command to, it relates their end to. -/
def Run.Ends (r : Run) (P : State → Prop) : Prop :=
  match r with
  | .done t => P t
  | .raised e t => P t ∧ (e = .lengthMismatch ∨ e = .range ∨ e = .divisor ∨ e = .param)
  | .fault _ => True

theorem ends_encode {s : State} {P : State → Prop} (h0 : P s) (h : ∀ bs, encodeError s = none → MessageIs s bs → P (encoded s bs)) :
    (encodeSteps s).Ends P := by
  rcases encodeSteps_cases s with ⟨e, he, hr⟩ | ⟨-, -, hr⟩ | ⟨bs, he, hb, hr⟩ <;> rw [hr]
  · exact ⟨h0, by rcases encodeError_code he with rfl | rfl | rfl <;> simp⟩
  · trivial
  · exact h bs he hb

theorem ends_decode {s : State} {P : State → Prop} (h0 : P s) (h : ∀ c, decodeError s = none → CodewordIs s c → P (decoded s c)) :
    (decodeSteps s).Ends P := by
  rcases decodeSteps_cases s with ⟨e, he, hr⟩ | ⟨-, -, hr⟩ | ⟨c, he, hc, hr⟩ <;> rw [hr]
  · exact ⟨h0, by rcases decodeError_code he with rfl | rfl | rfl <;> simp⟩
  · trivial
  · exact h c he hc

theorem ends_corrupt {s : State} {k : Nat} {P : State → Prop} (h0 : P s)
    (h : corruptError s k s.regs.cwLen.toNat = none → P (corrupted s k)) : (corruptSteps k s).Ends P := by
  rcases corruptSteps_cases s k with ⟨e, he, hr⟩ | ⟨he, hr⟩ <;> rw [hr]
  · exact ⟨h0, by rcases corruptError_code he with rfl | rfl <;> simp⟩
  · exact h he

theorem ends_andThen {r : Run} {f : State → Run} {P : State → Prop} (hr : r.Ends P) (h : ∀ t, r = .done t → P t → (f t).Ends P) :
    (r.andThen f).Ends P := by
  cases r with
  | done t => exact h t rfl hr
  | raised e t => exact hr
  | fault f => trivial

/-- What ENCODE, CORRUPT and DECODE each keep, a trial keeps. -/
theorem ends_trial {s : State} {k : Nat} {P : State → Prop} (h0 : P s)
    (he : ∀ u bs, P u → encodeError u = none → MessageIs u bs → P (encoded u bs))
    (hc : ∀ u, P u → P (corrupted u k))
    (hd : ∀ u c, P u → decodeError u = none → CodewordIs u c → P (decoded u c)) : (trialAt k s).Ends P := by
  refine ends_andThen (ends_encode h0 fun bs => he s bs h0) fun t _ ht => ?_
  refine ends_andThen (ends_corrupt ht fun _ => hc t ht) fun u _ hu => ?_
  exact ends_decode hu fun c => hd u c hu

/-- What each trial keeps, a sweep keeps; a sweep that fails does so with the code a trial raised. -/
theorem ends_experiment {s : State} {P : State → Prop} (h0 : P s) (ht : ∀ k u, P u → (trialAt k u).Ends P)
    (hf : ∀ t m, P t → m ≤ s.regs.trials.toNat → P (t.setSweep m s.regs.trials.toNat))
    (hr : ∀ t k, P t → k < s.regs.trials.toNat → P (t.setSweepFailed k)) : (experimentSteps s).Ends P := by
  obtain ⟨h1, h2, -⟩ := sweep_keeps (P := P) (fun k u t hu h => by have := ht k u hu; rwa [h] at this)
    (fun k u e t hu h => by have := ht k u hu; rw [h] at this; exact this.1) s.regs.trials.toNat 0 0 h0
  unfold experimentSteps
  cases h : sweep s.regs.trials.toNat 0 0 s with
  | finished m t => exact hf t m (h1 m t h).1 (by have := (h1 m t h).2; omega)
  | failed k e t =>
    obtain ⟨a, -, b, u, hu, hk⟩ := h2 k e t h
    have := ht k u hu
    rw [hk] at this
    exact ⟨hr t k a (by omega), this.2⟩
  | fault f => trivial

/-- The steps of a command, before its completion. -/
def commandSteps (i : Instr) (s : State) : Run :=
  match i with
  | .encode => encodeSteps s
  | .decode => decodeSteps s
  | .corrupt => corruptSteps s.regs.offset.toNat s
  | .trial => trialAt s.regs.offset.toNat s
  | .experiment => experimentSteps s

theorem exec_eq (i : Instr) (s : State) : exec i s = (commandSteps i s).finish := by cases i <;> rfl

/-- Everything a command can end in. -/
theorem exec_cases (i : Instr) (s : State) :
    (∃ t, commandSteps i s = .done t ∧ exec i s = .next t.completeOk) ∨
    (∃ e t, commandSteps i s = .raised e t ∧ exec i s = .next (t.completeError e)) ∨
    exec i s = .fault .uninit := by
  rw [exec_eq]
  cases commandSteps i s with
  | done t => exact .inl ⟨t, rfl, rfl⟩
  | raised e t => exact .inr (.inl ⟨e, t, rfl, rfl⟩)
  | fault f => cases f; exact .inr (.inr rfl)

/-- What every part of a command keeps, the command keeps. -/
theorem commandSteps_ends {i : Instr} {s : State} {P : State → Prop} (h0 : P s)
    (he : ∀ u bs, P u → encodeError u = none → MessageIs u bs → P (encoded u bs))
    (hc : ∀ u k, P u → P (corrupted u k))
    (hd : ∀ u c, P u → decodeError u = none → CodewordIs u c → P (decoded u c))
    (hf : ∀ t m, P t → m ≤ s.regs.trials.toNat → P (t.setSweep m s.regs.trials.toNat))
    (hr : ∀ t k, P t → k < s.regs.trials.toNat → P (t.setSweepFailed k)) : (commandSteps i s).Ends P := by
  cases i with
  | encode => exact ends_encode h0 fun bs => he s bs h0
  | decode => exact ends_decode h0 fun c => hd s c h0
  | corrupt => exact ends_corrupt h0 fun _ => hc s _ h0
  | trial => exact ends_trial h0 he (fun u => hc u _) hd
  | experiment => exact ends_experiment h0 (fun k u hu => ends_trial hu he (fun u => hc u _) hd) hf hr

/-- A command writes none of the fields of `Kept`. -/
theorem commandSteps_kept (i : Instr) (s : State) : (commandSteps i s).Ends (Kept s) :=
  commandSteps_ends (Kept.refl s) (fun u bs h _ _ => h.trans (kept_encoded u bs)) (fun u k h => h.trans (kept_corrupted u k))
    (fun u c h _ _ => h.trans (kept_decoded u c)) (fun _ _ h _ => h.trans ⟨rfl, rfl, rfl, rfl, rfl, rfl, rfl, rfl, rfl, rfl,
      rfl, rfl, rfl, rfl, rfl⟩) fun _ _ h _ => h.trans ⟨rfl, rfl, rfl, rfl, rfl, rfl, rfl, rfl, rfl, rfl, rfl, rfl, rfl, rfl, rfl⟩

/-- What holds where the steps of a command end holds of its next state, but for the completion. -/
theorem exec_ends {i : Instr} {s t : State} {P : State → Prop} (hP : (commandSteps i s).Ends P) (h : exec i s = .next t) :
    ∃ u, P u ∧ (t = u.completeOk ∨ ∃ e, t = u.completeError e) := by
  rcases exec_cases i s with ⟨u, hu, he⟩ | ⟨e, u, hu, he⟩ | he <;> rw [he] at h
  · rw [hu] at hP; injection h with h; exact ⟨u, hP, .inl h.symm⟩
  · rw [hu] at hP; injection h with h; exact ⟨u, hP.1, .inr ⟨e, h.symm⟩⟩
  · cases h

theorem exec_kept {i : Instr} {s t : State} (h : exec i s = .next t) : Kept s t := by
  obtain ⟨u, hu, rfl | ⟨e, rfl⟩⟩ := exec_ends (commandSteps_kept i s) h
  · exact hu.trans (kept_completeOk u)
  · exact hu.trans (kept_completeError u e)

/-- A trial keeps its operands and every bit of CW above the codeword it writes. -/
structure KeptAbove (s t : State) : Prop where
  operands : SameOperands s t
  cw : ∀ j, encodedLen s ≤ j → Store.get t.mem.cw j = Store.get s.mem.cw j

theorem KeptAbove.refl (s : State) : KeptAbove s s := ⟨.refl s, fun _ _ => rfl⟩

theorem KeptAbove.trans {s t u : State} (h : KeptAbove s t) (g : KeptAbove t u) : KeptAbove s u :=
  ⟨h.operands.trans g.operands, fun j hj => (g.cw j (h.operands.encodedLen_eq ▸ hj)).trans (h.cw j hj)⟩

theorem keptAbove_encoded {s : State} {bs : List Byte} (h : encodeError s = none) (hb : MessageIs s bs) :
    KeptAbove s (encoded s bs) :=
  ⟨sameOperands_encoded s bs, fun j hj => by rw [encoded_get_cw h hb, if_neg (by omega)]⟩

theorem trialAt_keptAbove {s : State} (hp : s.params.legal) (k : Nat) : (trialAt k s).Ends (KeptAbove s) := by
  rcases trialAt_cases hp k with ⟨e, h, hr⟩ | ⟨-, -, hr⟩ | ⟨bs, e, h, hb, hc, hr⟩ | ⟨bs, h, hb, hc, hr⟩ <;> rw [hr]
  · exact ⟨.refl s, by rcases encodeError_code h with rfl | rfl | rfl <;> simp⟩
  · trivial
  · exact ⟨keptAbove_encoded h hb, by rcases corruptError_code hc with rfl | rfl <;> simp⟩
  · obtain ⟨-, hn, -, hk⟩ := corruptError_none hc
    exact ⟨sameOperands_trialed s bs k, fun j hj => by rw [trialed_get_cw h hb k hn hk, if_neg (by omega)]⟩

/-- So does a whole sweep. -/
theorem experimentSteps_keptAbove {s : State} (hp : s.params.legal) : (experimentSteps s).Ends (KeptAbove s) := by
  refine ends_experiment (.refl s) (fun k u hu => ?_) (fun t m ht _ => ?_) fun t k ht _ => ?_
  · have h := trialAt_keptAbove (s := u) (hu.operands.params ▸ hp) k
    cases hr : trialAt k u with
    | done t => rw [hr] at h; exact hu.trans h
    | raised e t => rw [hr] at h; exact ⟨hu.trans h.1, h.2⟩
    | fault f => trivial
  · exact ht.trans ⟨⟨rfl, rfl, rfl, rfl, rfl, rfl, rfl, rfl⟩, fun _ _ => rfl⟩
  · exact ht.trans ⟨⟨rfl, rfl, rfl, rfl, rfl, rfl, rfl, rfl⟩, fun _ _ => rfl⟩

/-- A sweep whose first trial faults faults. -/
theorem experimentSteps_faults {s : State} (hn : 1 ≤ s.regs.trials.toNat) (h : encodeError s = none) (hm : MessageUnset s) :
    experimentSteps s = .fault .uninit := by
  obtain ⟨n, hn⟩ : ∃ n, s.regs.trials.toNat = n + 1 := ⟨_, (Nat.succ_pred_eq_of_pos hn).symm⟩
  simp only [experimentSteps, hn, sweep, trialAt_faults 0 h hm]

/-- CORRUPT keeps every bit of CW its burst does not flip. -/
theorem corrupted_keeps_unhit {s : State} {k j : Nat} (h : burstHits s.params.gen k s.regs.burstLen.toNat j = false) :
    Store.get (corrupted s k).mem.cw j = Store.get s.mem.cw j := by
  rw [corrupted_get_cw, h]
  cases Store.get s.mem.cw j <;> simp

/-- How a command ends, by its STATUS. -/
theorem exec_status {i : Instr} {s t : State} (h : exec i s = .next t) :
    t.eng = .idle ∧ t.status.done = true ∧
      ((t.status.err = false ∧ t.status.errCode = .noError) ∨
        (t.status.err = true ∧ (t.status.errCode = .lengthMismatch ∨ t.status.errCode = .range ∨
          t.status.errCode = .divisor ∨ t.status.errCode = .param))) := by
  have hk := commandSteps_kept i s
  rcases exec_cases i s with ⟨u, hu, he⟩ | ⟨e, u, hu, he⟩ | he <;> rw [he] at h
  · injection h with h; subst h; exact ⟨rfl, rfl, .inl ⟨rfl, rfl⟩⟩
  · rw [hu] at hk; injection h with h; subst h; exact ⟨rfl, rfl, .inr ⟨rfl, hk.2⟩⟩
  · cases h

/-- Everything the engine's turn can do. -/
theorem engineStep_cases (s : State) :
    engineStep s = .next s ∨
    (s.rst = false ∧ ∃ w i, s.eng = .busy w ∧ decodeWord w = .command i ∧ engineStep s = exec i s) ∨
    (s.rst = false ∧ ∃ w r, s.eng = .busy w ∧ decodeWord w = .illegal r ∧
      engineStep s = .next (s.completeError .illegalCmd)) := by
  unfold engineStep
  by_cases hr : s.rst = true
  · left; simp [hr]
  · have hr' : s.rst = false := by simpa using hr
    simp only [hr', Bool.false_eq_true, if_false, true_and]
    cases he : s.eng with
    | idle => exact .inl rfl
    | busy w =>
      cases hd : decodeWord w with
      | command i => exact .inr (.inl ⟨w, i, rfl, hd, by simp only [hd]⟩)
      | illegal r => exact .inr (.inr ⟨w, r, rfl, hd, by simp only [hd]⟩)

/-- Everything a step of the machine can do. -/
theorem step_cases (s : State) :
    (s.inputs = [] ∧ step s = engineStep s) ∨
    (∃ rest, s.inputs = .engine :: rest ∧ step s = engineStep { s with inputs := rest }) ∨
    (∃ a rest, s.inputs = .host a :: rest ∧ step s = .next (portStep a { s with inputs := rest })) ∨
    (∃ b rest, s.inputs = .rst b :: rest ∧ step s = .next (resetLevel b { s with inputs := rest })) := by
  unfold step moveNext inputStep
  cases h : s.inputs with
  | nil => exact .inl ⟨rfl, rfl⟩
  | cons i rest =>
    cases i with
    | host a => exact .inr (.inr (.inl ⟨a, rest, rfl, rfl⟩))
    | engine => exact .inr (.inl ⟨rest, rfl, rfl⟩)
    | rst b => exact .inr (.inr (.inr ⟨b, rest, rfl, rfl⟩))

end Sys2Proof.Machine
end

