-- ==== Sys2Proof/Laws/PerInstr.lean ====
section
/-! SUPPORT. What is said of every command as syntax, one lemma for each. -/

/-- The command's word decodes to it, and the word is well-formed (30_encoding.md R111, R113). -/
def Sys2Proof.Laws.RoundTrip.Statement (i : Sys2Proof.Instr) : Prop :=
  i.wellFormed = true ∧ Sys2Proof.cmdWordWellFormed (Sys2Proof.encode i) = true ∧
    Sys2Proof.decodeWord (Sys2Proof.encode i) = .command i

theorem Sys2Proof.Laws.RoundTrip.encode : Sys2Proof.Laws.RoundTrip.Statement .encode := ⟨rfl, by decide, by decide⟩
theorem Sys2Proof.Laws.RoundTrip.decode : Sys2Proof.Laws.RoundTrip.Statement .decode := ⟨rfl, by decide, by decide⟩
theorem Sys2Proof.Laws.RoundTrip.corrupt : Sys2Proof.Laws.RoundTrip.Statement .corrupt := ⟨rfl, by decide, by decide⟩
theorem Sys2Proof.Laws.RoundTrip.trial : Sys2Proof.Laws.RoundTrip.Statement .trial := ⟨rfl, by decide, by decide⟩
theorem Sys2Proof.Laws.RoundTrip.experiment : Sys2Proof.Laws.RoundTrip.Statement .experiment := ⟨rfl, by decide, by decide⟩
end

