-- ==== Sys2Proof/Laws/Poly.lean ====
section
/-! SUPPORT. Streams as polynomials over GF(2), index 0 the highest power (41_crc_engine.md, section 1): the kernel's result
differs from its dividend by a multiple of the divisor. -/

namespace Sys2Proof.Machine

open Polynomial

/-- A stream as a polynomial over GF(2). -/
noncomputable def polyOf : Bits → (ZMod 2)[X]
  | [] => 0
  | b :: s => (if b = true then X ^ s.length else 0) + polyOf s

theorem polyOf_coeff (s : Bits) (k : Nat) :
    (polyOf s).coeff k = if k < s.length ∧ s.getD (s.length - 1 - k) false = true then 1 else 0 := by
  induction s with
  | nil => simp [polyOf]
  | cons b s ih =>
    simp only [polyOf, coeff_add, ih, List.length_cons]
    rcases Nat.lt_trichotomy k s.length with h | h | h
    · have e : (b :: s).getD (s.length - k) false = s.getD (s.length - 1 - k) false := by
        rw [show s.length - k = (s.length - 1 - k) + 1 by omega]; rfl
      have : (if b = true then (X : (ZMod 2)[X]) ^ s.length else 0).coeff k = 0 := by
        split
        · rw [coeff_X_pow, if_neg (by omega)]
        · simp
      simp only [this, zero_add, Nat.add_sub_cancel, e, h, (by omega : k < s.length + 1)]
    · subst h
      cases b <;> simp
    · have : (if b = true then (X : (ZMod 2)[X]) ^ s.length else 0).coeff k = 0 := by
        split
        · rw [coeff_X_pow, if_neg (by omega)]
        · simp
      rw [this, if_neg (by omega), if_neg (by omega), add_zero]

theorem polyOf_append (a b : Bits) : polyOf (a ++ b) = polyOf a * X ^ b.length + polyOf b := by
  induction a with
  | nil => simp [polyOf]
  | cons x a ih =>
    simp only [List.cons_append, polyOf, ih, List.length_append]
    split <;> ring

theorem polyOf_zeros (n : Nat) : polyOf (zeros n) = 0 := by
  ext k
  rw [polyOf_coeff, zeros_getD]
  simp

theorem polyOf_inj {a b : Bits} (h : a.length = b.length) (hp : polyOf a = polyOf b) : a = b := by
  refine bits_ext h fun i hi => ?_
  have hk := congrArg (fun p => p.coeff (a.length - 1 - i)) hp
  simp only [polyOf_coeff] at hk
  rw [show a.length - 1 - (a.length - 1 - i) = i by omega, show b.length - 1 - (a.length - 1 - i) = i by omega] at hk
  simp only [(by omega : a.length - 1 - i < a.length), (by omega : a.length - 1 - i < b.length), true_and] at hk
  cases ha : a.getD i false <;> cases hb : b.getD i false <;> simp_all

theorem polyOf_xor (a b : Bits) (h : a.length = b.length) : polyOf (xorBits a b) = polyOf a + polyOf b := by
  ext k
  rw [coeff_add, polyOf_coeff, polyOf_coeff, polyOf_coeff, xorBits_getD a b h, xorBits_length, ← h, Nat.min_self]
  by_cases hk : k < a.length
  · cases a.getD (a.length - 1 - k) false <;> cases b.getD (a.length - 1 - k) false <;>
      simp [hk, CharTwo.add_self_eq_zero]
  · simp [hk]

theorem polyOf_degree_lt (s : Bits) : (polyOf s).degree < s.length := by
  rw [degree_lt_iff_coeff_zero]
  intro m hm
  rw [polyOf_coeff, if_neg (by omega)]

theorem polyOf_drop_head {s : Bits} (h : s.headD false = false) : polyOf (s.drop 1) = polyOf s := by
  cases s with
  | nil => rfl
  | cons b s => simp only [List.headD_cons] at h; subst h; simp [polyOf]

theorem polyOf_monic {d : Bits} (hd : d.headD false = true) : (polyOf d).Monic := by
  cases d with
  | nil => simp at hd
  | cons b d =>
    simp only [List.headD_cons] at hd; subst hd
    simp only [polyOf, if_true]
    exact monic_X_pow_add (polyOf_degree_lt d)

theorem polyOf_degree {d : Bits} (hd : d.headD false = true) : (polyOf d).degree = (d.length - 1 : Nat) := by
  cases d with
  | nil => simp at hd
  | cons b d =>
    simp only [List.headD_cons] at hd; subst hd
    simp only [polyOf, if_true, List.length_cons, Nat.add_sub_cancel]
    rw [degree_add_eq_left_of_degree_lt (by rw [degree_X_pow]; exact polyOf_degree_lt d), degree_X_pow]

theorem reduceBits_headD {d rem : Bits} (hd : d.headD false = true) (h : rem.length = d.length) :
    (reduceBits d rem).headD false = false := by
  simp only [reduceBits]
  split
  · rename_i hr; rw [xorBits_headD _ _ h, hd, hr]; rfl
  · rename_i hr; simpa using hr

theorem reduceBits_poly {d rem : Bits} (h : rem.length = d.length) :
    ∃ q : (ZMod 2)[X], polyOf rem = q * polyOf d + polyOf (reduceBits d rem) := by
  simp only [reduceBits]
  split
  · refine ⟨1, ?_⟩
    rw [polyOf_xor _ _ h, one_mul, add_left_comm, CharTwo.add_self_eq_zero, add_zero]
  · exact ⟨0, by simp⟩

/-- The loop keeps `rem ++ rest` fixed up to a multiple of the divisor, and clears the leading bit. -/
theorem divideBits_poly {d : Bits} (hd : d.headD false = true) (rest : Bits) {rem : Bits} (h : rem.length = d.length) :
    (∃ q : (ZMod 2)[X], polyOf (rem ++ rest) = q * polyOf d + polyOf (divideBits d rem rest)) ∧
      (divideBits d rem rest).headD false = false := by
  have h1 : 1 ≤ d.length := by cases d with
    | nil => simp at hd
    | cons => simp
  induction rest generalizing rem with
  | nil =>
    rw [List.append_nil]
    exact ⟨reduceBits_poly h, reduceBits_headD hd h⟩
  | cons b rest ih =>
    have hl := reduceBits_length h
    obtain ⟨⟨q, hq⟩, hh⟩ := ih (rem := bringDown (reduceBits d rem) b) (by rw [bringDown_length b (by omega), hl])
    refine ⟨?_, hh⟩
    obtain ⟨q', hq'⟩ := reduceBits_poly h
    refine ⟨q + q' * X ^ (rest.length + 1), ?_⟩
    have hz := polyOf_drop_head (reduceBits_headD hd h)
    rw [show bringDown (reduceBits d rem) b ++ rest = (reduceBits d rem).drop 1 ++ ([b] ++ rest) by
      rw [bringDown_eq, List.append_assoc], polyOf_append, hz] at hq
    simp only [List.singleton_append, List.length_cons] at hq
    rw [polyOf_append, hq']
    simp only [List.length_cons]
    rw [divideBits, add_mul, add_mul, add_assoc, hq]
    ring

/-- The remainder of the kernel is the remainder of the polynomials. -/
theorem polyOf_remainderBits {dividend d : Bits} (hd : d.headD false = true) (hL : d.length ≤ dividend.length) :
    polyOf (remainderBits dividend d) = polyOf dividend %ₘ polyOf d := by
  have h1 : 1 ≤ d.length := by cases d with
    | nil => simp at hd
    | cons => simp
  have hl : (dividend.take d.length).length = d.length := by simp [hL]
  obtain ⟨⟨q, hq⟩, hh⟩ := divideBits_poly hd (dividend.drop d.length) hl
  rw [List.take_append_drop] at hq
  have hr : polyOf (remainderBits dividend d) = polyOf (divideBits d (dividend.take d.length) (dividend.drop d.length)) :=
    polyOf_drop_head hh
  have hdeg : (polyOf (remainderBits dividend d)).degree < (polyOf d).degree := by
    rw [polyOf_degree hd]
    have := polyOf_degree_lt (remainderBits dividend d)
    rwa [remainderBits_length h1 hL] at this
  refine ((div_modByMonic_unique q _ (polyOf_monic hd) ⟨?_, hdeg⟩).2).symm
  rw [hr, hq]; ring

/-- A remainder is all zero iff the divisor's polynomial divides the dividend's. -/
theorem remainderBits_eq_zeros {dividend d : Bits} (hd : d.headD false = true) (hL : d.length ≤ dividend.length) :
    remainderBits dividend d = zeros (d.length - 1) ↔ polyOf d ∣ polyOf dividend := by
  have h1 : 1 ≤ d.length := by cases d with
    | nil => simp at hd
    | cons => simp
  rw [← modByMonic_eq_zero_iff_dvd (polyOf_monic hd), ← polyOf_remainderBits hd hL]
  constructor
  · intro h; rw [h, polyOf_zeros]
  · intro h
    exact polyOf_inj (by rw [remainderBits_length h1 hL]; simp) (by rw [h, polyOf_zeros])

end Sys2Proof.Machine
end

