-- ==== Sys2Proof/Laws/Windows.lean ====
section
/-! SUPPORT. The packing of window words: a word read bit by bit, and a bit array after a window write. -/

namespace Sys2Proof.Machine

theorem bitsFold_add (bs : Bits) (n : Nat) : bs.foldl (fun n (b : Bool) => 2 * n + b.toNat) n =
      n * 2 ^ bs.length + bs.foldl (fun n (b : Bool) => 2 * n + b.toNat) 0 := by
  induction bs generalizing n with
  | nil => simp
  | cons b bs ih =>
    rw [List.foldl_cons, List.foldl_cons, ih (2 * n + b.toNat), ih (2 * 0 + b.toNat), List.length_cons, pow_succ]; ring

theorem bitsFold_lt (bs : Bits) : bs.foldl (fun n (b : Bool) => 2 * n + b.toNat) 0 < 2 ^ bs.length := by
  induction bs with
  | nil => simp
  | cons b bs ih =>
    rw [List.foldl_cons, bitsFold_add, List.length_cons, pow_succ]
    have := b.toNat_le
    have : b.toNat * 2 ^ bs.length ≤ 1 * 2 ^ bs.length := Nat.mul_le_mul_right _ this
    simp only [Nat.mul_zero, Nat.zero_add]; omega

theorem bitsFold_testBit (bs : Bits) (k : Nat) (hk : k < bs.length) :
    (bs.foldl (fun n (b : Bool) => 2 * n + b.toNat) 0).testBit (bs.length - 1 - k) = bs.getD k false := by
  induction bs generalizing k with
  | nil => simp at hk
  | cons b bs ih =>
    rw [List.foldl_cons, bitsFold_add]
    simp only [Nat.mul_zero, Nat.zero_add]
    rw [Nat.mul_comm, Nat.testBit_two_pow_mul_add _ (bitsFold_lt bs)]
    cases k with
    | zero =>
      simp only [List.length_cons]
      rw [if_neg (by omega)]
      cases b <;> simp
    | succ k =>
      simp only [List.length_cons] at *
      rw [if_pos (by omega), show bs.length + 1 - 1 - (k + 1) = bs.length - 1 - k by omega, ih k (by omega)]
      rfl

/-- Bit 31 - k of a packed word is bit k of the stream. -/
theorem wordOfBits_bit (bs : Bits) (h : bs.length = 32) (k : Nat) (hk : k < 32) :
    (wordOfBits bs).getLsbD (31 - k) = bs.getD k false := by
  rw [wordOfBits, BitVec.getLsbD_ofNat, ← bitsFold_testBit bs k (by omega), h,
    show (32 - 1 - k) = 31 - k by omega, show decide (31 - k < 32) = true by simp; omega, Bool.true_and]

/-- A bit with a value is read as it is. -/
theorem fillDraws_bit (cells : List (Option Bool)) (h : cells.length = 32) (d : Word) (k : Nat) (hk : k < 32) (b : Bool)
    (hb : cells[k]? = some (some b)) : (fillDraws cells d).getLsbD (31 - k) = b := by
  rw [fillDraws, wordOfBits_bit _ (by simp [h, wordBits]) k hk, List.getD, List.getElem?_zipWith, hb]
  have : (wordBits d)[k]? = some (d.getLsbD (31 - k)) := by simp [wordBits, hk]
  rw [this]; rfl

theorem windowCells_get (f : Nat → Option Bool) (cap w k : Nat) (hk : k < 32) :
    (windowCells f cap w)[k]? = some (if 32 * w + k < cap then f (32 * w + k) else some false) := by
  simp [windowCells, hk]

theorem windowCells_length (f : Nat → Option Bool) (cap w : Nat) : (windowCells f cap w).length = 32 := by simp [windowCells]

/-- A read of a window word while idle. -/
theorem portRead_window {s : State} {t : Target} (hb : s.busy = false) (hw : ∀ r, t ≠ .reg r) :
    ∃ d n, portRead s t = { s with resp := some (.okRead (fillDraws (targetCells s t) d)), draws := n } ∧
      ((targetCells s t).any Option.isNone = false → n = s.draws) := by
  unfold portRead
  simp only [hb, Bool.false_and, Bool.false_eq_true, if_false]
  cases t with
  | reg r => exact absurd rfl (hw r)
  | _ =>
    simp only
    split
    · rename_i h; exact ⟨_, s.draws + 1, rfl, fun h' => by simp [h] at h'⟩
    · exact ⟨_, s.draws, rfl, fun _ => rfl⟩

/-- A mapped target's own address is aligned. -/
theorem portOffset_aligned {s : State} (hp : s.params.legal) {t : Target} (ht : t.mapped s.params) :
    (BitVec.ofNat 18 t.portOffset).toNat % 4 = 0 := by
  have := (portTarget_offset hp ht).2; simpa [accessLegal] using this

theorem wordBits_take_getElem? (v : Word) (n i : Nat) (h : i < n) (h2 : i < 32) :
    ((wordBits v).take n)[i]? = some (v.getLsbD (31 - i)) := by
  simp [wordBits, h, h2]

/-- A bit of a bit array after a window write. -/
theorem get_windowWrite (m : Store Bool) (w cap j : Nat) (v : Word) (hw : 32 * w < cap) :
    Store.get (Store.write m (32 * w) ((wordBits v).take (cap - 32 * w))) j =
    if j / 32 = w ∧ j < cap then some (v.getLsbD (31 - j % 32)) else Store.get m j := by
  rw [Store.get_write]
  have hl : ((wordBits v).take (cap - 32 * w)).length = min (cap - 32 * w) 32 := by simp [wordBits]
  rw [hl]
  by_cases h : j / 32 = w ∧ j < cap
  · rw [if_pos h, if_pos (by omega), wordBits_take_getElem? _ _ _ (by omega) (by omega)]
    rw [show j - 32 * w = j % 32 by omega]
  · rw [if_neg h, if_neg (by omega)]

end Sys2Proof.Machine
end

