-- ==== Sys2Proof/Tests/Slice0.lean ====
section
/-! SUPPORT. Tests of the model against the spec's vectors (95_test_vectors.md), and a witness for the hypotheses of every
obligation that has some. -/

namespace Sys2Proof.Tests
open Sys2Proof.Machine

/-! ### Helpers -/

/-- A small block with the reference generator: 5 message bytes, 34 divisor bits, so every window has a partly backed word. -/
abbrev block : Params := { msgMaxBytes := 5, polyMax := 34, blockBase := 0, gen := .reference }

/-- It right after reset. -/
abbrev fresh : State := .resetWith block

/-- Bits written as 0 and 1. -/
def bits (l : List Nat) : Bits := l.map fun n => n == 1

/-- The state a step ends in, if it is a next state. -/
def ended : Host.Outcome State Fault Refusal → Option State
  | .next t => some t
  | .fault _ => none
  | .refused _ => none

/-- Whether a step ends in the model fault. -/
def faulted : Host.Outcome State Fault Refusal → Bool
  | .fault .uninit => true
  | .next _ => false
  | .refused _ => false

/-- The codeword of vector V20: "A" under "11111". -/
def cwA : Bits := bits [0, 1, 0, 0, 0, 0, 0, 1, 1, 1, 1, 0]

/-- MSG holds "A", CW the codeword of V20. -/
abbrev loaded : State :=
  { fresh with
    regs := { fresh.regs with msgLen := 1, cwLen := 12, burstLen := 4 }
    mem := { fresh.mem with msg := [(0, 0x41#8)], cw := Store.numbered 0 cwA } }

/-- What a test looks at after a command: CW[0 .. 12), CW_LEN, REM[0 .. 4), STATUS. -/
def view (t : State) : Option Bits × Nat × Bits × Nat :=
  (Store.readAll t.mem.cw 0 12, t.regs.cwLen.toNat, (List.range 4).map (Store.bit t.mem.rem), (regWord t .status).toNat)

/-- The response to an access. -/
def answer (a : Access) (s : State) : Option Response := (portStep a s).resp

/-! ### Well-formedness: an ill-formed term for each check -/

theorem test_rsvd_refused : rsvdZero 0x00000011#32 = false ∧ rsvdZero 0x80000005#32 = false := by decide
theorem test_op_refused : opAssigned 0x00000000#32 = false ∧ opAssigned 0x00000006#32 = false ∧ opAssigned 0x0000000F#32 = false := by
  decide
theorem test_word_refused : cmdWordWellFormed 0x00000011#32 = false ∧ cmdWordWellFormed 0x00000006#32 = false := by decide
theorem test_word_accepted : cmdWordWellFormed 0x00000001#32 = true ∧ cmdWordWellFormed 0x00000005#32 = true := by decide
theorem test_divisor_refused :
    divisorWellFormed block [] = false ∧ divisorWellFormed block (bits [0, 1, 1, 1, 1]) = false ∧
      divisorWellFormed block (List.replicate 35 true) = false := by decide
theorem test_message_refused :
    messageWellFormed block [] = false ∧ messageWellFormed block (List.replicate 6 0x41#8) = false := by decide

/-! ### Decoding: words written out from 30_encoding.md R110, R111 -/

theorem test_decode_encode : decodeWord 0b00000000000000000000000000000001#32 = .command .encode := by decide
theorem test_decode_decode : decodeWord 0b00000000000000000000000000000010#32 = .command .decode := by decide
theorem test_decode_corrupt : decodeWord 0b00000000000000000000000000000011#32 = .command .corrupt := by decide
theorem test_decode_trial : decodeWord 0b00000000000000000000000000000100#32 = .command .trial := by decide
theorem test_decode_experiment : decodeWord 0b00000000000000000000000000000101#32 = .command .experiment := by decide
/-- V91 to V94. -/
theorem test_decode_illegal :
    decodeWord 0x00000000#32 = .illegal .unassignedOp ∧ decodeWord 0x00000006#32 = .illegal .unassignedOp ∧
      decodeWord 0x0000000F#32 = .illegal .unassignedOp ∧ decodeWord 0x00000011#32 = .illegal .reservedBits ∧
      decodeWord 0x80000005#32 = .illegal .reservedBits := by decide
theorem test_table_word :
    decodeTableWord 32 1 = some .encode ∧ decodeTableWord 32 5 = some .experiment ∧ decodeTableWord 32 0 = none := by decide

/-! ### Commands -/

/-- V20. -/
theorem test_encode_v20 :
    (ended (exec .encode { loaded with mem := { loaded.mem with cw := [] } })).map view =
      some (some cwA, 12, bits [1, 1, 1, 0], 0x2) := by decide
/-- V63: the divisor check comes before the message length. -/
theorem test_encode_v63 :
    (ended (exec .encode { loaded with regs := { loaded.regs with lenCrc := 3, msgLen := 0 } })).map view =
      some (some cwA, 12, bits [0, 0, 0, 0], 0x106) := by decide
/-- V40. -/
theorem test_decode_v40 : (ended (exec .decode loaded)).map view = some (some cwA, 12, bits [0, 0, 0, 0], 0xA) := by decide
/-- V41: bits 0 and 3 flipped. -/
theorem test_decode_v41 :
    (ended (exec .decode { loaded with mem := { loaded.mem with
      cw := Store.numbered 0 (bits [1, 1, 0, 1, 0, 0, 0, 1, 1, 1, 1, 0]) } })).map view =
      some (some (bits [1, 1, 0, 1, 0, 0, 0, 1, 1, 1, 1, 0]), 12, bits [1, 0, 1, 0], 0x2) := by decide
/-- V37: a repeated position is flipped once. -/
theorem test_corrupt_v37 :
    (ended (exec .corrupt { loaded with regs := { loaded.regs with offset := 7 } })).map view =
      some (some (bits [0, 1, 0, 0, 0, 0, 0, 0, 1, 0, 0, 0]), 12, bits [0, 0, 0, 0], 0x2) := by decide
/-- V72: no wrap. -/
theorem test_corrupt_v72 :
    (ended (exec .corrupt { loaded with regs := { loaded.regs with offset := 0xFFFFFFFF, burstLen := 2 } })).map view =
      some (some cwA, 12, bits [0, 0, 0, 0], 0x206) := by decide
/-- V81: a miss. -/
theorem test_trial_v81 :
    (ended (exec .trial { loaded with regs := { loaded.regs with offset := 4, burstLen := 6 } })).map view =
      some (some (bits [0, 1, 0, 0, 1, 0, 0, 1, 1, 0, 1, 0]), 12, bits [0, 0, 0, 0], 0xA) := by decide
/-- V83: the CORRUPT step raises, ENCODE's results stay. -/
theorem test_trial_v83 :
    (ended (exec .trial { loaded with regs := { loaded.regs with offset := 9 }, mem := { loaded.mem with cw := [] } })).map view =
      some (some cwA, 12, bits [1, 1, 1, 0], 0x206) := by decide
/-- The sweep of 95_test_vectors.md, part 5, n = 8: 5 trials, one miss, the last one. -/
theorem test_experiment_n8 :
    (ended (exec .experiment { loaded with regs := { loaded.regs with burstLen := 8, trials := 5 } })).map
        (fun t => (t.regs.missed.toNat, t.regs.total.toNat, t.regs.failOffset.toNat, (regWord t .status).toNat)) =
      some (1, 5, 0, 0xA) := by decide
/-- The same with one trial too many: it fails at offset 5, and CLEAN stays as trial 4 left it (43_validator.md R223). -/
theorem test_experiment_n8_fails :
    (ended (exec .experiment { loaded with regs := { loaded.regs with burstLen := 8, trials := 6 } })).map
        (fun t => (t.regs.missed.toNat, t.regs.total.toNat, t.regs.failOffset.toNat, (regWord t .status).toNat)) =
      some (0, 0, 5, 0x20E) := by decide
/-- V114, V115: an operand with no value. -/
theorem test_uninit_v114 : faulted (exec .decode { fresh with regs := { fresh.regs with cwLen := 12 } }) = true := by decide
theorem test_uninit_v115 : faulted (exec .encode { fresh with regs := { fresh.regs with msgLen := 1 } }) = true := by decide

/-! ### The port (95_test_vectors.md, part 7) -/

/-- V100 to V105. -/
theorem test_port_reset_values :
    answer (.read 0x00000#18 .word) fresh = some (.okRead 0x43524301#32) ∧
      answer (.read 0x00038#18 .word) fresh = some (.okRead 0x000003E8#32) ∧
      answer (.read 0x00400#18 .word) fresh = some (.okRead 0xF8000000#32) ∧
      answer (.read 0x00800#18 .word) fresh = some (.okRead 0x00000000#32) := by decide
/-- V107 to V109. -/
theorem test_port_errors :
    answer (.read 0x00014#18 .byte) fresh = some .error ∧ answer (.read 0x00022#18 .word) fresh = some .error ∧
      answer (.read 0x0000C#18 .word) fresh = some .error ∧ answer (.read 0x00048#18 .word) fresh = some .error ∧
      answer (.read 0x00C00#18 .word) fresh = some .error := by decide
/-- V110. -/
theorem test_port_message_lanes :
    (portStep (.write 0x10000#18 .word 0x41424344#32) fresh).mem.msg = [(0, 0x41#8), (1, 0x42#8), (2, 0x43#8), (3, 0x44#8)] ∧
      answer (.read 0x10000#18 .word) (portStep (.write 0x10000#18 .word 0x41424344#32) fresh) =
        some (.okRead 0x41424344#32) := by decide
/-- V118. -/
theorem test_port_ctrl :
    answer (.read 0x0003C#18 .word) (portStep (.write 0x0003C#18 .word 0xFFFFFFFF#32) fresh) = some (.okRead 1#32) := by decide
/-- V116: CLEAN is kept. -/
theorem test_port_status_clear :
    (regWord (portStep (.write 0x00014#18 .word 0x00000016#32)
      { fresh with status := { done := true, err := true, clean := true, ovr := false, errCode := .range } }) .status) = 0x8#32 := by
  decide
/-- V120, outcome B: the write is dropped. -/
theorem test_port_busy_write :
    (portStep (.write 0x00028#18 .word 2#32) (loaded.issue 1)).regs.msgLen = 1 ∧
      (portStep (.write 0x00028#18 .word 2#32) (loaded.issue 1)).status.ovr = true := by decide

/-! ### Running and host programs -/

/-- The first step from reset with a command placed runs it: ENCODE with MSG_LEN 0 raises RANGE (P4, steps 1 and 2). -/
theorem test_first_step :
    (ended (step (State.withFetchWord fresh 32 1))).map (fun t => (regWord t .status).toNat) = some 0x206 := by decide
/-- P6, step 1 to 3, one input a step: W CW[0]; W CW_LEN; CMD DECODE; the engine's turn. -/
theorem test_host_run :
    hostRun .decode 0 = [.host (.write 0x00010#18 .word 2#32), .engine, .host (.read 0x00014#18 .word)] := by decide
/-- P5, step 1: SETPOLY "100000111". -/
theorem test_host_setpoly :
    hostSetPoly (bits [1, 0, 0, 0, 0, 0, 1, 1, 1]) =
      [.host (.write 0x00400#18 .word 0x83800000#32), .host (.write 0x00020#18 .word 9#32),
        .host (.write 0x00024#18 .word 8#32)] := by decide
/-- P5, step 2, shortened to its last two words: LOADMSG. -/
theorem test_host_loadmsg :
    hostLoadMsg [0x35#8, 0x36#8, 0x37#8, 0x38#8, 0x39#8] =
      [.host (.write 0x10000#18 .word 0x35363738#32), .host (.write 0x10004#18 .word 0x39000000#32),
        .host (.write 0x00028#18 .word 5#32)] := by decide

/-! ### Witnesses: for each obligation with hypotheses, states and operands that meet them, clause by clause -/

/-- The next state of a step that has one. -/
theorem of_ended {o : Host.Outcome State Fault Refusal} (h : (ended o).isSome = true) : ∃ t, o = .next t := by
  cases o with
  | next t => exact ⟨t, rfl⟩
  | fault f => cases h
  | refused r => cases h

/-- The same, with a property of the next state. -/
theorem of_ended_with {o : Host.Outcome State Fault Refusal} (f : State → Bool) (h : (ended o).any f = true) :
    ∃ t, o = .next t ∧ f t = true := by
  cases o with
  | next t => exact ⟨t, rfl, h⟩
  | fault f => cases h
  | refused r => cases h

/-- Whether the steps of a command raised RANGE. -/
def raisedRange : Run → Bool
  | .raised e _ => e == .range
  | .done _ => false
  | .fault _ => false

theorem of_raisedRange {r : Run} (h : raisedRange r = true) : ∃ v, r = .raised .range v := by
  cases r with
  | done v => cases h
  | fault f => cases h
  | raised e v => exact ⟨v, by rw [beq_iff_eq.1 h]⟩

abbrev busyWith (w : Word) : State := { loaded with eng := .busy w }
abbrev failed : State := { loaded with status := { loaded.status with done := true, err := true, errCode := .range } }
abbrev noMsg : State := { loaded with mem := { loaded.mem with msg := [] } }
abbrev noMsg1 : State := { noMsg with regs := { noMsg.regs with trials := 1 } }
abbrev noCw : State := { loaded with mem := { loaded.mem with cw := [] } }
abbrev inReset : State := { loaded with rst := true }
abbrev given (s : State) (i : Input) : State := { s with inputs := [i] }
abbrev sweep8 : State := { loaded with regs := { loaded.regs with burstLen := 4, trials := 9 } }
abbrev sweepTooLong : State := { loaded with regs := { loaded.regs with burstLen := 4, trials := 10 } }

theorem message_loaded : MessageIs loaded [0x41#8] := ⟨rfl, by decide⟩
theorem codeword_loaded : CodewordIs loaded cwA := ⟨rfl, by decide⟩
theorem message_unset : MessageUnset noMsg := ⟨0, by decide, rfl⟩
theorem codeword_unset : CodewordUnset noCw := ⟨11, by decide, rfl⟩
theorem inv_loaded : State.Inv loaded := ⟨by decide, by decide, by decide, by decide, by decide, by decide, by decide⟩
theorem inv_failed : State.Inv failed := ⟨by decide, by decide, by decide, by decide, by decide, by decide, by decide⟩

theorem witness_IllegalWordsCompleteWithIllegalCmd :
    (0x00000000#32).toNat % 16 = 0 ∧ 6 ≤ (0x00000006#32).toNat % 16 ∧ 6 ≤ (0x0000000F#32).toNat % 16 ∧
      (0x00000011#32).toNat / 16 ≠ 0 ∧ loaded.rst = false ∧ loaded.eng = .idle ∧
      (busyWith 0x00000006#32).rst = false ∧ (busyWith 0x00000006#32).eng = .busy 0x00000006#32 := by decide

theorem witness_StepRunsThePendingCommand :
    (busyWith 2).rst = false ∧ (busyWith 2).eng = .busy 2 ∧ decodeWord 2 = .command .decode ∧ (busyWith 2).inputs = [] ∧
      (given (busyWith 2) .engine).inputs = .engine :: [] := by decide

theorem witness_StepTakesTheHeadInput :
    (given loaded (.host (.read 0x00014#18 .word))).inputs = .host (.read 0x00014#18 .word) :: [] ∧
      (given loaded (.rst true)).inputs = .rst true :: [] ∧ (given loaded .engine).inputs = .engine :: [] ∧
      (given loaded .engine).eng = .idle ∧ loaded.inputs = [] ∧ loaded.eng = .idle := by decide

theorem witness_ResetInputAbandonsAndRestores :
    inReset.rst = true ∧ (∃ t, inputStep .engine (busyWith 2) = .next t) ∧
      (∃ t, inputStep (.host (.read 0x00014#18 .word)) (busyWith 2) = .next t) ∧
      (∀ b, Input.engine ≠ .rst b) ∧ ∀ b, Input.host (.read 0x00014#18 .word) ≠ .rst b :=
  ⟨rfl, of_ended (by decide), of_ended (by decide), by simp, by simp⟩

theorem witness_InvariantHoldsAtReset :
    Params.legal ⟨1, 5, 0, .reference⟩ ∧ Params.legal ⟨65536, 8192, 0, .implementation⟩ := by decide

theorem witness_StepKeepsInvariant :
    State.Inv (given loaded (.host (.write 0x00010#18 .word 4))) ∧
      ∃ t, step (given loaded (.host (.write 0x00010#18 .word 4))) = .next t :=
  ⟨⟨by decide, by decide, by decide, by decide, by decide, by decide, by decide⟩, of_ended (by decide)⟩

theorem witness_StatusWordLayout :
    (5 ≤ 5 ∧ 5 ≤ 7) ∧ (5 ≤ 7 ∧ 7 ≤ 7) ∧ 12 ≤ 12 ∧ 12 ≤ 31 ∧
      (0x00000010#32).getLsbD 1 = (0xFFFFFFF9#32).getLsbD 1 ∧ (0x00000010#32).getLsbD 2 = (0xFFFFFFF9#32).getLsbD 2 ∧
      (0x00000010#32).getLsbD 4 = (0xFFFFFFF9#32).getLsbD 4 := by decide

theorem witness_BusyChangesOnlyAtIssueCompletionOrReset :
    (∃ t, exec .corrupt loaded = .next t) ∧
      (∃ t, inputStep (.host (.write 0x00010#18 .word 4)) loaded = .next t ∧ (t.busy != loaded.busy) = true) ∧
      (∃ t, inputStep .engine (busyWith 2) = .next t ∧ (t.busy != (busyWith 2).busy) = true) ∧
      (∃ t, inputStep (.rst true) (busyWith 2) = .next t ∧ (t.busy != (busyWith 2).busy) = true) :=
  ⟨of_ended (by decide), of_ended_with _ (by decide), of_ended_with _ (by decide), of_ended_with _ (by decide)⟩

theorem witness_DoneAndErrFollowIssueCompletionAndClear :
    (∃ t, exec .decode loaded = .next t) ∧ failed.rst = false ∧ (0x00000004#32).getLsbD 2 = true ∧
      (∃ t, inputStep (.host (.write 0x00010#18 .word 4)) failed = .next t ∧ (t.status.done != failed.status.done) = true) ∧
      (∃ t, inputStep .engine (busyWith 2) = .next t ∧ (t.status.done != (busyWith 2).status.done) = true) ∧
      (∃ t, inputStep (.host (.write 0x00014#18 .word 4)) failed = .next t ∧ (t.status.err != failed.status.err) = true) ∧
      (∃ t, inputStep (.rst true) failed = .next t ∧ (t.status.err != failed.status.err) = true) :=
  ⟨of_ended (by decide), rfl, by decide, of_ended_with _ (by decide), of_ended_with _ (by decide),
    of_ended_with _ (by decide), of_ended_with _ (by decide)⟩

theorem witness_CleanSaysTheRemainderIsZero :
    (∃ t, inputStep .engine (busyWith 2) = .next t ∧ (t.status.clean != (busyWith 2).status.clean) = true) ∧
      (∃ t, exec .decode loaded = .next t ∧ (t.status.err == false) = true) ∧
      (∃ t, exec .decode { loaded with regs := { loaded.regs with cwLen := 4 } } = .next t ∧ (t.status.err == true) = true) ∧
      (∃ t, exec .trial loaded = .next t ∧ (t.status.err == false) = true) ∧
      (∃ t, exec .experiment sweep8 = .next t ∧ (t.status.err == false) = true) ∧ 1 ≤ sweep8.regs.trials.toNat ∧
      (∃ t, exec .experiment { sweep8 with regs := { sweep8.regs with burstLen := 1 } } = .next t ∧
        (t.status.err && t.regs.failOffset == 0) = true) ∧
      (∃ t, exec .experiment { sweep8 with regs := { sweep8.regs with trials := 0 } } = .next t) :=
  ⟨of_ended_with _ (by decide), of_ended_with _ (by decide), of_ended_with _ (by decide), of_ended_with _ (by decide),
    of_ended_with _ (by decide), by decide, of_ended_with _ (by decide), of_ended (by decide)⟩

theorem witness_OvrIsSetByDroppedWritesOnly :
    ((busyWith 2).rst = false ∧ (busyWith 2).busy = true ∧ (busyWith 2).params.legal ∧ (0x00010#18).toNat = 0x10) ∧
      ((busyWith 2).status.ovr = false ∧
        ∃ t, inputStep (.host (.write 0x0003C#18 .word 1)) (busyWith 2) = .next t ∧ (t.status.ovr == true) = true) ∧
      (0x00000010#32).getLsbD 4 = true ∧
      ∃ t, inputStep (.host (.write 0x00014#18 .word 16)) { loaded with status := { loaded.status with ovr := true } } =
        .next t ∧ (t.status.ovr == false) = true :=
  ⟨by decide, ⟨rfl, of_ended_with _ (by decide)⟩, by decide, of_ended_with _ (by decide)⟩

theorem witness_ReservedErrorCodesAreNeverWritten :
    (∃ t, exec .encode loaded = .next t ∧ (t.status.err == false) = true) ∧
      (∃ t, exec .corrupt { loaded with regs := { loaded.regs with burstLen := 1 } } = .next t ∧ (t.status.err == true) = true) ∧
      (0x00000004#32).getLsbD 2 = true ∧
      (∃ t, inputStep .engine (busyWith 6) = .next t) ∧ (busyWith 6).status.errCode.code ∈ [0#4, 1#4, 2#4, 4#4, 5#4, 6#4] :=
  ⟨of_ended_with _ (by decide), of_ended_with _ (by decide), by decide, of_ended (by decide), by decide⟩

/-- A sweep of ten trials that fails at the last one, offset 9. -/
theorem witness_FailOffsetIsTheFailingTrial :
    9 < sweepTooLong.regs.trials.toNat ∧ (∃ u, trialsDone 9 sweepTooLong = some u ∧ ∃ v, trialAt 9 u = .raised .range v) ∧
      (∃ t, exec .corrupt loaded = .next t) ∧ (∃ t, exec .experiment sweep8 = .next t ∧ (t.status.err == false) = true) ∧
      loaded.rst = false := by
  have h : (trialsDone 9 sweepTooLong).any (fun u => raisedRange (trialAt 9 u)) = true := by decide
  obtain ⟨u, hu, hr⟩ := Option.any_eq_true _ _ |>.1 h
  exact ⟨by decide, ⟨u, hu, of_raisedRange hr⟩, of_ended (by decide), of_ended_with _ (by decide), rfl⟩

theorem witness_ErrorStaysUntilCleared :
    State.Inv failed ∧ (∃ t, inputStep .engine failed = .next t) ∧ failed.status.err = true ∧ failed.rst = false ∧
      failed.eng = .idle :=
  ⟨inv_failed, of_ended (by decide), rfl, rfl, rfl⟩

theorem witness_IllegalAndUnmappedAccessesAnswerError :
    loaded.rst = false ∧ loaded.params.legal ∧ AccessSize.half ≠ .word ∧ (0x00022#18).toNat % 4 ≠ 0 ∧
      (0x0000C#18).toNat % 4 = 0 ∧ ¬ IsMapped loaded.params (0x0000C#18).toNat ∧
      ¬ IsMapped loaded.params (0x00408#18).toNat ∧ ¬ IsMapped loaded.params (0x3FFFC#18).toNat ∧
      IsMapped loaded.params (0x00044#18).toNat ∧ IsMapped loaded.params (0x00404#18).toNat ∧
      IsMapped loaded.params (0x00804#18).toNat ∧ IsMapped loaded.params (0x10004#18).toNat ∧
      IsMapped loaded.params (0x20008#18).toNat := by
  refine ⟨by decide, by decide, by decide, by decide, by decide, ?_, ?_, ?_, ?_, ?_, ?_, ?_, ?_⟩ <;>
    (unfold IsMapped InRegisters InPoly InRem InMsg InCw; decide)

theorem witness_IdentityAndParametersAreConstant : loaded.rst = false ∧ (busyWith 1).rst = false := by decide

theorem witness_RegistersReadAndWriteByAccessType :
    loaded.rst = false ∧ loaded.eng = .idle ∧ InReadOnly (0x00000#18).toNat ∧ InReadOnly (0x00044#18).toNat := by
  unfold InReadOnly
  decide

/-- The last word of each window is a word of it. -/
theorem witness_BitWindowsPackFromTheMostSignificantBit :
    loaded.rst = false ∧ loaded.eng = .idle ∧ loaded.params.legal ∧ Memory.wf loaded.params loaded.mem = true ∧
      1 < (loaded.params.polyMax + 31) / 32 ∧ 1 < (loaded.params.polyMax - 1 + 31) / 32 ∧
      2 < (loaded.params.cwMaxBits + 31) / 32 := by decide

theorem witness_MessageWindowPacksBigEndianLanes :
    loaded.rst = false ∧ loaded.eng = .idle ∧ loaded.params.legal ∧ 0 < (loaded.params.msgMaxBytes + 3) / 4 ∧
      1 < (loaded.params.msgMaxBytes + 3) / 4 ∧ loaded.params.msgMaxBytes ≤ 4 * 1 + 3 ∧
      Store.get loaded.mem.msg (4 * 0 + 0) = some 0x41#8 := by decide

theorem witness_CommandIssue : loaded.rst = false ∧ loaded.eng = .idle := by decide

theorem witness_WritesWhileBusyAreDropped :
    (busyWith 1).rst = false ∧ (busyWith 1).busy = true ∧ (busyWith 1).params.legal ∧ (0x00010#18).toNat = 0x10 ∧
      InWritable (0x00020#18).toNat ∧ InWritable (0x0003C#18).toNat ∧ InPoly (busyWith 1).params (0x00404#18).toNat ∧
      InMsg (busyWith 1).params (0x10004#18).toNat ∧ InCw (busyWith 1).params (0x20008#18).toNat ∧
      InReadOnly (0x00018#18).toNat ∧ InRem (busyWith 1).params (0x00804#18).toNat ∧ (0x20008#18).toNat % 4 = 0 := by
  unfold InWritable InPoly InMsg InCw InReadOnly InRem
  decide

theorem witness_ReadsWhileBusy :
    (busyWith 1).rst = false ∧ (busyWith 1).busy = true ∧ (busyWith 1).params.legal ∧
      IsMapped (busyWith 1).params (0x00018#18).toNat ∧ (0x00018#18).toNat ∉ [0x00, 0x04, 0x08, 0x10, 0x14] ∧
      IsMapped (busyWith 1).params (0x20008#18).toNat ∧ (0x20008#18).toNat ∉ [0x00, 0x04, 0x08, 0x10, 0x14] := by
  unfold IsMapped InRegisters InPoly InRem InMsg InCw
  decide

theorem witness_BitStreamPrimitives :
    (2 < 3 ∨ (bits [0, 1, 0, 0]).length < 2) ∧ (3 < 0 ∨ (bits [0, 1, 0, 0]).length < 5) ∧ (4 ≤ 4 ∧ 4 ≤ (bits [0, 1, 0, 0]).length) ∧
      1 ≤ (bits [1]).length ∧ (bits [1, 0, 0, 0]).length ≠ (bits [1, 1, 1, 1, 1]).length ∧
      (bits [1, 0, 1]).length = (bits [1, 1, 1]).length ∧ (bits [0, 1, 0, 0]).length ≤ 4 ∧ 3 < (bits [0, 1, 0, 0]).length := by
  decide

/-- "1" divides with no remainder, and "1011" is used at its shortest dividend. -/
theorem witness_KernelIsPolynomialRemainder :
    (bits [1]).headD false = true ∧ (bits [1]).length ≤ (bits [0, 1, 1]).length ∧
      (bits [1, 0, 1, 1]).headD false = true ∧ (bits [1, 0, 1, 1]).length ≤ (bits [0, 1, 1, 0]).length ∧
      StreamPoly (bits [0, 1, 1, 0]) (polyOf (bits [0, 1, 1, 0])) ∧ StreamPoly (bits [1, 0, 1, 1]) (polyOf (bits [1, 0, 1, 1])) ∧
      (bits [1, 1, 0]).length = (bits [1, 0, 1, 1]).length - 1 :=
  ⟨rfl, by decide, rfl, by decide, polyOf_coeff _, polyOf_coeff _, rfl⟩

theorem witness_RemainderIsLinear :
    (bits [0, 1, 1, 0]).length = (bits [1, 1, 0, 0]).length ∧ 1 ≤ (bits [1, 0, 1, 1]).length ∧
      (bits [1, 0, 1, 1]).length ≤ (bits [0, 1, 1, 0]).length := by decide

theorem witness_SyndromeDependsOnlyOnTheError :
    1 ≤ (bits [0, 1, 0, 0, 0, 0, 0, 1]).length ∧ (bits [1, 1, 1, 1, 1]).headD false = true ∧
      computeRemainder (bits [0, 1, 0, 0, 0, 0, 0, 1] ++ zeros ((bits [1, 1, 1, 1, 1]).length - 1)) (bits [1, 1, 1, 1, 1]) =
        .ok (bits [1, 1, 1, 0]) ∧
      (zeros 12).length = (bits [0, 1, 0, 0, 0, 0, 0, 1] ++ bits [1, 1, 1, 0]).length := by decide

/-- A burst of the greatest length the bound covers, at the end of the codeword. -/
theorem witness_ShortBurstsAreDetected :
    2 ≤ (bits [1, 1, 1, 1, 1]).length ∧ (bits [1, 1, 1, 1, 1]).headD false = true ∧
      (bits [1, 1, 1, 1, 1]).getD ((bits [1, 1, 1, 1, 1]).length - 1) false = true ∧
      (bits [1, 1, 1, 1, 1]).length ≤ cwA.length ∧ (bits [0, 0, 0, 0, 0, 0, 0, 0, 1, 0, 0, 1]).length = cwA.length ∧
      (∃ i, (bits [0, 0, 0, 0, 0, 0, 0, 0, 1, 0, 0, 1]).getD i false = true) ∧
      (∀ i, (bits [0, 0, 0, 0, 0, 0, 0, 0, 1, 0, 0, 1]).getD i false = true → 8 ≤ i ∧ i < 8 + ((bits [1, 1, 1, 1, 1]).length - 1)) ∧
      computeRemainder cwA (bits [1, 1, 1, 1, 1]) = .ok (zeros ((bits [1, 1, 1, 1, 1]).length - 1)) := by
  refine ⟨by decide, by decide, by decide, by decide, by decide, ⟨8, by decide⟩, fun i hi => ?_, by decide⟩
  have h12 : i < 12 := by
    by_contra hn
    rw [List.getD_eq_default _ _ (by simp [bits]; omega)] at hi
    cases hi
  have : ∀ k, k < 12 → (bits [0, 0, 0, 0, 0, 0, 0, 0, 1, 0, 0, 1]).getD k false = true → 8 ≤ k := by decide
  exact ⟨this i h12 hi, h12⟩

theorem witness_DefaultDivisorTwoBitErrors : 5 ≤ 5 ∧ 0 < 4 ∧ 4 < 5 ∧ 5 ≤ 6 ∧ 0 < 5 ∧ 5 < 6 ∧ (5 - 0) % 5 = 0 := by decide

theorem witness_EncodeFollowsItsRule :
    (encodeError loaded = none ∧ MessageIs loaded [0x41#8] ∧ loaded.params.legal) ∧
      encodeError { loaded with regs := { loaded.regs with lenCrc := 3 } } = some .lengthMismatch ∧
      (encodeError noMsg = none ∧ MessageUnset noMsg) :=
  ⟨⟨by decide, message_loaded, by decide⟩, by decide, by decide, message_unset⟩

theorem witness_DecodeFollowsItsRule :
    (decodeError loaded = none ∧ CodewordIs loaded cwA) ∧
      decodeError { loaded with regs := { loaded.regs with cwLen := 4 } } = some .range ∧
      (decodeError noCw = none ∧ CodewordUnset noCw) :=
  ⟨⟨by decide, codeword_loaded⟩, by decide, by decide, codeword_unset⟩

theorem witness_DecodeAfterEncodeIsClean :
    loaded.params.legal ∧ ∃ t, exec .encode loaded = .next t ∧ (t.status.err == false) = true :=
  ⟨by decide, of_ended_with _ (by decide)⟩

/-- Five bytes: words 0 of MSG and CW are whole message words. -/
theorem witness_MessageWordsEqualCodewordWords :
    (loaded.params.legal ∧ loaded.rst = false) ∧
      (∃ t, exec .encode { loaded with
        regs := { loaded.regs with msgLen := 5 }
        mem := { loaded.mem with msg := Store.numbered 0 [0x41#8, 0x42#8, 0x43#8, 0x44#8, 0x45#8] } } = .next t ∧
        (t.status.err == false) = true) ∧ 0 < (5#32).toNat / 4 :=
  ⟨by decide, of_ended_with _ (by decide), by decide⟩

theorem witness_CorruptFollowsItsRule :
    corruptError { loaded with regs := { loaded.regs with offset := 8 } } 8 12 = none ∧
      corruptError { loaded with regs := { loaded.regs with offset := 9 } } 9 12 = some .range ∧
      corruptError { loaded with regs := { loaded.regs with bpol := true } } 0 12 = some .param := by decide

theorem witness_CorruptFlipsBothEndsAndStaysInside :
    corruptError loaded loaded.regs.offset.toNat loaded.regs.cwLen.toNat = none ∧
      Store.get loaded.mem.cw loaded.regs.offset.toNat = some false ∧
      Store.get loaded.mem.cw (loaded.regs.offset.toNat + loaded.regs.burstLen.toNat - 1) = some false := by decide

theorem witness_GeneratorObeysItsLaws : 2 ≤ 2 ∧ (burstRng .reference 0 3).2 = [] ∧ (burstRng .reference 2 3).2 = [1] := by decide

theorem witness_TrialFollowsItsRule :
    (loaded.params.legal ∧ encodeError loaded = none ∧ MessageIs loaded [0x41#8]) ∧
      corruptError loaded loaded.regs.offset.toNat (encodedLen loaded) = none ∧
      encodeError { loaded with regs := { loaded.regs with msgLen := 0 } } = some .range ∧
      corruptError { loaded with regs := { loaded.regs with offset := 9 } } 9 (encodedLen loaded) = some .range ∧
      (encodeError noMsg = none ∧ MessageUnset noMsg) :=
  ⟨⟨by decide, by decide, message_loaded⟩, by decide, by decide, by decide, by decide, message_unset⟩

/-- The longest sweep that runs, and the first trial of one that does not (43_validator.md R224): L = 12, n = 4. -/
theorem witness_ExperimentFollowsItsRule :
    ({ loaded with regs := { loaded.regs with trials := 0 } } : State).regs.trials = 0 ∧
      (sweep8.params.legal ∧ encodeError sweep8 = none ∧ MessageIs sweep8 [0x41#8] ∧ sweep8.regs.bpol = false ∧
        2 ≤ sweep8.regs.burstLen.toNat ∧ 1 ≤ sweep8.regs.trials.toNat ∧
        sweep8.regs.trials.toNat - 1 + sweep8.regs.burstLen.toNat ≤ encodedLen sweep8) ∧
      (∃ u, trialsDone 9 sweepTooLong = some u ∧ ∃ v, trialAt 9 u = .raised .range v) ∧ 9 < sweepTooLong.regs.trials.toNat ∧
      (1 ≤ noMsg1.regs.trials.toNat ∧ encodeError noMsg1 = none ∧ MessageUnset noMsg1) := by
  refine ⟨rfl, ⟨by decide, by decide, ⟨rfl, by decide⟩, by decide, by decide, by decide, by decide⟩, ?_, by decide,
    by decide, by decide, message_unset⟩
  have h : (trialsDone 9 sweepTooLong).any (fun u => raisedRange (trialAt 9 u)) = true := by decide
  obtain ⟨u, hu, hr⟩ := Option.any_eq_true _ _ |>.1 h
  exact ⟨u, hu, of_raisedRange hr⟩

theorem witness_SweepFailsAtTheFirstOffsetOutOfRange :
    (sweepTooLong.params.legal ∧ 1 ≤ sweepTooLong.regs.trials.toNat) ∧
      encodeError { sweepTooLong with regs := { sweepTooLong.regs with msgLen := 0 } } = some .range ∧
      (encodeError sweepTooLong = none ∧ MessageIs sweepTooLong [0x41#8] ∧ (1#32).toNat < 2) ∧
      (sweepTooLong.regs.bpol = false ∧ 2 ≤ sweepTooLong.regs.burstLen.toNat ∧
        encodedLen sweepTooLong < sweepTooLong.regs.trials.toNat - 1 + sweepTooLong.regs.burstLen.toNat) ∧
      sweep8.regs.trials.toNat - 1 + sweep8.regs.burstLen.toNat ≤ encodedLen sweep8 :=
  ⟨by decide, by decide, ⟨by decide, ⟨rfl, by decide⟩, by decide⟩, by decide, by decide⟩

theorem witness_NoMissForBurstsUpToTheDegree :
    (sweep8.params.legal ∧ Store.bit sweep8.mem.poly (sweep8.regs.polyLen.toNat - 1) = true ∧
      sweep8.regs.burstLen.toNat ≤ sweep8.regs.lenCrc.toNat) ∧ ∃ t, exec .experiment sweep8 = .next t :=
  ⟨by decide, of_ended (by decide)⟩

/-- Two states that differ in CW alone. -/
theorem witness_TrialOutcomeIgnoresTheOldCodeword :
    SameTrialInputs loaded noCw ∧ loaded.regs.offset = noCw.regs.offset ∧ loaded.mem.cw ≠ noCw.mem.cw ∧
      (∃ t, exec .trial loaded = .next t ∧ (t.status.err == false) = true) ∧ loaded.regs.trials = noCw.regs.trials ∧
      ∃ t, exec .experiment loaded = .next t ∧ (t.status.err == true) = true :=
  ⟨by unfold SameTrialInputs; decide, rfl, by decide, of_ended_with _ (by decide), rfl, of_ended_with _ (by decide)⟩

/-- The bits next to what is written: the first above the codeword, and the first after the burst. -/
theorem witness_CommandsTouchOnlyTheirFootprint :
    (∃ t, exec .encode loaded = .next t) ∧ (∃ t, exec .decode loaded = .next t) ∧ (∃ t, exec .corrupt loaded = .next t) ∧
      (∃ t, exec .trial loaded = .next t) ∧ (∃ t, exec .experiment loaded = .next t) ∧ loaded.params.legal ∧
      encodedLen loaded = 12 ∧ burstHits loaded.params.gen loaded.regs.offset.toNat loaded.regs.burstLen.toNat 4 = false :=
  ⟨of_ended (by decide), of_ended (by decide), of_ended (by decide), of_ended (by decide), of_ended (by decide), by decide,
    rfl, by decide⟩

theorem witness_FaultOnlyOnAnUnsetOperand :
    loaded.params.legal ∧ exec .decode noCw = .fault .uninit ∧ exec .encode noMsg = .fault .uninit ∧
      exec .trial noMsg = .fault .uninit ∧ exec .experiment noMsg = .fault .uninit :=
  ⟨by decide, rfl, rfl, rfl, rfl⟩

end Sys2Proof.Tests
end

section
/-! SUPPORT. One access of one register, busy or idle, and the writes that are dropped while busy. -/

namespace Sys2Proof.Machine

/-! ### Accesses of a register -/

theorem accessLegal_reg (r : RegName) : accessLegal (BitVec.ofNat 18 r.portOffset) .word = true := by cases r <;> rfl

theorem portStep_read_reg {s : State} (hr : s.rst = false) (r : RegName) :
    portStep (.read (BitVec.ofNat 18 r.portOffset) .word) s = portRead s (.reg r) := by
  simp [portStep, hr, accessLegal_reg]

theorem portStep_write_reg {s : State} (hr : s.rst = false) (r : RegName) (v : Word) :
    portStep (.write (BitVec.ofNat 18 r.portOffset) .word v) s = portWrite s v (.reg r) := by
  simp [portStep, hr, accessLegal_reg]

theorem portStep_of_rst {s : State} (hr : s.rst = true) (a : Access) : portStep a s = s.respond .error := by
  simp [portStep, hr]

/-- A register that is readable while busy, or any register while idle, reads its word (70_reset_and_hazards.md R286). -/
theorem portRead_reg {s : State} {r : RegName} (h : s.busy = false ∨ r.readableBusy = true) :
    portRead s (.reg r) = s.respond (.okRead (regWord s r)) := by
  have hc : ¬ (s.busy && !(Target.reg r).readableBusy) = true := by
    rcases h with h | h <;> simp [Target.readableBusy, h]
  simp only [portRead, if_neg hc]

/-- The RO registers ignore a write, busy or idle (20_memory.md R73, 70_reset_and_hazards.md R285). -/
theorem portWrite_readOnly (s : State) (v : Word) {r : RegName}
    (h : r ∈ [.id, .param0, .param1, .failOffset, .missed, .total]) : portWrite s v (.reg r) = s.respond .okWrite := by
  have hw : targetWriteBusy s v (.reg r) = s ∧ targetWrite s v (.reg r) = s := by
    cases r with
    | id | param0 | param1 | failOffset | missed | total => exact ⟨rfl, rfl⟩
    | _ => simp at h
  simp only [portWrite, hw, ite_self]

/-- A write of STATUS clears, busy or idle (70_reset_and_hazards.md R285). -/
theorem portStep_write_status {s : State} (hr : s.rst = false) (v : Word) :
    portStep (.write 0x00014#18 .word v) s = { s with status := s.status.writeClear v, resp := some .okWrite } := by
  refine (portStep_write_reg hr .status v).trans ?_
  unfold portWrite
  split <;> rfl

/-- A STATUS write reads bits 1, 2 and 4 of its word alone (10_state.md R34). -/
theorem Status.writeClear_congr (t : Status) {v v' : Word} (h1 : v.getLsbD 1 = v'.getLsbD 1)
    (h2 : v.getLsbD 2 = v'.getLsbD 2) (h4 : v.getLsbD 4 = v'.getLsbD 4) : t.writeClear v = t.writeClear v' := by
  simp only [Status.writeClear, h1, h2, h4]

/-! ### Writes dropped while busy -/

/-- The targets whose write is dropped while busy (70_reset_and_hazards.md R285). -/
def Target.dropsBusy : Target → Bool
  | .reg r => r ∉ [.status, .id, .param0, .param1, .failOffset, .missed, .total]
  | .rem _ => false
  | .poly _ | .msg _ | .cw _ => true

theorem portWrite_dropped {s : State} (hb : s.busy = true) (v : Word) {t : Target} (ht : t.dropsBusy = true) :
    portWrite s v t = s.setOvr.respond .okWrite := by
  have hw : targetWriteBusy s v t = s.setOvr := by
    cases t with
    | reg r =>
      cases r with
      | status | id | param0 | param1 | failOffset | missed | total => cases ht
      | _ => rfl
    | rem w => cases ht
    | poly w | msg w | cw w => rfl
  simp only [portWrite, hb, if_true, hw]

/-- A port address of a register whose write is dropped while busy, or of a word of POLY, MSG or CW. -/
def DropAddress (p : Params) (a : Nat) : Prop := a = 0x10 ∨ InWritable a ∨ InPoly p a ∨ InMsg p a ∨ InCw p a

theorem DropAddress.isMapped {p : Params} {a : Nat} (h : DropAddress p a) : IsMapped p a := by
  rcases h with h | h | h | h | h
  · exact .inl (by simp [InRegisters, h])
  · refine .inl ?_
    simp only [InWritable, InRegisters, List.mem_cons, List.not_mem_nil, or_false] at h ⊢
    omega
  · exact .inr (.inl h)
  · exact .inr (.inr (.inr (.inl h)))
  · exact .inr (.inr (.inr (.inr h)))

/-- A register that keeps its write while busy, and REM, have no drop address. -/
theorem not_dropAddress {p : Params} (hp : p.legal) {t : Target} (hm : t.mapped p) (ht : t.dropsBusy = false) :
    ¬ DropAddress p t.portOffset := by
  obtain ⟨-, hrem, -, -⟩ := words_fit hp
  have hlegal := hp
  simp only [Params.legal] at hlegal
  simp only [DropAddress, InWritable, InPoly, InMsg, InCw, List.mem_cons, List.not_mem_nil, or_false]
  cases t with
  | reg r =>
    cases r with
    | status | id | param0 | param1 | failOffset | missed | total =>
      simp only [Target.portOffset, RegName.portOffset]; omega
    | _ => cases ht
  | rem w => simp only [Target.portOffset, Target.mapped, remBase] at *; omega
  | poly w | msg w | cw w => cases ht

/-- A write to a drop address while busy sets OVR and does nothing else. -/
theorem portStep_write_dropped {s : State} (hr : s.rst = false) (hb : s.busy = true) (hp : s.params.legal)
    {a : PortAddr} (h4 : a.toNat % 4 = 0) (hd : DropAddress s.params a.toNat) (v : Word) :
    portStep (.write a .word v) s = s.setOvr.respond .okWrite := by
  obtain ⟨t, ht⟩ := (isMapped_iff hp h4).1 hd.isMapped
  obtain ⟨ha, hm⟩ := (portTarget_eq_some hp h4 t).1 ht
  have hdrop : t.dropsBusy = true := by
    by_contra hn
    exact not_dropAddress hp hm (by simpa using hn) (ha ▸ hd)
  have hl : accessLegal a .word = true := by simp [accessLegal, h4]
  simp only [portStep, hr, Bool.false_eq_true, if_false, hl, if_true, ht, portWrite_dropped hb v hdrop]

end Sys2Proof.Machine
end

section
/-! SUPPORT. The moves of the host, the engine and the reset input; and what a completion leaves of CLEAN and
FAIL_OFFSET. -/

namespace Sys2Proof.Machine

/-! ### A move -/

/-- A word is its two fields, RSVD above OP (30_encoding.md R110). -/
theorem cmdRsvd_append_cmdOp (w : Word) : cmdRsvd w ++ cmdOp w = w :=
  (BitVec.extractLsb'_append_extractLsb'_eq_extractLsb' (start₁ := 0) (len₁ := 4) rfl).trans BitVec.extractLsb'_eq_self

theorem eq_encode_of_decodeWord {w : Word} {i : Instr} (h : decodeWord w = .command i) : w = encode i := by
  unfold decodeWord at h
  split at h
  · cases h
  · rename_i hrsvd
    have hop : cmdOp w = opcode i := by
      apply BitVec.eq_of_toNat_eq
      split at h <;> cases h <;> assumption
    rw [← cmdRsvd_append_cmdOp w, hop, not_not.1 hrsvd]
    rfl

theorem busy_of_eng {s : State} {w : Word} (h : s.eng = .busy w) : s.busy = true := by simp [State.busy, h, Engine.isBusy]

theorem not_busy_of_eng {s : State} (h : s.eng = .idle) : s.busy = false := by simp [State.busy, h, Engine.isBusy]

/-- What a move can do to the engine and to STATUS (00_scope.md R3): the move, and the state it ends in. -/
inductive Move (s : State) : Input → State → Prop
  /-- An access that leaves both alone: a read, an error, or a write of anything else. -/
  | other (a : Access) (t : State) (heng : t.eng = s.eng) (hstatus : t.status = s.status) : Move s (.host a) t
  /-- A write of STATUS. -/
  | clear (v : Word) :
    Move s (.host (.write 0x00014#18 .word v)) { s with status := s.status.writeClear v, resp := some .okWrite }
  /-- A write dropped while busy. -/
  | drop (a : PortAddr) (v : Word) (hbusy : s.busy = true) (ha : DropAddress s.params a.toNat) :
    Move s (.host (.write a .word v)) (s.setOvr.respond .okWrite)
  /-- A command's issue. -/
  | issue (w : Word) (hidle : s.busy = false) (hrst : s.rst = false) :
    Move s (.host (.write 0x00010#18 .word w)) ((s.issue w).respond .okWrite)
  /-- The engine's turn with nothing pending, or under reset. -/
  | turn : Move s .engine s
  /-- The completion of a command. -/
  | complete (i : Instr) (t : State) (hrst : s.rst = false) (heng : s.eng = .busy (encode i)) (hexec : exec i s = .next t) :
    Move s .engine t
  /-- The completion of an illegal word. -/
  | illegal (w : Word) (hrst : s.rst = false) (heng : s.eng = .busy w) : Move s .engine (s.completeError .illegalCmd)
  /-- A deassertion of rst where it is not asserted. -/
  | level (b : Bool) : Move s (.rst b) s
  /-- Reset. -/
  | reset (b : Bool) (t : State) (heng : t.eng = .idle) (hstatus : t.status = .reset) : Move s (.rst b) t

/-- The address of a dropped write (`portStep_effect`) is a drop address. -/
theorem dropAddress_of_target {p : Params} {a : PortAddr} {t : Target} (ht : portTarget p a = some t)
    (h : a.toNat = 0x10 ∨ InWritable a.toNat ∨ (∃ w, t = .poly w) ∨ (∃ w, t = .msg w) ∨ ∃ w, t = .cw w) :
    DropAddress p a.toNat := by
  obtain ⟨hpoly, hmsg, hcw⟩ := portTarget_in_window t ht
  exact h.imp_right <| Or.imp_right <| Or.imp (fun ⟨w, hw⟩ => hpoly w hw) <|
    Or.imp (fun ⟨w, hw⟩ => hmsg w hw) fun ⟨w, hw⟩ => hcw w hw

theorem portStep_move (a : Access) (s : State) : Move s (.host a) (portStep a s) := by
  rcases portStep_effect a s with ⟨heng, hstatus, -⟩ | ⟨v, rfl, he⟩ | ⟨hb, -, addr, v, _, rfl, -, ht, he, hd⟩ |
    ⟨hi, hr, w, rfl, he⟩
  · exact .other a _ heng hstatus
  · rw [he]
    exact .clear v
  · rw [he]
    exact .drop addr v hb (dropAddress_of_target ht hd)
  · rw [he]
    exact .issue w hi hr

theorem engineStep_move {s t : State} (h : engineStep s = .next t) : Move s .engine t := by
  rcases engineStep_cases s with he | ⟨hr, w, i, hw, hd, he⟩ | ⟨hr, w, -, hw, -, he⟩ <;> rw [he] at h
  · cases h
    exact .turn
  · exact .complete i t hr (eq_encode_of_decodeWord hd ▸ hw) h
  · cases h
    exact .illegal w hr hw

theorem resetLevel_move (b : Bool) (s : State) : Move s (.rst b) (resetLevel b s) := by
  unfold resetLevel
  split
  · exact .reset b _ rfl rfl
  · exact .level b

/-- Every input that ends in a next state is one of these moves. -/
theorem inputStep_move {i : Input} {s t : State} (h : inputStep i s = .next t) : Move s i t := by
  cases i with
  | host a =>
    cases h
    exact portStep_move a s
  | engine => exact engineStep_move h
  | rst b =>
    cases h
    exact resetLevel_move b s

/-! ### CLEAN -/

/-- CLEAN is 1 exactly when every bit of REM is 0. -/
def State.CleanSaysRem (t : State) : Prop := t.status.clean = true ↔ ∀ j, Store.bit t.mem.rem j = false

/-- The steps set CLEAN from REM where they are done, and leave it at `c` where they raise. -/
def Run.SetsClean (c : Bool) : Run → Prop
  | .done t => t.CleanSaysRem
  | .raised _ t => t.status.clean = c
  | .fault _ => True

theorem eq_zeros_iff (r : Bits) : r = zeros r.length ↔ ∀ j, r.getD j false = false := by
  constructor
  · intro h j
    rw [h, zeros_getD]
  · exact fun h => bits_ext (by simp) fun j _ => by rw [h j, zeros_getD]

theorem decoded_cleanSaysRem {s : State} {c : Bits} (h : decodeError s = none) (hc : CodewordIs s c) :
    (decoded s c).CleanSaysRem := by
  have hl := decodedRem_length h hc
  have hz := eq_zeros_iff (remainderBits c (divisor s))
  rw [hl] at hz
  simp only [State.CleanSaysRem, decoded_bit_rem]
  exact decide_eq_true_iff.trans hz

theorem decodeSteps_setsClean (s : State) : (decodeSteps s).SetsClean s.status.clean := by
  rcases decodeSteps_cases s with ⟨e, -, hr⟩ | ⟨-, -, hr⟩ | ⟨c, he, hc, hr⟩ <;> rw [hr]
  · rfl
  · trivial
  · exact decoded_cleanSaysRem he hc

/-- ENCODE and CORRUPT leave CLEAN, so a trial does with it what its DECODE step does. -/
theorem trialAt_setsClean (k : Nat) (s : State) : (trialAt k s).SetsClean s.status.clean := by
  unfold trialAt
  rcases encodeSteps_cases s with ⟨e, -, hr⟩ | ⟨-, -, hr⟩ | ⟨bs, -, -, hr⟩ <;> rw [hr]
  · rfl
  · trivial
  · show ((corruptSteps k (encoded s bs)).andThen decodeSteps).SetsClean s.status.clean
    rcases corruptSteps_cases (encoded s bs) k with ⟨e, -, hr⟩ | ⟨-, hr⟩ <;> rw [hr]
    · rfl
    · exact decodeSteps_setsClean (corrupted (encoded s bs) k)

/-- A completion keeps CLEAN and REM, so STATUS.ERR tells which of the two ends the steps had. -/
theorem exec_setsClean {i : Instr} {s t : State} {c : Bool} (hs : (commandSteps i s).SetsClean c)
    (h : exec i s = .next t) : if t.status.err = true then t.status.clean = c else t.CleanSaysRem := by
  rcases exec_cases i s with ⟨u, hu, he⟩ | ⟨e, u, hu, he⟩ | he <;> rw [he] at h
  · cases h
    rwa [hu] at hs
  · cases h
    rwa [hu] at hs
  · cases h

theorem encodeSteps_keepsClean (s : State) : (encodeSteps s).Ends fun t => t.status.clean = s.status.clean :=
  ends_encode rfl fun _ _ _ => rfl

theorem corruptSteps_keepsClean (k : Nat) (s : State) : (corruptSteps k s).Ends fun t => t.status.clean = s.status.clean :=
  ends_corrupt rfl fun _ => rfl

/-- Only a command with a DECODE step changes CLEAN. -/
theorem exec_clean_changes {i : Instr} {s t : State} (h : exec i s = .next t) (hc : t.status.clean ≠ s.status.clean) :
    i = .decode ∨ i = .trial ∨ i = .experiment := by
  have keeps (hk : (commandSteps i s).Ends fun t => t.status.clean = s.status.clean) : False := by
    obtain ⟨u, hu, rfl | ⟨e, rfl⟩⟩ := exec_ends hk h <;> exact hc hu
  cases i with
  | encode => exact (keeps (encodeSteps_keepsClean s)).elim
  | corrupt => exact (keeps (corruptSteps_keepsClean _ s)).elim
  | decode => exact .inl rfl
  | trial => exact .inr (.inl rfl)
  | experiment => exact .inr (.inr rfl)

/-! ### A sweep -/

/-- A sweep of at least one trial that finishes ends where a trial was done. -/
theorem sweep_finished_last {n k missed m : Nat} {s t : State} (h : sweep (n + 1) k missed s = .finished m t) :
    ∃ j u, trialAt j u = .done t := by
  induction n generalizing k missed s with
  | zero =>
    simp only [sweep] at h
    split at h
    · rename_i t' ht
      injection h with _ h
      exact ⟨k, s, h ▸ ht⟩
    · cases h
    · cases h
  | succ n ih =>
    rw [sweep] at h
    split at h
    · exact ih h
    · cases h
    · cases h

/-- A sweep that fails does so at one of its trials, and one that fails at its first trial raised there. -/
theorem sweep_failed_first {n k missed j : Nat} {e : ErrCode} {s t : State} (h : sweep n k missed s = .failed j e t) :
    j < k + n ∧ (j = k → trialAt k s = .raised e t) := by
  have bounds {n k missed s} (h : sweep n k missed s = .failed j e t) : k ≤ j ∧ j < k + n := by
    obtain ⟨-, h1, h2, -⟩ := (sweep_keeps (P := fun _ => True) (fun _ _ _ _ _ => trivial) (fun _ _ _ _ _ _ => trivial)
      n k missed trivial).2.1 j e t h
    exact ⟨h1, h2⟩
  refine ⟨(bounds h).2, fun hj => ?_⟩
  cases n with
  | zero => cases h
  | succ n =>
    simp only [sweep] at h
    split at h
    · have := (bounds h).1
      omega
    · rename_i ht
      injection h with _ he hs
      rw [ht, he, hs]
    · cases h

/-- Everything an EXPERIMENT that completes can have done. -/
theorem execExperiment_next {s t : State} (h : exec .experiment s = .next t) :
    (∃ m u, sweep s.regs.trials.toNat 0 0 s = .finished m u ∧ t = (u.setSweep m s.regs.trials.toNat).completeOk) ∨
    (∃ k e u, sweep s.regs.trials.toNat 0 0 s = .failed k e u ∧ t = (u.setSweepFailed k).completeError e) := by
  rw [exec_eq] at h
  simp only [commandSteps, experimentSteps] at h
  split at h
  · rename_i m u hw
    injection h with h
    exact .inl ⟨m, u, hw, h.symm⟩
  · rename_i k e u hw
    injection h with h
    exact .inr ⟨k, e, u, hw, h.symm⟩
  · cases h

/-- The trial that failed, as FAIL_OFFSET holds it: no trial index wraps. -/
theorem failOffset_toNat {s : State} {k : Nat} (u : State) (h : k < s.regs.trials.toNat) :
    (u.setSweepFailed k).regs.failOffset.toNat = k := by
  have := s.regs.trials.isLt
  simp only [State.setSweepFailed_regs, BitVec.toNat_ofNat]
  omega

theorem execExperiment_cleanSaysRem {s t : State} (h : exec .experiment s = .next t) (he : t.status.err = false)
    (hn : 1 ≤ s.regs.trials.toNat) : t.CleanSaysRem := by
  rcases execExperiment_next h with ⟨m, u, hw, rfl⟩ | ⟨k, e, u, -, rfl⟩
  · obtain ⟨n, hn⟩ : ∃ n, s.regs.trials.toNat = n + 1 := ⟨_, (Nat.sub_add_cancel hn).symm⟩
    rw [hn] at hw
    obtain ⟨j, v, hd⟩ := sweep_finished_last hw
    have hc := trialAt_setsClean j v
    rw [hd] at hc
    exact hc
  · cases he

/-- An EXPERIMENT that fails at its first trial, or has none, leaves CLEAN. -/
theorem execExperiment_keepsClean {s t : State} (h : exec .experiment s = .next t)
    (h0 : (t.status.err = true ∧ t.regs.failOffset = 0) ∨ s.regs.trials = 0) : t.status.clean = s.status.clean := by
  rcases execExperiment_next h with ⟨m, u, hw, rfl⟩ | ⟨k, e, u, hw, rfl⟩
  · rcases h0 with ⟨he, -⟩ | h0
    · cases he
    · rw [h0] at hw
      injection hw with _ hu
      rw [hu]; rfl
  · obtain ⟨hk, hfirst⟩ := sweep_failed_first hw
    rw [Nat.zero_add] at hk
    have hz : k = 0 := by
      rcases h0 with ⟨-, hf⟩ | h0
      · rw [← failOffset_toNat u hk]; exact congrArg BitVec.toNat hf
      · rw [h0] at hk; exact absurd hk (Nat.not_lt_zero k)
    have hc := trialAt_setsClean 0 s
    rw [hfirst hz] at hc
    exact hc

/-! ### FAIL_OFFSET -/

/-- A trial leaves FAIL_OFFSET. -/
theorem trialAt_keepsFailOffset {c : Word} {s : State} (k : Nat) (h : s.regs.failOffset = c) :
    (trialAt k s).Ends fun t => t.regs.failOffset = c :=
  ends_trial h (fun _ _ h _ _ => h) (fun _ h => h) fun _ _ h _ _ => h

/-- Every completion but that of an EXPERIMENT with an error leaves FAIL_OFFSET. -/
theorem exec_keepsFailOffset {i : Instr} {s t : State} (h : exec i s = .next t)
    (hi : i ≠ .experiment ∨ t.status.err = false) : t.regs.failOffset = s.regs.failOffset := by
  have keeps (hk : (commandSteps i s).Ends fun t => t.regs.failOffset = s.regs.failOffset) :
      t.regs.failOffset = s.regs.failOffset := by
    obtain ⟨u, hu, rfl | ⟨e, rfl⟩⟩ := exec_ends hk h <;> exact hu
  cases i with
  | encode => exact keeps (ends_encode rfl fun _ _ _ => rfl)
  | decode => exact keeps (ends_decode rfl fun _ _ _ => rfl)
  | corrupt => exact keeps (ends_corrupt rfl fun _ => rfl)
  | trial => exact keeps (trialAt_keepsFailOffset _ rfl)
  | experiment =>
    rcases execExperiment_next h with ⟨m, u, hw, rfl⟩ | ⟨k, e, u, -, rfl⟩
    · refine ((sweep_keeps (P := fun t => t.regs.failOffset = s.regs.failOffset) (fun k u t hu hd => ?_)
        (fun k u e t hu hd => ?_) _ 0 0 rfl).1 m u hw).1
      · have := trialAt_keepsFailOffset k hu
        rwa [hd] at this
      · have := trialAt_keepsFailOffset k hu
        rw [hd] at this
        exact this.1
    · rcases hi with hi | he
      · exact absurd rfl hi
      · cases he

theorem trialsDone_succ {k : Nat} {s v : State} (h : trialsDone (k + 1) s = some v) :
    ∃ u, trialsDone k s = some u ∧ trialAt k u = .done v := by
  rw [trialsDone] at h
  split at h
  · rename_i u hu
    split at h
    · rename_i w hw
      injection h with h
      exact ⟨u, hu, h ▸ hw⟩
    · cases h
    · cases h
  · cases h

/-- Trials done one after the other are a chain of trials, each from where the one before ended. -/
theorem trialsDone_chain {k : Nat} {s u : State} (h : trialsDone k s = some u) {j : Nat} (hj : j < k) :
    trialAt j ((trialsDone j s).getD s) = .done ((trialsDone (j + 1) s).getD s) := by
  induction k generalizing u with
  | zero => exact absurd hj (Nat.not_lt_zero j)
  | succ k ih =>
    obtain ⟨v, hv, hd⟩ := trialsDone_succ h
    rcases Nat.lt_succ_iff_lt_or_eq.1 hj with hj | rfl
    · exact ih hv hj
    · rw [hv, h]; exact hd

/-- A sweep whose trials before `k` are done and whose trial `k` raises fails there. -/
theorem sweep_failed_of_trialsDone {s u v : State} {n k : Nat} {e : ErrCode} (hk : k < n) (hd : trialsDone k s = some u)
    (hr : trialAt k u = .raised e v) : sweep n 0 0 s = .failed k e v := by
  have chain {j : Nat} (hj : j < k) := trialsDone_chain hd hj
  have hf := sweep_fails_at (s := s) (n := n) (k := 0) (missed := 0) (m := k) (u := u) (v := v) (e := e)
    (fun j hj => ⟨_, _, by rw [Nat.zero_add]; exact chain hj⟩) hk
    ⟨fun j => (trialsDone j s).getD s, rfl, by simp only [hd, Option.getD_some],
      fun j hj => by rw [Nat.zero_add]; exact chain hj⟩ (by rwa [Nat.zero_add])
  rwa [Nat.zero_add] at hf

/-- An EXPERIMENT completes with an error at its first trial that raises. -/
theorem execExperiment_fails {s u v : State} {k : Nat} {e : ErrCode} (hk : k < s.regs.trials.toNat)
    (hd : trialsDone k s = some u) (hr : trialAt k u = .raised e v) :
    exec .experiment s = .next ((v.setSweepFailed k).completeError e) := by
  simp only [exec_eq, commandSteps, experimentSteps, sweep_failed_of_trialsDone hk hd hr]
  rfl

end Sys2Proof.Machine
end

section
/-! The statements about STATUS, FAIL_OFFSET and the identity registers. -/

namespace Sys2Proof.Machine

/-! ### The STATUS word -/

/-- Which field each bit of the STATUS word is (10_state.md R27, R34). -/
theorem statusWord_getLsbD (busy : Bool) (t : Status) (k : Nat) :
    (statusWord busy t).getLsbD k =
      match k with
      | 0 => busy
      | 1 => t.done
      | 2 => t.err
      | 3 => t.clean
      | 4 => t.ovr
      | 5 | 6 | 7 => false
      | k + 8 => t.errCode.code.getLsbD k := by
  refine (BitVec.getLsbD_append (y := BitVec.ofBool busy)).trans ?_
  simp only [BitVec.getLsbD_append]
  match k with
  | 0 | 1 | 2 | 3 | 4 | 5 | 6 | 7 => simp
  | k + 8 => simpa using BitVec.lt_of_getLsbD

theorem statusWord_reserved (busy : Bool) (t : Status) {k : Nat} (hk : (5 ≤ k ∧ k ≤ 7) ∨ 12 ≤ k) :
    (statusWord busy t).getLsbD k = false := by
  rw [statusWord_getLsbD]
  match k with
  | 0 | 1 | 2 | 3 | 4 => omega
  | 5 | 6 | 7 => rfl
  | k + 8 => exact BitVec.getLsbD_of_ge _ _ (by omega)

theorem statusWord_errCode (busy : Bool) (t : Status) : (statusWord busy t).extractLsb' 8 4 = t.errCode.code := by
  refine BitVec.eq_of_getLsbD_eq fun i hi => ?_
  rw [BitVec.getLsbD_extractLsb', Nat.add_comm, statusWord_getLsbD]
  simp [hi]

/-- Two words that agree on bits 1, 2 and 4 do the same when written to STATUS. -/
theorem portStep_write_status_congr (s : State) {v v' : Word} (h1 : v.getLsbD 1 = v'.getLsbD 1)
    (h2 : v.getLsbD 2 = v'.getLsbD 2) (h4 : v.getLsbD 4 = v'.getLsbD 4) :
    portStep (.write 0x00014#18 .word v) s = portStep (.write 0x00014#18 .word v') s := by
  cases hr : s.rst with
  | true => rw [portStep_of_rst hr, portStep_of_rst hr]
  | false => rw [portStep_write_status hr, portStep_write_status hr, Status.writeClear_congr _ h1 h2 h4]

/-- Settles O11, bit by bit. -/
theorem statusWordLayout : Obligations.StatusWordLayout := fun s =>
  ⟨fun _ => statusWord_reserved _ _, statusWord_getLsbD _ _ 0, statusWord_getLsbD _ _ 1, statusWord_getLsbD _ _ 2,
    statusWord_getLsbD _ _ 3, statusWord_getLsbD _ _ 4, statusWord_errCode _ _,
    fun _ _ h1 h2 h4 => portStep_write_status_congr s h1 h2 h4⟩

/-- Settles O21: the three registers are readable while busy and read-only. -/
theorem identityAndParametersAreConstant : Obligations.IdentityAndParametersAreConstant := by
  intro s v hr
  have read (r : RegName) (h : r.readableBusy = true) :
      portStep (.read (BitVec.ofNat 18 r.portOffset) .word) s = s.respond (.okRead (regWord s r)) :=
    (portStep_read_reg hr r).trans (portRead_reg (.inr h))
  have write (r : RegName) (h : r ∈ [.id, .param0, .param1, .failOffset, .missed, .total]) :
      portStep (.write (BitVec.ofNat 18 r.portOffset) .word v) s = s.respond .okWrite :=
    (portStep_write_reg hr r v).trans (portWrite_readOnly s v h)
  exact ⟨read .id rfl, read .param0 rfl, read .param1 rfl, write .id (by simp), write .param0 (by simp),
    write .param1 (by simp)⟩

/-! ### BUSY, DONE and ERR -/

/-- What changes BUSY. -/
theorem inputStep_busy_changes {i : Input} {s t : State} (h : inputStep i s = .next t) (hb : t.busy ≠ s.busy) :
    (∃ w, i = .host (.write 0x00010#18 .word w) ∧ s.busy = false ∧ s.rst = false ∧ t.eng = .busy w) ∨
    (i = .engine ∧ s.busy = true ∧ s.rst = false ∧ t.status.done = true) ∨ ∃ b, i = .rst b ∧ s.busy = true := by
  cases inputStep_move h with
  | other a t heng hstatus => exact absurd (congrArg Engine.isBusy heng) hb
  | clear v => exact absurd rfl hb
  | drop a v hbusy ha => exact absurd rfl hb
  | issue w hidle hrst => exact .inl ⟨w, rfl, hidle, hrst, rfl⟩
  | turn => exact absurd rfl hb
  | complete i t hrst heng hexec => exact .inr (.inl ⟨rfl, busy_of_eng heng, hrst, (exec_status hexec).2.1⟩)
  | illegal w hrst heng => exact .inr (.inl ⟨rfl, busy_of_eng heng, hrst, rfl⟩)
  | level b => exact absurd rfl hb
  | reset b t heng hstatus => exact .inr (.inr ⟨b, rfl, by simpa [not_busy_of_eng heng] using hb⟩)

/-- Settles O12. -/
theorem busyChangesOnlyAtIssueCompletionOrReset : Obligations.BusyChangesOnlyAtIssueCompletionOrReset :=
  ⟨fun _ _ => rfl, fun _ _ _ h => not_busy_of_eng (exec_status h).1, fun _ => rfl, fun _ _ _ => inputStep_busy_changes⟩

/-- What changes DONE or ERR. -/
theorem inputStep_done_err_changes {i : Input} {s t : State} (h : inputStep i s = .next t)
    (hd : t.status.done ≠ s.status.done ∨ t.status.err ≠ s.status.err) :
    (∃ w, i = .host (.write 0x00010#18 .word w) ∧ s.busy = false) ∨ (i = .engine ∧ s.busy = true) ∨
      (∃ v, i = .host (.write 0x00014#18 .word v)) ∨ ∃ b, i = .rst b := by
  cases inputStep_move h with
  | other a t heng hstatus => simp [hstatus] at hd
  | clear v => exact .inr (.inr (.inl ⟨v, rfl⟩))
  | drop a v hbusy ha => simp at hd
  | issue w hidle hrst => exact .inl ⟨w, rfl, hidle⟩
  | turn => simp at hd
  | complete i t hrst heng hexec => exact .inr (.inl ⟨rfl, busy_of_eng heng⟩)
  | illegal w hrst heng => exact .inr (.inl ⟨rfl, busy_of_eng heng⟩)
  | level b | reset b => exact .inr (.inr (.inr ⟨b, rfl⟩))

/-- Settles O13. -/
theorem doneAndErrFollowIssueCompletionAndClear : Obligations.DoneAndErrFollowIssueCompletionAndClear := by
  refine ⟨fun _ _ => ⟨rfl, rfl⟩, fun i s t h => ?_, fun s v hr => ?_, fun _ _ _ => inputStep_done_err_changes⟩
  · obtain ⟨-, hdone, ⟨he, hc⟩ | ⟨he, hc | hc | hc | hc⟩⟩ := exec_status h <;> simp [hdone, he, hc]
  · rw [portStep_write_status hr]
    exact ⟨rfl, rfl, fun h2 => if_pos h2⟩

/-! ### CLEAN -/

/-- What changes CLEAN. -/
theorem inputStep_clean_changes {i : Input} {s t : State} (h : inputStep i s = .next t)
    (hc : t.status.clean ≠ s.status.clean) :
    (i = .engine ∧ s.rst = false ∧
      ∃ w, s.eng = .busy w ∧ (w = encode .decode ∨ w = encode .trial ∨ w = encode .experiment)) ∨ ∃ b, i = .rst b := by
  cases inputStep_move h with
  | other a t heng hstatus => exact absurd (congrArg Status.clean hstatus) hc
  | complete i t hrst heng hexec =>
    refine .inl ⟨rfl, hrst, _, heng, ?_⟩
    rcases exec_clean_changes hexec hc with rfl | rfl | rfl <;> simp
  | clear | drop | issue | turn | illegal => exact absurd rfl hc
  | level b | reset b => exact .inr ⟨b, rfl⟩

/-- Settles O14: a DECODE step says what the remainder is, and a sweep ends as its last trial did. -/
theorem cleanSaysTheRemainderIsZero : Obligations.CleanSaysTheRemainderIsZero :=
  ⟨fun _ _ _ => inputStep_clean_changes, fun s _ => exec_setsClean (decodeSteps_setsClean s),
    fun s _ => exec_setsClean (trialAt_setsClean _ s), fun _ _ => execExperiment_cleanSaysRem,
    fun _ _ => execExperiment_keepsClean⟩

/-! ### OVR -/

/-- What sets OVR. -/
theorem inputStep_sets_ovr {i : Input} {s t : State} (h : inputStep i s = .next t) (hs : s.status.ovr = false)
    (ht : t.status.ovr = true) :
    s.busy = true ∧ ∃ a v, i = .host (.write a .word v) ∧ t.resp = some .okWrite ∧ DropAddress s.params a.toNat := by
  cases inputStep_move h with
  | other a t heng hstatus => simp [hstatus, hs] at ht
  | clear v => simp [Status.writeClear, hs] at ht
  | drop a v hbusy ha => exact ⟨hbusy, a, v, rfl, rfl, ha⟩
  | complete i t hrst heng hexec => simp [(exec_kept hexec).ovr, hs] at ht
  | issue | turn | illegal | level => simp [hs] at ht
  | reset b t heng hstatus => simp [hstatus, Status.reset] at ht

/-- What clears OVR. -/
theorem inputStep_clears_ovr {i : Input} {s t : State} (h : inputStep i s = .next t) (hs : s.status.ovr = true)
    (ht : t.status.ovr = false) :
    (∃ v, i = .host (.write 0x00014#18 .word v) ∧ v.getLsbD 4 = true) ∨ ∃ b, i = .rst b := by
  cases inputStep_move h with
  | other a t heng hstatus => simp [hstatus, hs] at ht
  | clear v => exact .inl ⟨v, rfl, by simpa [Status.writeClear, hs] using ht⟩
  | drop => simp at ht
  | complete i t hrst heng hexec => simp [(exec_kept hexec).ovr, hs] at ht
  | issue | turn | illegal => simp [hs] at ht
  | level b | reset b => exact .inr ⟨b, rfl⟩

/-- Settles O15. -/
theorem ovrIsSetByDroppedWritesOnly : Obligations.OvrIsSetByDroppedWritesOnly := by
  refine ⟨fun s a v hr hb hp h4 hd => ?_, fun _ _ _ => inputStep_sets_ovr, fun s v hr h4 => ?_, fun _ _ => rfl,
    fun _ _ _ => inputStep_clears_ovr⟩
  · rw [portStep_write_dropped hr hb hp h4 hd]
    rfl
  · rw [portStep_write_status hr]
    simp [Status.writeClear, h4]

/-! ### ERR_CODE -/

/-- A legal code is that of any class but the reserved one (60_exceptions.md R251). -/
theorem code_legal_iff (e : ErrCode) : e.code ∈ [0#4, 1#4, 2#4, 4#4, 5#4, 6#4] ↔ e ≠ .io := by cases e <;> decide

/-- No move leaves the reserved class where there was none. -/
theorem inputStep_errCode_ne_io {i : Input} {s t : State} (h : inputStep i s = .next t) (hs : s.status.errCode ≠ .io) :
    t.status.errCode ≠ .io := by
  cases inputStep_move h with
  | other a t heng hstatus => rwa [hstatus]
  | clear v =>
    simp only [Status.writeClear]
    split
    · decide
    · exact hs
  | complete i t hrst heng hexec =>
    obtain ⟨-, -, ⟨-, hc⟩ | ⟨-, hc | hc | hc | hc⟩⟩ := exec_status hexec <;> simp [hc]
  | drop | turn | level => exact hs
  | issue | illegal => simp
  | reset b t heng hstatus => simp [hstatus, Status.reset]

/-- Settles O16. -/
theorem reservedErrorCodesAreNeverWritten : Obligations.ReservedErrorCodesAreNeverWritten := by
  refine ⟨fun _ _ => rfl, ⟨rfl, rfl, rfl, rfl, rfl, rfl⟩, fun _ _ => ⟨rfl, rfl⟩, fun i s t h => ?_, fun t v h => ?_,
    fun i s t h hs => ?_⟩
  · obtain ⟨-, -, ⟨he, hc⟩ | ⟨he, hc | hc | hc | hc⟩⟩ := exec_status h <;> simp [he, hc, ErrCode.code]
  · simp [Status.writeClear, h, ErrCode.code]
  · rw [code_legal_iff] at *
    exact inputStep_errCode_ne_io h hs

/-! ### FAIL_OFFSET -/

/-- Settles O17. -/
theorem failOffsetIsTheFailingTrial : Obligations.FailOffsetIsTheFailingTrial := by
  refine ⟨fun _ _ => rfl, fun s u v k e hk hd hr => ?_, fun _ _ _ => exec_keepsFailOffset, fun s v hr => ?_⟩
  · exact ⟨_, execExperiment_fails hk hd hr, rfl, failOffset_toNat v hk⟩
  · exact (portStep_write_reg hr .failOffset v).trans (portWrite_readOnly s v (by simp))

end Sys2Proof.Machine
end

section
/-! The statements about accesses of any address and of the scalar registers: an access by what stands at its address. -/

namespace Sys2Proof.Machine

theorem accessLegal_of_aligned {a : PortAddr} (h4 : a.toNat % 4 = 0) : accessLegal a .word = true := by
  simp [accessLegal, h4]

theorem portStep_read_target {s : State} (hr : s.rst = false) {a : PortAddr} {t : Target}
    (hl : accessLegal a .word = true) (ht : portTarget s.params a = some t) :
    portStep (.read a .word) s = portRead s t := by
  simp only [portStep, hr, Bool.false_eq_true, if_false, hl, if_true, ht]

theorem portStep_write_target {s : State} (hr : s.rst = false) {a : PortAddr} {t : Target} (v : Word)
    (hl : accessLegal a .word = true) (ht : portTarget s.params a = some t) :
    portStep (.write a .word v) s = portWrite s v t := by
  simp only [portStep, hr, Bool.false_eq_true, if_false, hl, if_true, ht]

theorem portWrite_idle {s : State} (he : s.eng = .idle) (v : Word) (t : Target) :
    portWrite s v t = (targetWrite s v t).respond .okWrite := by
  simp only [portWrite, not_busy_of_eng he, Bool.false_eq_true, if_false]

/-- A narrow, misaligned or unmapped access answers ERROR (20_memory.md R71, R72): an access that does anything else has a
mapped word at its address. -/
theorem portStep_illegal_or_unmapped {s : State} (hp : s.params.legal) {a : PortAddr} {n : AccessSize}
    (h : n ≠ .word ∨ a.toNat % 4 ≠ 0 ∨ ¬ IsMapped s.params a.toNat) (v : Word) :
    portStep (.read a n) s = s.respond .error ∧ portStep (.write a n v) s = s.respond .error := by
  have mapped_absurd {t : Target} (hn : n = .word) (h4 : a.toNat % 4 = 0) (ht : portTarget s.params a = some t) : False := by
    have hm : IsMapped s.params a.toNat := (isMapped_iff hp h4).2 ⟨t, ht⟩
    simp [hn, h4, hm] at h
  constructor
  · rcases portStep_cases (.read a n) s with he | ⟨-, _, _, ha, h4, ht, -⟩ | ⟨-, _, _, _, ha, -⟩
    · exact he
    · cases ha
      exact (mapped_absurd rfl h4 ht).elim
    · cases ha
  · rcases portStep_cases (.write a n v) s with he | ⟨-, _, _, ha, -⟩ | ⟨-, _, _, _, ha, h4, ht, -⟩
    · exact he
    · cases ha
    · cases ha
      exact (mapped_absurd rfl h4 ht).elim

/-- A legal access of a mapped word answers OK, busy or idle. -/
theorem portStep_mapped {s : State} (hr : s.rst = false) (hp : s.params.legal) {a : PortAddr} (h4 : a.toNat % 4 = 0)
    (hm : IsMapped s.params a.toNat) (v : Word) :
    (∃ r, (portStep (.read a .word) s).resp = some (.okRead r)) ∧
      (portStep (.write a .word v) s).resp = some .okWrite := by
  obtain ⟨t, ht⟩ := (isMapped_iff hp h4).1 hm
  have hl := accessLegal_of_aligned h4
  rw [portStep_read_target hr hl ht, portStep_write_target hr v hl ht]
  obtain ⟨r, d, hread, -⟩ := portRead_frame s t
  exact ⟨⟨r, by rw [hread]⟩, rfl⟩

/-- Settles O19: a legal access is answered by the word at its address, and every other one by ERROR. -/
theorem illegalAndUnmappedAccessesAnswerError : Obligations.IllegalAndUnmappedAccessesAnswerError := by
  intro s a n v hr hp
  refine ⟨fun h => portStep_illegal_or_unmapped hp h v, ?_⟩
  rintro rfl h4 hm
  exact portStep_mapped hr hp h4 hm v

/-! ### The scalar registers while idle -/

theorem portStep_write_reg_idle {s : State} (hr : s.rst = false) (he : s.eng = .idle) (r : RegName) (v : Word) :
    portStep (.write (BitVec.ofNat 18 r.portOffset) .word v) s = (regWrite s v r).respond .okWrite :=
  (portStep_write_reg hr r v).trans (portWrite_idle he v (.reg r))

theorem portStep_read_reg_idle {s : State} (hr : s.rst = false) (he : s.eng = .idle) (r : RegName) :
    portStep (.read (BitVec.ofNat 18 r.portOffset) .word) s = s.respond (.okRead (regWord s r)) :=
  (portStep_read_reg hr r).trans (portRead_reg (.inl (not_busy_of_eng he)))

/-- The RO addresses are those of the registers whose write is ignored. -/
theorem InReadOnly.reg {a : PortAddr} (h : InReadOnly a.toNat) :
    ∃ r : RegName, a = BitVec.ofNat 18 r.portOffset ∧ r ∈ [.id, .param0, .param1, .failOffset, .missed, .total] := by
  simp only [InReadOnly, List.mem_cons, List.not_mem_nil, or_false] at h
  rcases h with h | h | h | h | h | h
  · exact ⟨.id, portOffset_inj h, by simp⟩
  · exact ⟨.param0, portOffset_inj h, by simp⟩
  · exact ⟨.param1, portOffset_inj h, by simp⟩
  · exact ⟨.failOffset, portOffset_inj h, by simp⟩
  · exact ⟨.missed, portOffset_inj h, by simp⟩
  · exact ⟨.total, portOffset_inj h, by simp⟩

theorem portStep_write_readOnly {s : State} (hr : s.rst = false) {a : PortAddr} (h : InReadOnly a.toNat) (v : Word) :
    portStep (.write a .word v) s = s.respond .okWrite := by
  obtain ⟨r, rfl, hro⟩ := h.reg
  exact (portStep_write_reg hr r v).trans (portWrite_readOnly s v hro)

theorem ctrlWord_eq (b : Bool) : ctrlWord b = if b = true then 1 else 0 := by cases b <;> rfl

/-- Settles O22: one read rule and one write rule, at each register. -/
theorem registersReadAndWriteByAccessType : Obligations.RegistersReadAndWriteByAccessType := by
  intro s v hr he
  have read := portStep_read_reg_idle hr he
  have write r := portStep_write_reg_idle hr he r v
  refine ⟨⟨write .polyLen, write .lenCrc, write .msgLen, write .cwLen, write .burstLen, write .offset, write .trials,
    write .ctrl⟩, fun a h => portStep_write_readOnly hr h v, write .status, ?_⟩
  rw [← ctrlWord_eq]
  exact ⟨read .id, read .param0, read .param1, read .cmd, read .status, read .failOffset, read .polyLen, read .lenCrc,
    read .msgLen, read .cwLen, read .burstLen, read .offset, read .trials, read .ctrl, read .missed, read .total⟩

end Sys2Proof.Machine
end

section
/-! The statements about the windows: a word read and written while idle. -/

namespace Sys2Proof.Machine

/-! ### A mapped word at its own address -/

theorem portStep_read_at {s : State} (hr : s.rst = false) (hp : s.params.legal) {t : Target} (ht : t.mapped s.params) :
    portStep (.read (BitVec.ofNat 18 t.portOffset) .word) s = portRead s t :=
  portStep_read_target hr (portTarget_offset hp ht).2 (portTarget_offset hp ht).1

theorem portStep_write_at {s : State} (hr : s.rst = false) (he : s.eng = .idle) (hp : s.params.legal) {t : Target}
    (ht : t.mapped s.params) (v : Word) :
    portStep (.write (BitVec.ofNat 18 t.portOffset) .word v) s = (targetWrite s v t).respond .okWrite :=
  (portStep_write_target hr v (portTarget_offset hp ht).2 (portTarget_offset hp ht).1).trans (portWrite_idle he v t)

/-! ### Reads -/

/-- A window word reads its bits, whatever is drawn for those with no value. -/
theorem windowWordReads_fillDraws (bit : Nat → Option Bool) (cap w : Nat) (draw : Word) :
    WindowWordReads bit cap w (fillDraws (windowCells bit cap w) draw) := by
  intro k hk
  have read {b : Bool} (hb : (if 32 * w + k < cap then bit (32 * w + k) else some false) = some b) :=
    fillDraws_bit (windowCells bit cap w) (windowCells_length bit cap w) draw k hk b
      ((windowCells_get bit cap w k hk).trans (congrArg some hb))
  exact ⟨fun hcap => read (if_neg (by omega)), fun b hcap hb => read ((if_pos hcap).trans hb)⟩

/-- A bit array whose bits all hold a value draws nothing. -/
theorem windowCells_some_any_isNone (f : Nat → Bool) (cap w : Nat) :
    (windowCells (fun j => some (f j)) cap w).any Option.isNone = false := by
  simp only [windowCells, List.any_map, List.any_eq_false, Function.comp_apply]
  intro j _
  split <;> simp

/-- A window word read while idle: the bits of the array, and draws for those with no value. -/
theorem portStep_read_window {s : State} (hr : s.rst = false) (he : s.eng = .idle) (hp : s.params.legal) {t : Target}
    (ht : t.mapped s.params) (hwin : ∀ r, t ≠ .reg r) {bit : Nat → Option Bool} {cap w : Nat}
    (hcells : targetCells s t = windowCells bit cap w) :
    ∃ r d, portStep (.read (BitVec.ofNat 18 t.portOffset) .word) s = { s with resp := some (.okRead r), draws := d } ∧
      WindowWordReads bit cap w r ∧ ((windowCells bit cap w).any Option.isNone = false → d = s.draws) := by
  obtain ⟨draw, d, hread, hd⟩ := portRead_window (not_busy_of_eng he) hwin
  rw [hcells] at hread hd
  exact ⟨_, d, (portStep_read_at hr hp ht).trans hread, windowWordReads_fillDraws bit cap w draw, hd⟩

/-- A window word whose bits all hold a value reads without a draw. -/
theorem portStep_read_window_total {s : State} (hr : s.rst = false) (he : s.eng = .idle) (hp : s.params.legal)
    {t : Target} (ht : t.mapped s.params) (hwin : ∀ r, t ≠ .reg r) {f : Nat → Bool} {cap w : Nat}
    (hcells : targetCells s t = windowCells (fun j => some (f j)) cap w) :
    ∃ r, portStep (.read (BitVec.ofNat 18 t.portOffset) .word) s = { s with resp := some (.okRead r) } ∧
      WindowWordReads (fun j => some (f j)) cap w r := by
  obtain ⟨r, d, hread, hbits, hd⟩ := portStep_read_window hr he hp ht hwin hcells
  rw [hd (windowCells_some_any_isNone f cap w)] at hread
  exact ⟨r, hread, hbits⟩

/-! ### Bit windows -/

/-- A mapped word of a window of `cap` cells, `k` a word, has a backed cell. -/
theorem lt_of_lt_ceilDiv {k w cap : Nat} (hk : 0 < k) (hw : w < ceilDiv cap k) : k * w < cap := by
  have := (Nat.le_div_iff_mul_le hk).1 (show w + 1 ≤ (cap + k - 1) / k from hw)
  rw [Nat.add_mul, Nat.mul_comm] at this
  omega

/-- A bit of POLY after a window write: that the zero bits are taken out shows in no bit. -/
theorem bit_windowWrite {m : Store Bool} (hm : Store.rising 0 m = true) {w cap : Nat} (hw : 32 * w < cap) (v : Word)
    (j : Nat) :
    Store.bit (Store.dropZeros (Store.write m (32 * w) ((wordBits v).take (cap - 32 * w)))) j =
      if j / 32 = w ∧ j < cap then v.getLsbD (31 - j % 32) else Store.bit m j := by
  rw [Store.bit_dropZeros (Store.rising_write _ _ hm), Store.bit, get_windowWrite m w cap j v hw]
  split <;> rfl

/-- Settles O23: each window is read by the one rule of window reads, and written by its store's read-after-write rule. -/
theorem bitWindowsPackFromTheMostSignificantBit : Obligations.BitWindowsPackFromTheMostSignificantBit := by
  intro s w v hr he hp hwf
  obtain ⟨⟨hpoly, -⟩, -⟩ := (Memory.wf_iff _ _).1 hwf
  refine ⟨fun (hw : (Target.poly w).mapped s.params) => ⟨?_, ?_⟩, fun (hw : (Target.rem w).mapped s.params) => ⟨?_, ?_⟩,
    fun (hw : (Target.cw w).mapped s.params) => ⟨?_, ?_⟩⟩
  · exact portStep_read_window_total hr he hp hw (by simp) rfl
  · exact ⟨_, portStep_write_at hr he hp hw v, bit_windowWrite hpoly (lt_of_lt_ceilDiv (by decide) hw) v⟩
  · exact portStep_read_window_total hr he hp hw (by simp) rfl
  · exact portStep_write_at hr he hp hw v
  · obtain ⟨r, d, hread, hbits, -⟩ := portStep_read_window hr he hp hw (by simp) rfl
    exact ⟨r, d, hread, hbits⟩
  · exact ⟨_, portStep_write_at hr he hp hw v,
      fun j => get_windowWrite _ w _ j v (lt_of_lt_ceilDiv (by decide) hw)⟩

/-! ### The message window -/

/-- Byte lane `k` of a word is `b` where its bits, from the top of the word down, are those of `b`. -/
theorem extractLsb'_lane_eq {r : Word} {b : Byte} {k : Nat} (hk : k < 4)
    (h : ∀ i, i < 8 → r.getLsbD (31 - (8 * k + i)) = b.getLsbD (7 - i)) : r.extractLsb' (24 - 8 * k) 8 = b := by
  refine BitVec.eq_of_getLsbD_eq fun i hi => ?_
  have hbit := h (7 - i) (by omega)
  rw [show 31 - (8 * k + (7 - i)) = 24 - 8 * k + i by omega, show 7 - (7 - i) = i by omega] at hbit
  simpa [BitVec.getLsbD_extractLsb', hi] using hbit

/-- Bit `i` from the top of byte `j` of the message (20_memory.md R75). -/
theorem msgBit_lane (m : Store Byte) {i : Nat} (j : Nat) (hi : i < 8) :
    msgBit m (8 * j + i) = (Store.get m j).map fun b => b.getLsbD (7 - i) := by
  rw [msgBit, show (8 * j + i) / 8 = j by omega, show (8 * j + i) % 8 = i by omega]

/-- A word that reads a message word's 32 bits reads its 4 bytes, 0 beyond the capacity. -/
theorem WindowWordReads.lane {m : Store Byte} {cap w k : Nat} {r : Word}
    (h : WindowWordReads (msgBit m) (8 * cap) w r) (hk : k < 4) :
    (cap ≤ 4 * w + k → r.extractLsb' (24 - 8 * k) 8 = 0) ∧
      ∀ b, 4 * w + k < cap → Store.get m (4 * w + k) = some b → r.extractLsb' (24 - 8 * k) 8 = b := by
  refine ⟨fun hcap => extractLsb'_lane_eq hk fun i hi => ?_, fun b hcap hb => extractLsb'_lane_eq hk fun i hi => ?_⟩
  · rw [(h (8 * k + i) (by omega)).1 (by omega)]
    simp
  · refine (h (8 * k + i) (by omega)).2 _ (by omega) ?_
    rw [show 32 * w + (8 * k + i) = 8 * (4 * w + k) + i by omega, msgBit_lane m _ hi, hb, Option.map_some]

/-- A byte of the message after a window write. -/
theorem get_msgWindowWrite (m : Store Byte) {w cap : Nat} (hw : 4 * w < cap) (v : Word) (i : Nat) :
    Store.get (Store.write m (4 * w) ((wordBytes v).take (cap - 4 * w))) i =
      if i / 4 = w ∧ i < cap then some (v.extractLsb' (24 - 8 * (i % 4)) 8) else Store.get m i := by
  rw [Store.get_write, List.length_take, wordBytes_length]
  by_cases h : i / 4 = w ∧ i < cap
  · have hlane : (wordBytes v)[i % 4]? = some (v.extractLsb' (24 - 8 * (i % 4)) 8) := by
      simp [wordBytes, Nat.mod_lt]
    rw [if_pos h, if_pos (by omega), List.getElem?_take_of_lt (by omega), show i - 4 * w = i % 4 by omega, hlane]
  · rw [if_neg h, if_neg (by omega)]

/-- Settles O24: the window is read as one bit array, lane by lane, and written by the read-after-write rule of MSG. -/
theorem messageWindowPacksBigEndianLanes : Obligations.MessageWindowPacksBigEndianLanes := by
  intro s w v hr he hp (hw : (Target.msg w).mapped s.params)
  constructor
  · obtain ⟨r, d, hread, hbits, -⟩ := portStep_read_window hr he hp hw (by simp) rfl
    exact ⟨r, d, hread, fun k hk => hbits.lane hk⟩
  · exact ⟨_, portStep_write_at hr he hp hw v, get_msgWindowWrite _ (lt_of_lt_ceilDiv (by decide) hw) v⟩

end Sys2Proof.Machine
end

section
/-! The statements about the command words: which words are commands, and what an illegal one does. -/

namespace Sys2Proof.Machine

/-! ### Command words -/

theorem decodeWord_encode (i : Instr) : decodeWord (encode i) = .command i := by
  cases i with
  | encode => exact Laws.RoundTrip.encode.2.2
  | decode => exact Laws.RoundTrip.decode.2.2
  | corrupt => exact Laws.RoundTrip.corrupt.2.2
  | trial => exact Laws.RoundTrip.trial.2.2
  | experiment => exact Laws.RoundTrip.experiment.2.2

/-- Settles O1: each word is what its command encodes to, so decoding it gives the command back. -/
theorem fiveCommandWords : Obligations.FiveCommandWords :=
  ⟨⟨decodeWord_encode .encode, rfl⟩, ⟨decodeWord_encode .decode, rfl⟩, ⟨decodeWord_encode .corrupt, rfl⟩,
    ⟨decodeWord_encode .trial, rfl⟩, ⟨decodeWord_encode .experiment, rfl⟩⟩

/-- The command words are the numbers 1 to 5 (30_encoding.md R111). -/
theorem eq_encode_iff_toNat (w : Word) : (∃ i, w = encode i) ↔ 1 ≤ w.toNat ∧ w.toNat ≤ 5 := by
  constructor
  · rintro ⟨i, rfl⟩
    cases i <;> decide
  · rintro ⟨h1, h5⟩
    have hcases : w.toNat = 1 ∨ w.toNat = 2 ∨ w.toNat = 3 ∨ w.toNat = 4 ∨ w.toNat = 5 := by omega
    rcases hcases with h | h | h | h | h
    · exact ⟨.encode, BitVec.eq_of_toNat_eq h⟩
    · exact ⟨.decode, BitVec.eq_of_toNat_eq h⟩
    · exact ⟨.corrupt, BitVec.eq_of_toNat_eq h⟩
    · exact ⟨.trial, BitVec.eq_of_toNat_eq h⟩
    · exact ⟨.experiment, BitVec.eq_of_toNat_eq h⟩

/-- A word is illegal by its OP or its RSVD exactly when it is no command's word (30_encoding.md R112). -/
theorem illegal_fields_iff_ne_encode (w : Word) :
    (w.toNat % 16 = 0 ∨ 6 ≤ w.toNat % 16 ∨ w.toNat / 16 ≠ 0) ↔ ∀ i, w ≠ encode i := by
  rw [← not_exists, eq_encode_iff_toNat]
  omega

/-! ### An illegal word -/

/-- A word that is no command's word is decoded as illegal. -/
theorem decodeWord_illegal_of_ne_encode {w : Word} (h : ∀ i, w ≠ encode i) : ∃ r, decodeWord w = .illegal r := by
  cases hd : decodeWord w with
  | command i => exact absurd (eq_encode_of_decodeWord hd) (h i)
  | illegal r => exact ⟨r, rfl⟩

/-- A write of CMD while idle issues its word, legal or not (30_encoding.md R112). -/
theorem portStep_write_cmd_idle {s : State} (hr : s.rst = false) (he : s.eng = .idle) (w : Word) :
    portStep (.write 0x00010#18 .word w) s = (s.issue w).respond .okWrite := portStep_write_reg_idle hr he .cmd w

/-- The engine's turn with an illegal word pending (30_encoding.md R112, 60_exceptions.md R256). -/
theorem engineStep_of_illegal {s : State} {w : Word} {r : IllegalWord} (hr : s.rst = false) (he : s.eng = .busy w)
    (hd : decodeWord w = .illegal r) : engineStep s = .next (s.completeError .illegalCmd) := by
  simp only [engineStep, hr, Bool.false_eq_true, if_false, he, hd]

/-- Settles O3: an illegal word is issued by the write rule of CMD, as any word is, and the engine finds it illegal. -/
theorem illegalWordsCompleteWithIllegalCmd : Obligations.IllegalWordsCompleteWithIllegalCmd := by
  intro w
  refine ⟨illegal_fields_iff_ne_encode w, fun hw => ⟨fun s hr he => ?_, fun s hr he => ?_⟩⟩
  · rw [portStep_write_cmd_idle hr he]
    exact ⟨rfl, rfl, rfl⟩
  · obtain ⟨_, hd⟩ := decodeWord_illegal_of_ne_encode ((illegal_fields_iff_ne_encode w).1 hw)
    exact engineStep_of_illegal hr he hd

end Sys2Proof.Machine
end

section
/-! The statement about the bit-stream primitives: the length and the bits of each result, and when a primitive raises. -/

namespace Sys2Proof.Machine

/-! ### Streams from bytes and of zeros -/

theorem byteBits_getElem? (b : Byte) {k : Nat} (hk : k < 8) : (byteBits b)[k]? = some (b.getLsbD (7 - k)) := by
  simp [byteBits, hk]

/-- Bit `k` of the stream's byte `i`, counted from the byte's most significant bit. -/
theorem fromBytes_getElem? (bs : List Byte) (i : Nat) {k : Nat} (hk : k < 8) :
    (fromBytes bs)[8 * i + k]? = bs[i]?.map fun b => b.getLsbD (7 - k) := by
  induction bs generalizing i with
  | nil => rfl
  | cons b bs ih =>
    have hcons : fromBytes (b :: bs) = byteBits b ++ fromBytes bs := List.flatMap_cons
    rw [hcons]
    cases i with
    | zero =>
      rw [List.getElem?_append_left (by rw [byteBits_length]; omega), Nat.mul_zero, Nat.zero_add, byteBits_getElem? b hk]
      rfl
    | succ i =>
      rw [List.getElem?_append_right (by rw [byteBits_length]; omega), byteBits_length, List.getElem?_cons_succ, ← ih i]
      congr 1
      omega

theorem zeros_getElem? {n i : Nat} (h : i < n) : (zeros n)[i]? = some false := List.getElem?_replicate_of_lt h

/-! ### Cutting, joining and shifting -/

theorem slice_range {S : Bits} {lo hi : Nat} (h : hi < lo ∨ S.length < hi) : slice S lo hi = .raise .range := if_pos h

theorem slice_ok {S : Bits} {lo hi : Nat} (h1 : lo ≤ hi) (h2 : hi ≤ S.length) :
    slice S lo hi = .ok ((S.drop lo).take (hi - lo)) := if_neg (by omega)

theorem shiftLeftOne_length {S : Bits} (h : 1 ≤ S.length) : (shiftLeftOne S).length = S.length := by
  rw [shiftLeftOne, List.length_append, List.length_drop, List.length_singleton, Nat.sub_add_cancel h]

theorem shiftLeftOne_getElem? {S : Bits} {j : Nat} (h : j < S.length - 1) : (shiftLeftOne S)[j]? = S[j + 1]? := by
  rw [shiftLeftOne, List.getElem?_append_left (by rwa [List.length_drop]), List.getElem?_drop, Nat.add_comm]

/-- The placeholder stands in the last position. -/
theorem shiftLeftOne_last (S : Bits) : (shiftLeftOne S)[S.length - 1]? = some false := by
  rw [shiftLeftOne, ← List.length_drop, List.getElem?_concat_length]

/-! ### Two streams of one length -/

theorem xorInPlace_mismatch {A B : Bits} (h : A.length ≠ B.length) : xorInPlace A B = .raise .lengthMismatch := if_pos h

theorem xorInPlace_ok {A B : Bits} (h : A.length = B.length) : xorInPlace A B = .ok (xorBits A B) :=
  if_neg (not_not_intro h)

theorem bitsEq_mismatch {A B : Bits} (h : A.length ≠ B.length) : bitsEq A B = .raise .lengthMismatch := if_pos h

theorem bitsEq_ok {A B : Bits} (h : A.length = B.length) : bitsEq A B = .ok (A == B) := if_neg (not_not_intro h)

/-! ### One bit of a stream -/

theorem getBit_range {S : Bits} {i : Nat} (h : S.length ≤ i) : getBit S i = .raise .range := by
  rw [getBit, List.getElem?_eq_none h]

theorem getBit_ok {S : Bits} {i : Nat} (h : i < S.length) : getBit S i = .ok S[i] := by
  rw [getBit, List.getElem?_eq_getElem h]

theorem setBit_range {S : Bits} {i : Nat} (h : S.length ≤ i) (v : Bool) : setBit S i v = .raise .range := if_pos h

theorem setBit_ok {S : Bits} {i : Nat} (h : i < S.length) (v : Bool) : setBit S i v = .ok (S.set i v) :=
  if_neg (Nat.not_le_of_lt h)

/-- Settles O28, primitive by primitive, in the order of the rules. -/
theorem bitStreamPrimitives : Obligations.BitStreamPrimitives := by
  refine ⟨fun bs => ⟨fromBytes_length bs, fun i _ => fromBytes_getElem? bs i⟩,
    fun n => ⟨zeros_length n, fun _ => zeros_getElem?⟩,
    fun S lo hi => ⟨slice_range, fun h1 h2 => ⟨_, slice_ok h1 h2, ?_, fun j hj => ?_⟩⟩,
    fun A B => ⟨List.length_append, fun _ => List.getElem?_append_left, fun j => ?_⟩,
    fun S hS => ⟨shiftLeftOne_length hS, fun _ => shiftLeftOne_getElem?, shiftLeftOne_last S⟩,
    fun A B => ⟨xorInPlace_mismatch, fun h => ⟨_, xorInPlace_ok h, ?_, xorBits_getD A B h⟩⟩,
    fun S i v => ⟨fun h => ⟨getBit_range h, setBit_range h v⟩,
      fun h => ⟨getBit_ok h, _, setBit_ok h v, List.length_set, fun j hj => ?_⟩⟩,
    fun A B => ⟨bitsEq_mismatch, fun h => ⟨_, bitsEq_ok h, ?_⟩⟩⟩
  · rw [List.length_take, List.length_drop]
    omega
  · rw [List.getElem?_take_of_lt hj, List.getElem?_drop]
  · rw [concat, List.getElem?_append_right (Nat.le_add_right _ _), Nat.add_sub_cancel_left]
  · rw [xorBits_length, h, Nat.min_self]
  · rcases eq_or_ne j i with rfl | hne
    · rw [if_pos rfl, List.getElem?_set_self hj]
    · rw [if_neg hne, List.getElem?_set_ne hne.symm]
  · rw [beq_iff_eq, List.ext_getElem?_iff]

end Sys2Proof.Machine
end

section
/-! The statements about ENCODE and DECODE: how a command ends where its steps end, and the state each of the two completes
in. -/

namespace Sys2Proof.Machine

/-! ### A command by the end of its steps -/

theorem exec_of_done {i : Instr} {s t : State} (h : commandSteps i s = .done t) : exec i s = .next t.completeOk := by
  rw [exec_eq, h]
  rfl

/-- A command that raises before it writes changes nothing but STATUS (60_exceptions.md R252). -/
theorem exec_of_raised {i : Instr} {s : State} {e : ErrCode} (h : commandSteps i s = .raised e s) :
    exec i s = .next { s with eng := .idle, status := errStatus e s.status } := by
  rw [exec_eq, h]
  rfl

theorem exec_of_fault {i : Instr} {s : State} {f : Fault} (h : commandSteps i s = .fault f) : exec i s = .fault f := by
  rw [exec_eq, h]
  rfl

/-! ### ENCODE -/

/-- The frame of an ENCODE that completes: it writes CW, CW_LEN and REM (41_crc_engine.md R165). -/
theorem completeOk_encoded {s : State} {bs : List Byte} (h : encodeError s = none) (hb : MessageIs s bs) :
    (encoded s bs).completeOk = { s with
      eng := .idle
      status := okStatus s.status
      regs := { s.regs with cwLen := BitVec.ofNat 32 (encodedLen s) }
      mem := { s.mem with cw := (encoded s bs).mem.cw, rem := (encoded s bs).mem.rem } } := by
  rw [← encoded_cwLen h hb]
  rfl

theorem encodeCompletes : EncodeCompletes := by
  intro s bs h hb
  obtain ⟨hpos, hlong⟩ := encode_dividend_long h hb
  exact ⟨encodedRem s bs, (encoded s bs).completeOk, computeRemainder_ok hpos hlong, encodedRem_length h hb,
    exec_of_done (encodeSteps_done h hb), encoded_get_cw h hb, encoded_bit_rem s bs, completeOk_encoded h hb,
    fun hp => encoded_cwLen_toNat hp h hb⟩

/-- Settles O34, by the three ends of ENCODE's steps: done, raised with no write before, or the model fault. -/
theorem encodeFollowsItsRule : Obligations.EncodeFollowsItsRule :=
  ⟨encodeCompletes, fun _ _ h => exec_of_raised (encodeSteps_raises h),
    fun _ h hm => exec_of_fault (encodeSteps_faults h hm)⟩

/-! ### DECODE -/

/-- The frame of a DECODE that completes: it writes REM and CLEAN (41_crc_engine.md R167). -/
theorem completeOk_decoded (s : State) (c : Bits) :
    (decoded s c).completeOk = { s with
      eng := .idle
      status := { okStatus s.status with clean := decide (remainderBits c (divisor s) = zeros s.regs.lenCrc.toNat) }
      mem := { s.mem with rem := (decoded s c).mem.rem } } := rfl

theorem decodeCompletes : DecodeCompletes := by
  intro s c h hc
  obtain ⟨hpos, hlong⟩ := decode_dividend_long h hc
  exact ⟨remainderBits c (divisor s), (decoded s c).completeOk, computeRemainder_ok hpos hlong, decodedRem_length h hc,
    exec_of_done (decodeSteps_done h hc), decoded_bit_rem s c, completeOk_decoded s c⟩

/-- Settles O35, by the three ends of DECODE's steps: done, raised with no write before, or the model fault. -/
theorem decodeFollowsItsRule : Obligations.DecodeFollowsItsRule :=
  ⟨decodeCompletes, fun _ _ h => exec_of_raised (decodeSteps_raises h),
    fun _ h hm => exec_of_fault (decodeSteps_faults h hm)⟩

end Sys2Proof.Machine
end

section
/-! The statements about CORRUPT and its generator: the state CORRUPT completes in, and the ranges of the count and of the
positions drawn. -/

namespace Sys2Proof.Machine

/-! ### CORRUPT -/

/-- The frame of a CORRUPT that completes: it writes CW (42_burst_error.md R194). -/
theorem completeOk_corrupted (s : State) (k : Nat) :
    (corrupted s k).completeOk = { s with
      eng := .idle
      status := okStatus s.status
      mem := { s.mem with cw := (corrupted s k).mem.cw } } := rfl

theorem corruptCompletes : CorruptCompletes := fun s h =>
  ⟨(corrupted s s.regs.offset.toNat).completeOk, exec_of_done (corruptSteps_done h), corrupted_get_cw s _,
    completeOk_corrupted s _⟩

/-- Settles O38, by the two ends of CORRUPT's steps: done, or raised with no write before. -/
theorem corruptFollowsItsRule : Obligations.CorruptFollowsItsRule :=
  ⟨corruptCompletes, fun _ _ h => exec_of_raised (corruptSteps_raises h)⟩

/-! ### The generator -/

theorem burstRng_count_lt (g : Generator) (seed : Nat) {n : Nat} (hn : 2 ≤ n) : (burstRng g seed n).1 < n - 1 :=
  Nat.mod_lt _ (by omega)

theorem burstRng_positions_length (g : Generator) (seed n : Nat) :
    (burstRng g seed n).2.length = (burstRng g seed n).1 := by
  simp only [burstRng, List.length_map, List.length_range]

/-- Where a position is drawn the count is at least 1, so `n` is at least 3 and the range `[1, n - 1)` is not empty. -/
theorem burstRng_position_range {g : Generator} {seed n q : Nat} (hn : 2 ≤ n) (hq : q ∈ (burstRng g seed n).2) :
    1 ≤ q ∧ q < n - 1 := by
  have hcount : 0 < (burstRng g seed n).1 := burstRng_positions_length g seed n ▸ List.length_pos_of_mem hq
  have hlt := burstRng_count_lt g seed hn
  simp only [burstRng, List.mem_map] at hq
  obtain ⟨j, -, rfl⟩ := hq
  have hdraw : Generator.draw g seed n (j + 1) % (n - 2) < n - 2 := Nat.mod_lt _ (by omega)
  omega

/-- Settles O40: the count and each position are remainders below the width of their range. -/
theorem generatorObeysItsLaws : Obligations.GeneratorObeysItsLaws := fun g seed n hn =>
  ⟨burstRng_count_lt g seed hn, burstRng_positions_length g seed n, fun _ => burstRng_position_range hn⟩

end Sys2Proof.Machine
end

section
/-! The statements about TRIAL and EXPERIMENT: the state a trial ends in, what a sweep of trials writes, and its misses as
the obligations count them. -/

namespace Sys2Proof.Machine

/-! ### What a trial writes -/

/-- `s` with what a trial writes as `t` has it: CW, CW_LEN, REM and CLEAN (43_validator.md R220). -/
def State.withTrialOutputs (s t : State) : State :=
  { s with
    status := { s.status with clean := t.status.clean }
    regs := { s.regs with cwLen := t.regs.cwLen }
    mem := { s.mem with cw := t.mem.cw, rem := t.mem.rem } }

/-- From `s` to `t` nothing but a trial's outputs changed. -/
def TrialFrame (s t : State) : Prop := t = s.withTrialOutputs t

theorem TrialFrame.refl (s : State) : TrialFrame s s := rfl

theorem TrialFrame.trans {s t u : State} (h : TrialFrame s t) (g : TrialFrame t u) : TrialFrame s u :=
  calc u = t.withTrialOutputs u := g
    _ = (s.withTrialOutputs t).withTrialOutputs u := congrArg (State.withTrialOutputs · u) h
    _ = s.withTrialOutputs u := rfl

theorem trialFrame_encoded (s : State) (bs : List Byte) : TrialFrame s (encoded s bs) := rfl
theorem trialFrame_corrupted (s : State) (k : Nat) : TrialFrame s (corrupted s k) := rfl
theorem trialFrame_decoded (s : State) (c : Bits) : TrialFrame s (decoded s c) := rfl

theorem trialAt_frame (k : Nat) (s : State) : (trialAt k s).Ends (TrialFrame s) :=
  ends_trial (.refl s) (fun u bs hu _ _ => hu.trans (trialFrame_encoded u bs)) (fun u hu => hu.trans (trialFrame_corrupted u k))
    fun u c hu _ _ => hu.trans (trialFrame_decoded u c)

theorem trialAt_done_frame {k : Nat} {s t : State} (h : trialAt k s = .done t) : TrialFrame s t := by
  have hends := trialAt_frame k s
  rwa [h] at hends

theorem trialAt_raised_frame {k : Nat} {s t : State} {e : ErrCode} (h : trialAt k s = .raised e t) : TrialFrame s t := by
  have hends := trialAt_frame k s
  rw [h] at hends
  exact hends.1

/-- The trials of a sweep write nothing but a trial's outputs. -/
theorem sweep_finished_frame {n k missed m : Nat} {s t : State} (h : sweep n k missed s = .finished m t) : TrialFrame s t :=
  ((sweep_keeps (P := TrialFrame s) (fun _ _ _ hu ht => hu.trans (trialAt_done_frame ht))
    (fun _ _ _ _ hu ht => hu.trans (trialAt_raised_frame ht)) n k missed (.refl s)).1 m t h).1

/-! ### The state a trial ends in -/

/-- CORRUPT's checks pass where the burst lies in the codeword ENCODE writes, which is inside the buffer. -/
theorem corruptError_of_burst_inside {s : State} {k : Nat} (hp : s.params.legal) (h : encodeError s = none)
    (hbpol : s.regs.bpol = false) (hburst : 2 ≤ s.regs.burstLen.toNat) (hk : k + s.regs.burstLen.toNat ≤ encodedLen s) :
    corruptError s k (encodedLen s) = none := by
  obtain ⟨hcap, -, -⟩ := encodedLen_le hp h
  rw [corruptError, if_neg (by simp [hbpol]), if_neg (by omega), if_neg (by omega), if_neg (by omega)]

theorem computeRemainder_encoded {s : State} {bs : List Byte} (h : encodeError s = none) (hb : MessageIs s bs) :
    computeRemainder (fromBytes bs ++ zeros s.regs.lenCrc.toNat) (divisor s) = .ok (encodedRem s bs) := by
  obtain ⟨hpos, hlong⟩ := encode_dividend_long h hb
  exact computeRemainder_ok hpos hlong

theorem computeRemainder_trialCodeword {s : State} {bs : List Byte} (hp : s.params.legal) (h : encodeError s = none)
    (hb : MessageIs s bs) (k : Nat) : computeRemainder (trialCodeword s bs k) (divisor s) = .ok (trialSyndrome s bs k) := by
  obtain ⟨hpos, hlong⟩ := decode_dividend_long (decodeError_trial hp h hb k) (codewordIs_trial hp h hb k)
  exact computeRemainder_ok hpos hlong

theorem trialed_cwLen {s : State} {bs : List Byte} (h : encodeError s = none) (hb : MessageIs s bs) (k : Nat) :
    (trialed s bs k).regs.cwLen = BitVec.ofNat 32 (encodedLen s) := encoded_cwLen h hb

/-! ### TRIAL -/

/-- A command that raises keeps what its earlier steps wrote (60_exceptions.md R252). -/
theorem exec_of_raised_after {i : Instr} {s t : State} {e : ErrCode} (h : commandSteps i s = .raised e t) :
    exec i s = .next (t.completeError e) := by
  rw [exec_eq, h]
  rfl

theorem completeOk_trialed {s : State} {bs : List Byte} (h : encodeError s = none) (hb : MessageIs s bs) (k : Nat) :
    (trialed s bs k).completeOk = { s with
      eng := .idle
      status := { okStatus s.status with clean := decide (trialSyndrome s bs k = zeros s.regs.lenCrc.toNat) }
      regs := { s.regs with cwLen := BitVec.ofNat 32 (encodedLen s) }
      mem := { s.mem with cw := (trialed s bs k).mem.cw, rem := (trialed s bs k).mem.rem } } := by
  rw [← trialed_cwLen h hb k]
  rfl

theorem completeError_encoded {s : State} {bs : List Byte} (h : encodeError s = none) (hb : MessageIs s bs) (e : ErrCode) :
    (encoded s bs).completeError e = { s with
      eng := .idle
      status := errStatus e s.status
      regs := { s.regs with cwLen := BitVec.ofNat 32 (encodedLen s) }
      mem := { s.mem with cw := (encoded s bs).mem.cw, rem := (encoded s bs).mem.rem } } := by
  rw [← encoded_cwLen h hb]
  rfl

theorem trialCompletes : TrialCompletes := by
  intro s bs hp h hb hc
  obtain ⟨-, hburst, -, hk⟩ := corruptError_none hc
  exact ⟨encodedRem s bs, trialSyndrome s bs s.regs.offset.toNat, (trialed s bs s.regs.offset.toNat).completeOk,
    computeRemainder_encoded h hb, computeRemainder_trialCodeword hp h hb _, exec_of_done (trialAt_done hp h hb hc),
    trialed_get_cw h hb _ hburst hk, trialed_bit_rem s bs _, completeOk_trialed h hb _⟩

theorem trialRaisesInCorrupt : TrialRaisesInCorrupt := fun s bs e hp h hb hc =>
  ⟨encodedRem s bs, (encoded s bs).completeError e, computeRemainder_encoded h hb,
    exec_of_raised_after (trialAt_raises_corrupt hp h hb hc), encoded_get_cw h hb, encoded_bit_rem s bs,
    completeError_encoded h hb e⟩

/-- Settles O42, by the four ends of a trial: done, raised in ENCODE or in CORRUPT, or the model fault. -/
theorem trialFollowsItsRule : Obligations.TrialFollowsItsRule :=
  ⟨trialCompletes, fun _ _ h => exec_of_raised (trialAt_raises_encode _ h), trialRaisesInCorrupt,
    fun _ h hm => exec_of_fault (trialAt_faults _ h hm)⟩

/-! ### EXPERIMENT -/

theorem experimentSteps_no_trials {s : State} (h : s.regs.trials = 0) : experimentSteps s = .done (s.setSweep 0 0) := by
  rw [experimentSteps, h]
  rfl

theorem experimentOfNoTrials : ExperimentOfNoTrials := fun _ h => exec_of_done (i := .experiment) (experimentSteps_no_trials h)

/-- A miss is a trial whose syndrome the kernel computes as zero. -/
theorem missedAt_eq_missAt {s : State} {bs : List Byte} (hp : s.params.legal) (h : encodeError s = none)
    (hb : MessageIs s bs) : missedAt s (fromBytes bs ++ encodedRem s bs) = missAt s bs := by
  funext k
  have hsyn := computeRemainder_trialCodeword hp h hb k
  rw [trialCodeword] at hsyn
  simp only [missedAt, missAt, hsyn, Result.ok.injEq]

/-- The misses among the first `n` trials (43_validator.md R222). -/
def missCount (s : State) (bs : List Byte) (n : Nat) : Nat := (List.range n).countP (missAt s bs)

theorem missCount_le (s : State) (bs : List Byte) (n : Nat) : missCount s bs n ≤ n :=
  List.countP_le_length.trans (List.length_range).le

/-- A sweep of at least one trial whose checks all pass ends in the state of its last trial, from operands as they were and
with CW as it was above the codeword. -/
theorem sweep_finishes {s : State} {bs : List Byte} {n : Nat} (hp : s.params.legal) (h : encodeError s = none)
    (hb : MessageIs s bs) (hn : 1 ≤ n) (hc : ∀ k, k < n → corruptError s k (encodedLen s) = none) :
    ∃ u, sweep n 0 0 s = .finished (missCount s bs n) (trialed u bs (n - 1)) ∧ SameOperands s u ∧
      ∀ j, encodedLen s ≤ j → Store.get u.mem.cw j = Store.get s.mem.cw j := by
  obtain ⟨t, hsweep, -, -, hlast⟩ := sweep_all_done hp h hb n 0 0 (.refl s) fun j _ hj => hc j (by omega)
  obtain ⟨u, hu, htrial, hcw⟩ := hlast hn
  simp only [Nat.zero_add] at hsweep htrial
  have hdone : trialAt (n - 1) u = .done (trialed u bs (n - 1)) :=
    trialAt_done (hu.params ▸ hp) (hu.encodeError_eq ▸ h) (hu.messageIs hb)
      (by rw [← hu.corruptError_eq, ← hu.encodedLen_eq]; exact hc _ (by omega))
  obtain rfl : t = trialed u bs (n - 1) := Run.done.inj (htrial.symm.trans hdone)
  exact ⟨u, hsweep, hu, hcw⟩

/-- The frame of a sweep that finishes in `t`: a trial's outputs as `t` has them, and the sweep's results. -/
theorem completeOk_setSweep {s t : State} (h : TrialFrame s t) (m : Nat) :
    (t.setSweep m s.regs.trials.toNat).completeOk = { s with
      eng := .idle
      status := { okStatus s.status with clean := t.status.clean }
      regs := { s.regs with cwLen := t.regs.cwLen, missed := BitVec.ofNat 32 m, total := s.regs.trials }
      mem := { s.mem with cw := t.mem.cw, rem := t.mem.rem } } := by
  have hsweep := congrArg (fun u : State => (u.setSweep m s.regs.trials.toNat).completeOk) h
  refine hsweep.trans ?_
  simp only [State.setSweep, BitVec.ofNat_toNat, BitVec.setWidth_eq]
  rfl

theorem experimentSteps_of_finished {s t : State} {m : Nat} (h : sweep s.regs.trials.toNat 0 0 s = .finished m t) :
    experimentSteps s = .done (t.setSweep m s.regs.trials.toNat) := by
  rw [experimentSteps, h]

theorem experimentSweeps : ExperimentSweeps := by
  intro s bs hp h hb hbpol hburst htrials hfits
  have hc (k : Nat) (hk : k < s.regs.trials.toNat) : corruptError s k (encodedLen s) = none :=
    corruptError_of_burst_inside hp h hbpol hburst (by omega)
  obtain ⟨u, hsweep, hu, hcw⟩ := sweep_finishes hp h hb htrials hc
  have hue : encodeError u = none := hu.encodeError_eq ▸ h
  have hub := hu.messageIs hb
  refine ⟨encodedRem s bs, trialSyndrome s bs (s.regs.trials.toNat - 1), _, computeRemainder_encoded h hb,
    computeRemainder_trialCodeword hp h hb _, exec_of_done (experimentSteps_of_finished hsweep), ?_, fun j => ?_,
    fun j => ?_, ?_⟩
  · have hle := missCount_le s bs s.regs.trials.toNat
    have hlt := s.regs.trials.isLt
    rw [missedAt_eq_missAt hp h hb]
    exact Nat.mod_eq_of_lt (by omega)
  · rw [hu.encodedLen_eq] at hfits hcw ⊢
    rw [hu.burstLen] at hburst hfits
    refine (trialed_get_cw hue hub _ hburst hfits j).trans ?_
    rw [← hu.trialCodeword_eq]
    split
    · rfl
    · exact hcw j (by omega)
  · exact (trialed_bit_rem u bs _ j).trans (by rw [← hu.trialSyndrome_eq])
  · refine (completeOk_setSweep (sweep_finished_frame hsweep) _).trans ?_
    rw [trialed_cwLen hue hub, trialed_clean, ← hu.trialSyndrome_eq, ← hu.lenCrc, ← hu.encodedLen_eq]
    rfl

/-- Settles O43, by the ends of a sweep: no trial, every trial done, the first trial that raises, or the model fault. -/
theorem experimentFollowsItsRule : Obligations.ExperimentFollowsItsRule :=
  ⟨experimentOfNoTrials, experimentSweeps, fun _ _ _ _ _ => execExperiment_fails,
    fun _ hn h hm => exec_of_fault (experimentSteps_faults hn h hm)⟩

end Sys2Proof.Machine
end

section
/-! The statement about a recorded error: what can end it (60_exceptions.md R258). -/

namespace Sys2Proof.Machine

/-- With the invariant an error is recorded only while idle (70_reset_and_hazards.md R284). -/
theorem State.Inv.not_busy_of_err {s : State} (hs : s.Inv) (he : s.status.err = true) : s.busy = false := by
  by_contra hb
  obtain ⟨-, herr, -⟩ := hs.busy_clear (by simpa using hb)
  simp [he] at herr

/-- A STATUS write with bit 2 clear leaves ERR and ERR_CODE as they are (10_state.md R30). -/
theorem Status.writeClear_keeps_error (t : Status) {v : Word} (hv : v.getLsbD 2 = false) :
    (t.writeClear v).err = t.err ∧ (t.writeClear v).errCode = t.errCode := by
  simp only [Status.writeClear, hv, Bool.not_false, Bool.and_true, Bool.false_eq_true, if_false, and_self]

/-- A move leaves ERR and ERR_CODE as they are unless the host clears the error, issues a command or resets the block:
the error is recorded while idle, so the move completes no command. -/
theorem inputStep_keeps_error {i : Input} {s t : State} (hs : s.Inv) (h : inputStep i s = .next t)
    (he : s.status.err = true) :
    (t.status.err = true ∧ t.status.errCode = s.status.errCode) ∨
      (∃ v, i = .host (.write 0x00014#18 .word v) ∧ v.getLsbD 2 = true) ∨
      (∃ v, i = .host (.write 0x00010#18 .word v) ∧ t.eng = .busy v) ∨ ∃ b, i = .rst b := by
  have hidle := hs.not_busy_of_err he
  cases inputStep_move h with
  | other a t heng hstatus => exact .inl ⟨hstatus ▸ he, congrArg Status.errCode hstatus⟩
  | clear v =>
    cases hv : v.getLsbD 2 with
    | true => exact .inr (.inl ⟨v, rfl, hv⟩)
    | false =>
      obtain ⟨herr, hcode⟩ := s.status.writeClear_keeps_error hv
      exact .inl ⟨herr.trans he, hcode⟩
  | issue w => exact .inr (.inr (.inl ⟨w, rfl, rfl⟩))
  | drop | turn => exact .inl ⟨he, rfl⟩
  | complete i t hrst heng | illegal w hrst heng => simp [busy_of_eng heng] at hidle
  | level b | reset b => exact .inr (.inr (.inr ⟨b, rfl⟩))

/-- Settles O18: the moves that can end an error, and the write rules of STATUS and CMD. -/
theorem errorStaysUntilCleared : Obligations.ErrorStaysUntilCleared :=
  ⟨fun _ _ _ => inputStep_keeps_error, fun _ v hr => portStep_write_status hr v,
    fun _ w hr hi => portStep_write_cmd_idle hr hi w⟩

end Sys2Proof.Machine
end

section
/-! The statements about reset: the registers and the buffers after it, and what the reset input does and what leaves it
alone (70_reset_and_hazards.md R280 to R282). -/

namespace Sys2Proof.Machine

/-! ### The buffers after reset -/

/-- POLY after reset is the divisor "11111" (10_state.md R46). -/
theorem bit_poly_reset (j : Nat) : Store.bit Memory.reset.poly j = decide (j < 5) := by
  refine (Store.bit_numbered (List.replicate 5 true) j).trans ?_
  by_cases hj : j < 5
  · rw [List.getD_replicate _ hj, decide_eq_true hj]
  · rw [List.getD_eq_default _ _ (by simpa using hj), decide_eq_false hj]

theorem bit_rem_reset (j : Nat) : Store.bit Memory.reset.rem j = false := rfl

theorem get_msg_reset (j : Nat) : Store.get Memory.reset.msg j = none := rfl

theorem get_cw_reset (j : Nat) : Store.get Memory.reset.cw j = none := rfl

/-- No field of STATUS is set after reset (10_state.md R27). -/
theorem statusWord_reset : statusWord false .reset = 0x00000000#32 := by decide

/-- Settles O7, register by register and buffer by buffer. -/
theorem resetStateHoldsTheSpecValues : Obligations.ResetStateHoldsTheSpecValues := fun p =>
  ⟨.resetWith p, rfl, ⟨rfl, rfl, rfl⟩, statusWord_reset, ⟨rfl, rfl, rfl⟩, ⟨rfl, rfl, rfl, rfl, rfl, rfl, rfl, rfl⟩, bit_poly_reset,
    bit_rem_reset, get_msg_reset, get_cw_reset, rfl⟩

/-! ### The reset input -/

theorem engineStep_of_rst {s : State} (hr : s.rst = true) : engineStep s = .next s := by
  simp only [engineStep, hr, if_true]

/-- An assertion of rst, and a change of its level while it is asserted, give the block its reset values (log 8). -/
theorem resetLevel_resets {b : Bool} {s : State} (h : b = true ∨ s.rst = true) :
    resetLevel b s =
      { State.resetWith s.params with rst := b, inputs := s.inputs, resp := s.resp, draws := s.draws } :=
  if_pos (by simpa using h)

/-- The deassertion of rst ends in the state after reset, but for the fields that are the model's own. -/
theorem resetLevel_deassert {s : State} (hr : s.rst = true) :
    resetLevel false s = { State.resetWith s.params with inputs := s.inputs, resp := s.resp, draws := s.draws } :=
  resetLevel_resets (.inr hr)

/-! ### There is no software reset -/

theorem targetWrite_rst (s : State) (v : Word) (t : Target) : (targetWrite s v t).rst = s.rst := by
  cases t with
  | reg r => cases r <;> rfl
  | poly | rem | msg | cw => rfl

theorem targetWriteBusy_rst (s : State) (v : Word) (t : Target) : (targetWriteBusy s v t).rst = s.rst := by
  cases t with
  | reg r => cases r <;> rfl
  | poly | rem | msg | cw => rfl

theorem portWrite_rst (s : State) (v : Word) (t : Target) : (portWrite s v t).rst = s.rst := by
  unfold portWrite
  split
  · exact targetWriteBusy_rst s v t
  · exact targetWrite_rst s v t

/-- No access changes the reset input. -/
theorem portStep_rst (a : Access) (s : State) : (portStep a s).rst = s.rst := by
  rcases portStep_cases a s with he | ⟨-, _, t, -, -, -, he⟩ | ⟨-, _, t, v, -, -, -, he⟩ <;> rw [he]
  · rfl
  · obtain ⟨_, _, hread, -⟩ := portRead_frame s t
    rw [hread]
  · exact portWrite_rst s v t

/-- No turn of the engine changes the reset input. -/
theorem engineStep_keeps_rst {s t : State} (h : engineStep s = .next t) : t.rst = s.rst := by
  cases engineStep_move h with
  | turn | illegal => rfl
  | complete i t hrst heng hexec => exact (exec_kept hexec).rst

/-- Only the reset input's own level changes it. -/
theorem inputStep_keeps_rst {i : Input} {s t : State} (h : inputStep i s = .next t) (hi : ∀ b, i ≠ .rst b) :
    t.rst = s.rst := by
  cases i with
  | host a =>
    cases h
    exact portStep_rst a s
  | engine => exact engineStep_keeps_rst h
  | rst b => exact absurd rfl (hi b)

/-- Settles O8: while rst is asserted, at its assertion, at its deassertion, and at every other input. -/
theorem resetInputAbandonsAndRestores : Obligations.ResetInputAbandonsAndRestores := by
  refine ⟨fun s a hr => portStep_of_rst hr a, fun s => engineStep_of_rst, fun s => ?_, fun s hr => ?_,
    fun i s t => inputStep_keeps_rst⟩
  · rw [resetLevel_resets (.inl rfl)]
    exact ⟨rfl, rfl⟩
  · rw [resetLevel_deassert hr]
    exact ⟨rfl, rfl, rfl, rfl, rfl, bit_poly_reset, bit_rem_reset, get_msg_reset, get_cw_reset⟩

end Sys2Proof.Machine
end

section
/-! The statements about a write of CMD while idle and about any write while busy (70_reset_and_hazards.md R284, R285). -/

namespace Sys2Proof.Machine

/-- Settles O25 by the write rule of CMD. -/
theorem commandIssue : Obligations.CommandIssue := fun _ w hr he => portStep_write_cmd_idle hr he w

/-! ### Writes while busy -/

/-- An address of the REM window stands for the word it lies in. -/
theorem InRem.target {p : Params} (hp : p.legal) {a : PortAddr} (h4 : a.toNat % 4 = 0) (h : InRem p a.toNat) :
    ∃ w, portTarget p a = some (.rem w) := by
  obtain ⟨hlo, hhi⟩ := h
  refine ⟨(a.toNat - remBase) / 4, (portTarget_eq_some hp h4 _).2 ⟨?_, ?_⟩⟩
  · simp only [Target.portOffset, remBase]
    omega
  · simp only [Target.mapped, remWords, ceilDiv, remBase]
    omega

/-- REM ignores a write, busy or idle (10_state.md R47, 70_reset_and_hazards.md R285). -/
theorem portWrite_rem (s : State) (v : Word) (w : Nat) : portWrite s v (.rem w) = s.respond .okWrite := by
  simp only [portWrite, targetWriteBusy, targetWrite, ite_self]

theorem portStep_write_rem {s : State} (hr : s.rst = false) (hp : s.params.legal) {a : PortAddr} (h4 : a.toNat % 4 = 0)
    (h : InRem s.params a.toNat) (v : Word) : portStep (.write a .word v) s = s.respond .okWrite := by
  obtain ⟨w, ht⟩ := h.target hp h4
  rw [portStep_write_target hr v (accessLegal_of_aligned h4) ht, portWrite_rem]

/-- Settles O26: a dropped write, a write of STATUS, and a write of an RO register or of REM. -/
theorem writesWhileBusyAreDropped : Obligations.WritesWhileBusyAreDropped := by
  intro s a v hr hb hp h4
  refine ⟨fun hd => portStep_write_dropped hr hb hp h4 hd v, fun ha => ?_, ?_⟩
  · obtain rfl := portOffset_inj (r := .status) ha
    exact portStep_write_status hr v
  · rintro (hro | hrem)
    · exact portStep_write_readOnly hr hro v
    · exact portStep_write_rem hr hp h4 hrem v

end Sys2Proof.Machine
end

section
/-! The statement that decode and encode agree on every word. -/

namespace Sys2Proof.Machine

/-- Settles O2: a decoded word is its two fields put together again, and each command's word decodes to it. -/
theorem decodeReadsExactlyTheEncodedWords : Obligations.DecodeReadsExactlyTheEncodedWords := fun _ i =>
  ⟨eq_encode_of_decodeWord, fun h => h ▸ decodeWord_encode i⟩

end Sys2Proof.Machine
end

section
/-! The statements about the invariant: it is a condition on the storage, which every part of a command and every host write
keep, and one on the engine and STATUS, which every move keeps. -/

namespace Sys2Proof.Machine

/-! ### The two halves of the invariant -/

/-- The part of the invariant that speaks of the parameters, the buffers and the sweep's counters. -/
structure State.StorageInv (s : State) : Prop where
  params_legal : s.params.legal
  mem_wf : Memory.wf s.params s.mem = true
  missed_le : s.regs.missed.toNat ≤ s.regs.total.toNat

/-- The part of the invariant that speaks of the engine, of STATUS and of the reset input. -/
structure State.ControlInv (s : State) : Prop where
  not_io : s.status.errCode ≠ .io
  err_iff : s.status.err = true ↔ s.status.errCode ≠ .noError
  busy_clear : s.busy = true → s.status.done = false ∧ s.status.err = false ∧ s.regs.failOffset = 0
  rst_idle : s.rst = true → s.eng = .idle

theorem State.inv_iff (s : State) : s.Inv ↔ s.StorageInv ∧ s.ControlInv :=
  ⟨fun h => ⟨⟨h.params_legal, h.mem_wf, h.missed_le⟩, ⟨h.not_io, h.err_iff, h.busy_clear, h.rst_idle⟩⟩,
    fun ⟨h, g⟩ => ⟨h.params_legal, h.mem_wf, g.not_io, g.err_iff, g.busy_clear, g.rst_idle, h.missed_le⟩⟩

/-- The invariant says nothing of the inputs to come. -/
theorem State.Inv.withInputs {s : State} (h : s.Inv) (rest : List Input) : State.Inv { s with inputs := rest } :=
  ⟨h.params_legal, h.mem_wf, h.not_io, h.err_iff, h.busy_clear, h.rst_idle, h.missed_le⟩

/-- While idle, the engine's half is the agreement of ERR with its code. -/
theorem State.ControlInv.of_idle {s : State} (hidle : s.eng = .idle) (hio : s.status.errCode ≠ .io)
    (herr : s.status.err = true ↔ s.status.errCode ≠ .noError) : s.ControlInv :=
  ⟨hio, herr, fun hb => by simp [not_busy_of_eng hidle] at hb, fun _ => hidle⟩

/-! ### Reset -/

theorem State.storageInv_resetWith {p : Params} (hp : p.legal) : (State.resetWith p).StorageInv :=
  ⟨hp, Memory.wf_reset hp, Nat.le_refl 0⟩

theorem State.controlInv_resetWith (p : Params) : (State.resetWith p).ControlInv :=
  .of_idle rfl (by simp [Status.reset]) (by simp [Status.reset])

theorem State.inv_resetWith {p : Params} (hp : p.legal) : (State.resetWith p).Inv :=
  (State.inv_iff _).2 ⟨State.storageInv_resetWith hp, State.controlInv_resetWith p⟩

/-- The open parameters are in their ranges, whatever they are (00_scope.md R7). -/
theorem configParams_legal : Config.params.legal := by
  have hmsg := Config.msgMaxIndex.isLt
  have hpoly := Config.polyMaxIndex.isLt
  simp only [Config.params, Params.legal]
  omega

/-- Settles O9: the open parameters are legal, and every legal block resets into the invariant. -/
theorem invariantHoldsAtReset : Obligations.InvariantHoldsAtReset :=
  ⟨State.inv_resetWith configParams_legal, fun _ => State.inv_resetWith⟩

theorem resetLevel_inv (b : Bool) {s : State} (h : s.Inv) : (resetLevel b s).Inv := by
  unfold resetLevel
  split
  · obtain ⟨hp, hwf, hio, herr, -, -, hle⟩ := State.inv_resetWith h.params_legal
    exact ⟨hp, hwf, hio, herr, fun hb => (nomatch hb), fun _ => rfl, hle⟩
  · exact h

/-! ### Host accesses -/

theorem targetWrite_storageInv {s : State} (v : Word) (t : Target) (h : s.StorageInv) : (targetWrite s v t).StorageInv := by
  have hwf := Memory.wf_targetWrite v t h.mem_wf
  cases t with
  | reg r => cases r <;> exact ⟨h.params_legal, hwf, h.missed_le⟩
  | poly | rem | msg | cw => exact ⟨h.params_legal, hwf, h.missed_le⟩

/-- A write while busy changes STATUS at most. -/
theorem targetWriteBusy_storageInv {s : State} (v : Word) (t : Target) (h : s.StorageInv) :
    (targetWriteBusy s v t).StorageInv := by
  have keeps (u : Status) : State.StorageInv { s with status := u } := ⟨h.params_legal, h.mem_wf, h.missed_le⟩
  cases t with
  | reg r => cases r <;> exact keeps _
  | poly | rem | msg | cw => exact keeps _

theorem portWrite_storageInv {s : State} (v : Word) (t : Target) (h : s.StorageInv) : (portWrite s v t).StorageInv := by
  have respond {u : State} (hu : u.StorageInv) : (u.respond .okWrite).StorageInv :=
    ⟨hu.params_legal, hu.mem_wf, hu.missed_le⟩
  unfold portWrite
  split
  · exact respond (targetWriteBusy_storageInv v t h)
  · exact respond (targetWrite_storageInv v t h)

theorem portStep_storageInv (a : Access) {s : State} (h : s.StorageInv) : (portStep a s).StorageInv := by
  rcases portStep_cases a s with he | ⟨-, _, t, -, -, -, he⟩ | ⟨-, _, t, v, -, -, -, he⟩ <;> rw [he]
  · exact ⟨h.params_legal, h.mem_wf, h.missed_le⟩
  · obtain ⟨_, _, hread, -⟩ := portRead_frame s t
    rw [hread]
    exact ⟨h.params_legal, h.mem_wf, h.missed_le⟩
  · exact portWrite_storageInv v t h

/-- A STATUS write keeps ERR and its code together: it clears both or neither (10_state.md R30). -/
theorem Status.writeClear_err_iff {t : Status} (v : Word) (h : t.err = true ↔ t.errCode ≠ .noError) :
    (t.writeClear v).err = true ↔ (t.writeClear v).errCode ≠ .noError := by
  simp only [Status.writeClear]
  cases v.getLsbD 2 with
  | true => simp
  | false => simpa using h

theorem Status.writeClear_ne_io {t : Status} (v : Word) (h : t.errCode ≠ .io) : (t.writeClear v).errCode ≠ .io := by
  simp only [Status.writeClear]
  split
  · decide
  · exact h

theorem portStep_controlInv (a : Access) {s : State} (h : s.ControlInv) : (portStep a s).ControlInv := by
  have hrst := portStep_rst a s
  rcases portStep_effect a s with ⟨heng, hstatus, hfail⟩ | ⟨v, -, he⟩ | ⟨-, -, _, _, _, -, -, -, he, -⟩ | ⟨-, hr, w, -, he⟩
  · refine ⟨hstatus ▸ h.not_io, hstatus ▸ h.err_iff, fun hb => ?_, fun hr => heng.trans (h.rst_idle (hrst ▸ hr))⟩
    rw [hstatus, hfail]
    exact h.busy_clear ((congrArg Engine.isBusy heng).symm.trans hb)
  · rw [he]
    refine ⟨Status.writeClear_ne_io v h.not_io, Status.writeClear_err_iff v h.err_iff, fun hb => ?_, h.rst_idle⟩
    obtain ⟨hdone, herr, hfail⟩ := h.busy_clear hb
    exact ⟨by simp [Status.writeClear, hdone], by simp [Status.writeClear, herr], hfail⟩
  · rw [he]
    exact ⟨h.not_io, h.err_iff, h.busy_clear, h.rst_idle⟩
  · rw [he]
    exact ⟨by simp, by simp, fun _ => ⟨rfl, rfl, rfl⟩, fun hrst => by simp [hr] at hrst⟩

theorem portStep_inv (a : Access) {s : State} (h : s.Inv) : (portStep a s).Inv := by
  obtain ⟨hstorage, hcontrol⟩ := (State.inv_iff s).1 h
  exact (State.inv_iff _).2 ⟨portStep_storageInv a hstorage, portStep_controlInv a hcontrol⟩

/-! ### The engine -/

/-- The misses of a sweep are counted in 32 bits as they are, and are at most its trials (43_validator.md R222). -/
theorem State.setSweep_missed_le (t : State) {m n : Nat} (hm : m ≤ n) (hn : n < 2 ^ 32) :
    (t.setSweep m n).regs.missed.toNat ≤ (t.setSweep m n).regs.total.toNat := by
  simp only [State.setSweep_regs, BitVec.toNat_ofNat]
  omega

/-- Every part of a command keeps the storage's half of the invariant. -/
theorem commandSteps_storageInv (i : Instr) {s : State} (h : s.StorageInv) : (commandSteps i s).Ends State.StorageInv := by
  refine commandSteps_ends h (fun u bs hu he hb => ?_) (fun u k hu => ?_) (fun u c hu he hc => ?_) (fun t m ht hm => ?_)
    fun t k ht _ => ?_
  · exact ⟨hu.params_legal, Memory.wf_encoded hu.params_legal he hb hu.mem_wf, hu.missed_le⟩
  · exact ⟨hu.params_legal, Memory.wf_flipCw _ hu.mem_wf, hu.missed_le⟩
  · exact ⟨hu.params_legal, Memory.wf_decoded he hc hu.mem_wf, hu.missed_le⟩
  · exact ⟨ht.params_legal, ht.mem_wf, t.setSweep_missed_le hm s.regs.trials.isLt⟩
  · exact ⟨ht.params_legal, ht.mem_wf, Nat.le_refl 0⟩

theorem exec_storageInv {i : Instr} {s t : State} (h : s.StorageInv) (he : exec i s = .next t) : t.StorageInv := by
  obtain ⟨u, hu, rfl | ⟨e, rfl⟩⟩ := exec_ends (commandSteps_storageInv i h) he <;>
    exact ⟨hu.params_legal, hu.mem_wf, hu.missed_le⟩

theorem exec_controlInv {i : Instr} {s t : State} (he : exec i s = .next t) : t.ControlInv := by
  obtain ⟨hidle, -, ⟨herr, hcode⟩ | ⟨herr, hcode | hcode | hcode | hcode⟩⟩ := exec_status he <;>
    exact .of_idle hidle (by simp [hcode]) (by simp [herr, hcode])

theorem engineStep_inv {s t : State} (h : s.Inv) (he : engineStep s = .next t) : t.Inv := by
  cases engineStep_move he with
  | turn => exact h
  | complete i t hrst heng hexec =>
    obtain ⟨hstorage, -⟩ := (State.inv_iff s).1 h
    exact (State.inv_iff t).2 ⟨exec_storageInv hstorage hexec, exec_controlInv hexec⟩
  | illegal w hrst heng =>
    exact (State.inv_iff _).2 ⟨⟨h.params_legal, h.mem_wf, h.missed_le⟩, .of_idle rfl (by simp) (by simp)⟩

/-- Settles O10: the engine's turn, an access and a reset level each keep the invariant. -/
theorem stepKeepsInvariant : Obligations.StepKeepsInvariant := by
  intro s t hs hstep
  rcases step_cases s with ⟨-, he⟩ | ⟨rest, -, he⟩ | ⟨a, rest, -, he⟩ | ⟨b, rest, -, he⟩ <;> rw [he] at hstep
  · exact engineStep_inv hs hstep
  · exact engineStep_inv (hs.withInputs rest) hstep
  · cases hstep
    exact portStep_inv a (hs.withInputs rest)
  · cases hstep
    exact resetLevel_inv b (hs.withInputs rest)

end Sys2Proof.Machine
end

section
/-! The statements about one step of the machine: the input it takes, and the command it runs. -/

namespace Sys2Proof.Machine

/-! ### The input a step takes -/

theorem step_of_inputs_nil {s : State} (h : s.inputs = []) : step s = engineStep s := by
  simp only [step, moveNext, h]

/-- A step takes the first input off the list and makes its move (log 1). -/
theorem step_of_inputs_cons {s : State} {i : Input} {rest : List Input} (h : s.inputs = i :: rest) :
    step s = inputStep i { s with inputs := rest } := by
  simp only [step, moveNext, h]

theorem engineStep_of_idle {s : State} (h : s.eng = .idle) : engineStep s = .next s := by
  simp only [engineStep, h, ite_self]

/-- Settles O5, by the kind of the first input. -/
theorem stepTakesTheHeadInput : Obligations.StepTakesTheHeadInput := fun _ _ =>
  ⟨fun _ h => step_of_inputs_cons h, fun _ h => step_of_inputs_cons h, fun h => step_of_inputs_cons h,
    step_of_inputs_nil, engineStep_of_idle⟩

/-! ### The command a step runs -/

/-- The engine's turn with a command pending completes it (70_reset_and_hazards.md R288). -/
theorem engineStep_of_command {s : State} {w : Word} {i : Instr} (hr : s.rst = false) (he : s.eng = .busy w)
    (hd : decodeWord w = .command i) : engineStep s = exec i s := by
  simp only [engineStep, hr, Bool.false_eq_true, if_false, he, hd]

/-- Settles O4: where no input is left and where the next is the engine's turn, the step is the engine's turn. -/
theorem stepRunsThePendingCommand : Obligations.StepRunsThePendingCommand := fun s _ _ hr he hd =>
  ⟨fun h => (step_of_inputs_nil h).trans (engineStep_of_command hr he hd),
    fun rest h => (step_of_inputs_cons h).trans (engineStep_of_command (s := { s with inputs := rest }) hr he hd)⟩

/-- A command's word, placed as a number of 32 bits, is that word. -/
theorem withFetchWord_encode (s : State) (i : Instr) :
    s.withFetchWord 32 (encode i).toNat = placeCommand s (encode i) := by
  rw [State.withFetchWord, Nat.mod_eq_of_lt (encode i).isLt, BitVec.ofNat_toNat, BitVec.setWidth_eq]

/-- Settles O6: a placed command is pending, and the engine's turn is the next input. -/
theorem placedCommandRunsNext : Obligations.PlacedCommandRunsNext := by
  intro s i
  rw [withFetchWord_encode, step_of_inputs_cons (placeCommand_inputs s (encode i))]
  exact engineStep_of_command rfl rfl (decodeWord_encode i)

end Sys2Proof.Machine
end

section
/-! The statements about reads: their frame in every state, and what they answer while busy. -/

namespace Sys2Proof.Machine

/-- Settles O20: a read answers an error or reads a target, and either has the frame of a read. -/
theorem readsHaveNoSideEffect : Obligations.ReadsHaveNoSideEffect := by
  intro s a n
  rcases portStep_cases (.read a n) s with he | ⟨-, _, t, -, -, -, he⟩ | ⟨-, _, _, _, ha, -⟩
  · exact ⟨.error, s.draws, he, Nat.le_refl _⟩
  · obtain ⟨v, d, hread, hd⟩ := portRead_frame s t
    exact ⟨.okRead v, d, he.trans hread, by omega⟩
  · cases ha

/-! ### Reads while busy -/

/-- A read whose word is not defined while busy draws it (70_reset_and_hazards.md R286). -/
theorem portRead_drawn {s : State} {t : Target} (hb : s.busy = true) (ht : t.readableBusy = false) :
    portRead s t = s.tickDraw.respond (.okRead (Config.freeWord s.draws)) := by
  simp only [portRead, hb, ht, Bool.not_false, Bool.and_self, if_true]

theorem portStep_read_readableBusy {s : State} (hr : s.rst = false) {r : RegName} (h : r.readableBusy = true)
    {a : PortAddr} (ha : a.toNat = r.portOffset) :
    portStep (.read a .word) s = s.respond (.okRead (regWord s r)) := by
  rw [portOffset_inj ha, portStep_read_reg hr r, portRead_reg (.inr h)]

/-- The words that are defined while busy are those at the five addresses of R286. -/
theorem readableBusy_portOffset {t : Target} (h : t.readableBusy = true) :
    t.portOffset ∈ [0x00, 0x04, 0x08, 0x10, 0x14] := by
  cases t with
  | reg r =>
    cases r with
    | id | param0 | param1 | cmd | status => simp [Target.portOffset, RegName.portOffset]
    | _ => cases h
  | poly | rem | msg | cw => cases h

theorem portStep_read_drawn {s : State} (hr : s.rst = false) (hb : s.busy = true) (hp : s.params.legal) {a : PortAddr}
    (h4 : a.toNat % 4 = 0) (hm : IsMapped s.params a.toNat) (ha : a.toNat ∉ [0x00, 0x04, 0x08, 0x10, 0x14]) :
    portStep (.read a .word) s = s.tickDraw.respond (.okRead (Config.freeWord s.draws)) := by
  obtain ⟨t, ht⟩ := (isMapped_iff hp h4).1 hm
  obtain ⟨hoff, -⟩ := (portTarget_eq_some hp h4 t).1 ht
  have hdrawn : t.readableBusy = false := by
    by_contra hn
    exact ha (hoff ▸ readableBusy_portOffset (by simpa using hn))
  rw [portStep_read_target hr (accessLegal_of_aligned h4) ht, portRead_drawn hb hdrawn]

/-- Settles O27: the five registers that read as always, and the draw of every other mapped word. -/
theorem readsWhileBusy : Obligations.ReadsWhileBusy := by
  intro s a hr hb hp h4
  refine ⟨fun ha => ?_, portStep_read_readableBusy (r := .id) hr rfl, portStep_read_readableBusy (r := .param0) hr rfl,
    portStep_read_readableBusy (r := .param1) hr rfl, portStep_read_readableBusy (r := .cmd) hr rfl,
    fun hm ha => ⟨_, portStep_read_drawn hr hb hp h4 hm ha⟩⟩
  rw [← hb]
  exact portStep_read_readableBusy (r := .status) hr rfl ha

end Sys2Proof.Machine
end

section
/-! The statements about every command: how it ends, what it leaves unchanged, and when it is the model fault. -/

namespace Sys2Proof.Machine

/-! ### Completion -/

theorem exec_errors_agree {i : Instr} {s t : State} (h : exec i s = .next t) :
    t.status.errCode ≠ .illegalCmd ∧ (t.status.err = true ↔ t.status.errCode ≠ .noError) := by
  obtain ⟨-, -, ⟨herr, hcode⟩ | ⟨herr, hcode | hcode | hcode | hcode⟩⟩ := exec_status h <;> simp [herr, hcode]

/-- Settles O48: the steps are done, raise, or end in the model fault. -/
theorem everyCommandCompletesOrFaults : Obligations.EveryCommandCompletesOrFaults := by
  intro i s
  have completes {t : State} (h : exec i s = .next t) :
      ∃ t, exec i s = .next t ∧ t.eng = .idle ∧ t.status.done = true ∧ t.status.errCode ≠ .illegalCmd ∧
        (t.status.err = true ↔ t.status.errCode ≠ .noError) := by
    obtain ⟨hidle, hdone, -⟩ := exec_status h
    exact ⟨t, h, hidle, hdone, exec_errors_agree h⟩
  rcases exec_cases i s with ⟨t, -, he⟩ | ⟨e, t, -, he⟩ | he
  · exact .inl (completes he)
  · exact .inl (completes he)
  · exact .inr he

/-! ### The model fault -/

theorem commandSteps_of_fault {i : Instr} {s : State} {f : Fault} (h : exec i s = .fault f) :
    commandSteps i s = .fault f := by
  rw [exec_eq] at h
  cases hc : commandSteps i s with
  | done t => rw [hc] at h; cases h
  | raised e t => rw [hc] at h; cases h
  | fault g => cases g; cases f; rfl

theorem encodeSteps_fault {s : State} {f : Fault} (h : encodeSteps s = .fault f) :
    encodeError s = none ∧ MessageUnset s := by
  rcases encodeSteps_cases s with ⟨e, -, hr⟩ | ⟨he, hm, -⟩ | ⟨bs, -, -, hr⟩
  · rw [hr] at h; cases h
  · exact ⟨he, hm⟩
  · rw [hr] at h; cases h

theorem decodeSteps_fault {s : State} {f : Fault} (h : decodeSteps s = .fault f) :
    decodeError s = none ∧ CodewordUnset s := by
  rcases decodeSteps_cases s with ⟨e, -, hr⟩ | ⟨he, hm, -⟩ | ⟨c, -, -, hr⟩
  · rw [hr] at h; cases h
  · exact ⟨he, hm⟩
  · rw [hr] at h; cases h

/-- CORRUPT reads no operand that may hold no value (42_burst_error.md R199). -/
theorem corruptSteps_ne_fault (k : Nat) (s : State) (f : Fault) : corruptSteps k s ≠ .fault f := by
  rcases corruptSteps_cases s k with ⟨e, -, hr⟩ | ⟨-, hr⟩ <;> rw [hr] <;> exact nofun

/-- A trial faults in its ENCODE step: the codeword its DECODE step reads has just been written. -/
theorem trialAt_fault {s : State} {k : Nat} {f : Fault} (hp : s.params.legal) (h : trialAt k s = .fault f) :
    encodeError s = none ∧ MessageUnset s := by
  rcases trialAt_cases hp k with ⟨e, -, hr⟩ | ⟨he, hm, -⟩ | ⟨bs, e, -, -, -, hr⟩ | ⟨bs, -, -, -, hr⟩
  · rw [hr] at h; cases h
  · exact ⟨he, hm⟩
  · rw [hr] at h; cases h
  · rw [hr] at h; cases h

theorem TrialFrame.sameOperands {s t : State} (h : TrialFrame s t) : SameOperands s t := by
  rw [h]
  exact ⟨rfl, rfl, rfl, rfl, rfl, rfl, rfl, rfl⟩

/-- A sweep faults at a trial that finds the operands as the sweep found them. -/
theorem experimentSteps_fault {s : State} {f : Fault} (hp : s.params.legal) (h : experimentSteps s = .fault f) :
    encodeError s = none ∧ MessageUnset s := by
  obtain ⟨-, -, hfault⟩ := sweep_keeps (P := SameOperands s)
    (fun _ _ _ hu ht => hu.trans (trialAt_done_frame ht).sameOperands)
    (fun _ _ _ _ hu ht => hu.trans (trialAt_raised_frame ht).sameOperands) s.regs.trials.toNat 0 0 (.refl s)
  unfold experimentSteps at h
  split at h
  · cases h
  · cases h
  · rename_i g hsweep
    obtain ⟨k, u, hu, ht⟩ := hfault g hsweep
    obtain ⟨he, hm⟩ := trialAt_fault (hu.params ▸ hp) ht
    exact ⟨hu.encodeError_eq.trans he, hu.symm.messageUnset hm⟩

/-- Settles O49, command by command. -/
theorem faultOnlyOnAnUnsetOperand : Obligations.FaultOnlyOnAnUnsetOperand := by
  intro i s f hp h
  have hf := commandSteps_of_fault h
  refine ⟨by cases f; rfl, ?_⟩
  cases i with
  | encode => exact .inr ⟨.inl rfl, encodeSteps_fault hf⟩
  | decode => exact .inl ⟨rfl, decodeSteps_fault hf⟩
  | corrupt => exact absurd hf (corruptSteps_ne_fault _ s f)
  | trial => exact .inr ⟨.inr (.inl rfl), trialAt_fault hp hf⟩
  | experiment => exact .inr ⟨.inr (.inr rfl), experimentSteps_fault hp hf⟩

/-! ### The frame -/

/-- The results of a sweep stand in `t` as in `s`. -/
def SameSweepResults (s t : State) : Prop :=
  t.regs.missed = s.regs.missed ∧ t.regs.total = s.regs.total ∧ t.regs.failOffset = s.regs.failOffset

theorem TrialFrame.sameSweepResults {s t : State} (h : TrialFrame s t) : SameSweepResults s t := by
  rw [h]
  exact ⟨rfl, rfl, rfl⟩

/-- Every command but EXPERIMENT writes at most what a trial writes. -/
theorem commandSteps_trialFrame {i : Instr} (hi : i ≠ .experiment) (s : State) : (commandSteps i s).Ends (TrialFrame s) := by
  cases i with
  | encode => exact ends_encode (.refl s) fun bs _ _ => trialFrame_encoded s bs
  | decode => exact ends_decode (.refl s) fun c _ _ => trialFrame_decoded s c
  | corrupt => exact ends_corrupt (.refl s) fun _ => trialFrame_corrupted s _
  | trial => exact trialAt_frame _ s
  | experiment => exact absurd rfl hi

theorem exec_sameSweepResults {i : Instr} {s t : State} (hi : i ≠ .experiment) (h : exec i s = .next t) :
    SameSweepResults s t := by
  obtain ⟨u, hu, rfl | ⟨e, rfl⟩⟩ := exec_ends (commandSteps_trialFrame hi s) h <;> exact hu.sameSweepResults

theorem execDecode_keeps_codeword {s t : State} (h : exec .decode s = .next t) :
    t.mem.cw = s.mem.cw ∧ t.regs.cwLen = s.regs.cwLen := by
  have hends : (commandSteps .decode s).Ends fun t => t.mem.cw = s.mem.cw ∧ t.regs.cwLen = s.regs.cwLen :=
    ends_decode ⟨rfl, rfl⟩ fun _ _ _ => ⟨rfl, rfl⟩
  obtain ⟨u, hu, rfl | ⟨e, rfl⟩⟩ := exec_ends hends h <;> exact hu

theorem execCorrupt_keeps_rem {s t : State} (h : exec .corrupt s = .next t) :
    t.mem.rem = s.mem.rem ∧ t.regs.cwLen = s.regs.cwLen := by
  have hends : (commandSteps .corrupt s).Ends fun t => t.mem.rem = s.mem.rem ∧ t.regs.cwLen = s.regs.cwLen :=
    ends_corrupt ⟨rfl, rfl⟩ fun _ => ⟨rfl, rfl⟩
  obtain ⟨u, hu, rfl | ⟨e, rfl⟩⟩ := exec_ends hends h <;> exact hu

theorem execCorrupt_keeps_unhit {s t : State} (h : exec .corrupt s = .next t) {j : Nat}
    (hj : burstHits s.params.gen s.regs.offset.toNat s.regs.burstLen.toNat j = false) :
    Store.get t.mem.cw j = Store.get s.mem.cw j := by
  have hends : (commandSteps .corrupt s).Ends fun t => Store.get t.mem.cw j = Store.get s.mem.cw j :=
    ends_corrupt rfl fun _ => corrupted_keeps_unhit hj
  obtain ⟨u, hu, rfl | ⟨e, rfl⟩⟩ := exec_ends hends h <;> exact hu

/-- ENCODE, alone or in a trial, writes no bit of CW at or above the codeword's length (41_crc_engine.md R165). -/
theorem exec_keeps_above {i : Instr} {s t : State} (hp : s.params.legal) (hi : i = .encode ∨ i = .trial ∨ i = .experiment)
    (h : exec i s = .next t) {j : Nat} (hj : encodedLen s ≤ j) : Store.get t.mem.cw j = Store.get s.mem.cw j := by
  have hends : (commandSteps i s).Ends (KeptAbove s) := by
    rcases hi with rfl | rfl | rfl
    · exact ends_encode (.refl s) fun _ he hb => keptAbove_encoded he hb
    · exact trialAt_keptAbove hp _
    · exact experimentSteps_keptAbove hp
  obtain ⟨u, hu, rfl | ⟨e, rfl⟩⟩ := exec_ends hends h <;> exact hu.cw j hj

/-- Settles O47: what no command writes, and then command by command. -/
theorem commandsTouchOnlyTheirFootprint : Obligations.CommandsTouchOnlyTheirFootprint := by
  intro i s t h
  obtain ⟨hparams, hrst, hinputs, hresp, hdraws, hpoly, hmsg, hovr, hpolyLen, hlenCrc, hmsgLen, hburstLen, hoffset, htrials,
    hbpol⟩ := exec_kept h
  refine ⟨hparams, hrst, hinputs, hresp, hdraws, hpoly, hmsg, hovr, hpolyLen, hlenCrc, hmsgLen, hburstLen, hoffset, htrials,
    hbpol, fun hi => exec_sameSweepResults hi h, ?_, ?_, fun hi => ?_, fun hp hi j hj => exec_keeps_above hp hi h hj, ?_⟩
  · rintro rfl
    exact execDecode_keeps_codeword h
  · rintro rfl
    exact execCorrupt_keeps_rem h
  · by_contra hc
    rcases exec_clean_changes h hc with rfl | rfl | rfl <;> simp at hi
  · rintro rfl j hj
    exact execCorrupt_keeps_unhit h hj

end Sys2Proof.Machine
end

section
/-! The statements about the kernel: the remainder of polynomials over GF(2), its linearity, and what it detects
(41_crc_engine.md, sections 1 and 4). -/

namespace Sys2Proof.Machine

open Polynomial

theorem length_pos_of_headD {d : Bits} (hd : d.headD false = true) : 1 ≤ d.length := by
  cases d with
  | nil => cases hd
  | cons => simp

/-! ### The remainder of polynomials -/

/-- A stream is read as one polynomial. -/
theorem streamPoly_iff {S : Bits} {P : (ZMod 2)[X]} : StreamPoly S P ↔ P = polyOf S := by
  rw [Polynomial.ext_iff]
  simp only [polyOf_coeff, StreamPoly]

/-- Settles O29: streams of one length are equal where their polynomials are. -/
theorem kernelIsPolynomialRemainder : Obligations.KernelIsPolynomialRemainder := by
  intro dividend d D P hd hL hD hP
  have hpos := length_pos_of_headD hd
  have hlen := remainderBits_length hpos hL
  have hrem : D %ₘ P = polyOf (remainderBits dividend d) := by
    rw [streamPoly_iff.1 hD, streamPoly_iff.1 hP, polyOf_remainderBits hd hL]
  refine ⟨remainderBits dividend d, computeRemainder_ok hpos hL, hlen, streamPoly_iff.2 hrem, fun R' hR' hpoly => ?_⟩
  exact polyOf_inj (hR'.trans hlen.symm) ((streamPoly_iff.1 hpoly).symm.trans hrem)

/-! ### Linearity and the syndrome -/

/-- Settles O30 by the linearity of the kernel as a total function. -/
theorem remainderIsLinear : Obligations.RemainderIsLinear := by
  intro A B d hAB hd hL
  refine ⟨remainderBits A d, remainderBits B d, computeRemainder_ok hd hL, computeRemainder_ok hd (hAB ▸ hL), ?_⟩
  rw [computeRemainder_ok hd (by rwa [xorBits_length, ← hAB, Nat.min_self]), remainderBits_xor hd hAB hL]

/-- An error on a stream that the divisor divides leaves its own remainder. -/
theorem remainderBits_xor_codeword {c e d : Bits} (hd : 1 ≤ d.length) (hL : d.length ≤ c.length) (he : e.length = c.length)
    (hc : remainderBits c d = zeros (d.length - 1)) : remainderBits (xorBits c e) d = remainderBits e d := by
  rw [remainderBits_xor hd he.symm hL, hc, xorBits_comm, xorBits_zeros _ _ (remainderBits_length hd (he ▸ hL))]

theorem computeRemainder_xor_codeword {c e d : Bits} (hd : 1 ≤ d.length) (hL : d.length ≤ c.length)
    (he : e.length = c.length) (hc : remainderBits c d = zeros (d.length - 1)) :
    computeRemainder (xorBits c e) d = .ok (remainderBits e d) := by
  rw [computeRemainder_ok hd (by rwa [xorBits_length, he, Nat.min_self]), remainderBits_xor_codeword hd hL he hc]

/-- Settles O31: the divisor divides the codeword. -/
theorem syndromeDependsOnlyOnTheError : Obligations.SyndromeDependsOnlyOnTheError := by
  intro m e d R hm hd hR he
  have hpos := length_pos_of_headD hd
  have hlong : d.length ≤ (m ++ zeros (d.length - 1)).length := by
    simp only [List.length_append, zeros_length]
    omega
  obtain rfl : remainderBits (m ++ zeros (d.length - 1)) d = R :=
    Result.ok.inj ((computeRemainder_ok hpos hlong).symm.trans hR)
  have hL : d.length ≤ (m ++ remainderBits (m ++ zeros (d.length - 1)) d).length := by
    rw [List.length_append, remainderBits_length hpos hlong]
    omega
  rw [computeRemainder_xor_codeword hpos hL he (remainderBits_codeword hpos hm), computeRemainder_ok hpos (he ▸ hL)]

/-! ### Short bursts -/

/-- A divisor whose last bit is 1 has no factor in common with a power of `X`. -/
theorem polyOf_isCoprime_X_pow {d : Bits} (hlast : d.getD (d.length - 1) false = true) (n : Nat) :
    IsCoprime (polyOf d) (X ^ n) := by
  have hX : ¬ (X : (ZMod 2)[X]) ∣ polyOf d := by
    have hpos : 0 < d.length := by
      by_contra h0
      simp [List.eq_nil_of_length_eq_zero (Nat.eq_zero_of_not_pos h0)] at hlast
    rw [X_dvd_iff, polyOf_coeff, if_pos ⟨hpos, hlast⟩]
    exact one_ne_zero
  exact ((irreducible_X.coprime_iff_not_dvd).2 hX).symm.pow_right

theorem eq_zeros_of_getD {s : Bits} (h : ∀ i, i < s.length → s.getD i false = false) : s = zeros s.length :=
  bits_ext (zeros_length _).symm fun i hi => (h i hi).trans (zeros_getD _ i).symm

/-- A stream whose set bits lie in the `r` positions from `k` up is, but for a power of `X`, the polynomial of those. -/
theorem polyOf_burst {e : Bits} {k r : Nat} (he : ∀ i, e.getD i false = true → k ≤ i ∧ i < k + r) :
    polyOf e = polyOf ((e.drop k).take r) * X ^ (e.drop (k + r)).length := by
  have clear {i : Nat} (h : ¬ (k ≤ i ∧ i < k + r)) : e.getD i false = false := by
    by_contra hn
    exact h (he i (by simpa using hn))
  have hhead : e.take k = zeros (e.take k).length := eq_zeros_of_getD fun i hi => by
    rw [List.length_take] at hi
    rw [List.getD, List.getElem?_take_of_lt (by omega)]
    exact clear (by omega)
  have htail : e.drop (k + r) = zeros (e.drop (k + r)).length := eq_zeros_of_getD fun i _ => by
    rw [List.getD, List.getElem?_drop]
    exact clear (by omega)
  have hsplit : e = e.take k ++ ((e.drop k).take r ++ e.drop (k + r)) := by
    rw [← List.drop_drop, List.take_append_drop, List.take_append_drop]
  conv_lhs => rw [hsplit, hhead, htail]
  rw [polyOf_append, polyOf_append, polyOf_zeros, polyOf_zeros, zeros_length]
  ring

/-- A divisor with both ends set divides no nonzero error that lies within as many positions as its degree. -/
theorem not_polyOf_dvd_burst {d e : Bits} {k : Nat} (hd : d.headD false = true)
    (hlast : d.getD (d.length - 1) false = true) (hne : ∃ i, e.getD i false = true)
    (he : ∀ i, e.getD i false = true → k ≤ i ∧ i < k + (d.length - 1)) : ¬ polyOf d ∣ polyOf e := by
  intro hdvd
  rw [polyOf_burst he] at hdvd
  have hburst : polyOf ((e.drop k).take (d.length - 1)) = 0 := by
    refine eq_zero_of_dvd_of_degree_lt ((polyOf_isCoprime_X_pow hlast _).dvd_of_dvd_mul_right hdvd) ?_
    rw [polyOf_degree hd]
    exact (polyOf_degree_lt _).trans_le (by exact_mod_cast List.length_take_le _ _)
  have hzero : e = zeros e.length :=
    polyOf_inj (zeros_length _).symm (by rw [polyOf_burst he, hburst, zero_mul, polyOf_zeros])
  obtain ⟨i, hi⟩ := hne
  rw [hzero, zeros_getD] at hi
  cases hi

/-- The remainder of a short burst is not zero (41_crc_engine.md, section 4). -/
theorem remainderBits_burst_ne_zeros {d e : Bits} {k : Nat} (hd : d.headD false = true)
    (hlast : d.getD (d.length - 1) false = true) (hL : d.length ≤ e.length) (hne : ∃ i, e.getD i false = true)
    (he : ∀ i, e.getD i false = true → k ≤ i ∧ i < k + (d.length - 1)) : remainderBits e d ≠ zeros (d.length - 1) :=
  fun h => not_polyOf_dvd_burst hd hlast hne he ((remainderBits_eq_zeros hd hL).1 h)

/-- Settles O32: the syndrome is the burst's own remainder. -/
theorem shortBurstsAreDetected : Obligations.ShortBurstsAreDetected := by
  intro c e d k _ hd hlast hL hlen hne he hc
  have hpos := length_pos_of_headD hd
  have hzero : remainderBits c d = zeros (d.length - 1) :=
    Result.ok.inj ((computeRemainder_ok hpos hL).symm.trans hc)
  exact ⟨_, computeRemainder_xor_codeword hpos hL hlen hzero, remainderBits_burst_ne_zeros hd hlast (hlen ▸ hL) hne he⟩

/-! ### Two flipped bits under the default divisor -/

/-- The default divisor (10_state.md R46). -/
def defaultDivisor : Bits := [true, true, true, true, true]

/-- The error of `L` bits that flips the bits `a` and `b`. -/
def twoBits (L a b : Nat) : Bits := (List.range L).map fun i => i == a || i == b

theorem twoBits_length (L a b : Nat) : (twoBits L a b).length = L := by simp [twoBits]

theorem twoBits_getD {L a b i : Nat} (hi : i < L) : (twoBits L a b).getD i false = (i == a || i == b) := by
  simp [twoBits, hi]

theorem polyOf_twoBits {L a b : Nat} (hab : a < b) (hb : b < L) :
    polyOf (twoBits L a b) = X ^ (L - 1 - b) * (X ^ (b - a) + 1) := by
  have hsum : polyOf (twoBits L a b) = X ^ (L - 1 - a) + X ^ (L - 1 - b) := by
    ext k
    rw [polyOf_coeff, twoBits_length, coeff_add, coeff_X_pow, coeff_X_pow]
    by_cases hk : k < L
    · simp only [hk, true_and, twoBits_getD (show L - 1 - k < L by omega), Bool.or_eq_true, beq_iff_eq]
      by_cases ha : k = L - 1 - a
      · rw [if_pos ha, if_pos (by omega), if_neg (by omega), add_zero]
      · by_cases hb' : k = L - 1 - b
        · rw [if_neg ha, if_pos hb', if_pos (by omega), zero_add]
        · rw [if_neg ha, if_neg hb', if_neg (by omega), add_zero]
    · rw [if_neg (by simp [hk]), if_neg (by omega), if_neg (by omega), add_zero]
  rw [hsum, show L - 1 - a = (L - 1 - b) + (b - a) by omega, pow_add]
  ring

/-- The default divisor misses a two-bit error exactly when it divides `X ^ (b - a) + 1`. -/
theorem remainderBits_twoBits_eq_zeros {L a b : Nat} (hL : 5 ≤ L) (hab : a < b) (hb : b < L) :
    remainderBits (twoBits L a b) defaultDivisor = zeros 4 ↔ polyOf defaultDivisor ∣ X ^ (b - a) + 1 := by
  refine (remainderBits_eq_zeros (d := defaultDivisor) rfl (by rwa [twoBits_length])).trans ?_
  rw [polyOf_twoBits hab hb]
  have hcoprime := polyOf_isCoprime_X_pow (d := defaultDivisor) rfl (L - 1 - b)
  exact ⟨hcoprime.dvd_of_dvd_mul_left, fun h => h.mul_left _⟩

/-- It divides `X ^ 5 + 1`, and no `X ^ n + 1` with `n` from 1 to 4, so it divides those with `n` a multiple of 5. -/
theorem defaultDivisor_dvd_iff (n : Nat) : polyOf defaultDivisor ∣ X ^ n + 1 ↔ n % 5 = 0 := by
  have small (L a b : Nat) : 5 ≤ L ∧ a < b ∧ b < L →
      (polyOf defaultDivisor ∣ X ^ (b - a) + 1 ↔ remainderBits (twoBits L a b) defaultDivisor = zeros 4) :=
    fun ⟨hL, hab, hb⟩ => (remainderBits_twoBits_eq_zeros hL hab hb).symm
  match n with
  | 0 =>
    rw [pow_zero, CharTwo.add_self_eq_zero]
    simp
  | 1 => exact (small 5 3 4 (by decide)).trans (by decide)
  | 2 => exact (small 5 2 4 (by decide)).trans (by decide)
  | 3 => exact (small 5 1 4 (by decide)).trans (by decide)
  | 4 => exact (small 5 0 4 (by decide)).trans (by decide)
  | n + 5 =>
    have hfive : polyOf defaultDivisor ∣ X ^ 5 + 1 := (small 6 0 5 (by decide)).2 (by decide)
    have hstep : (X ^ (n + 5) + 1 : (ZMod 2)[X]) = X ^ n * (X ^ 5 + 1) + (X ^ n + 1) := by
      rw [pow_add, mul_add, mul_one, add_assoc, ← add_assoc (X ^ n) (X ^ n), CharTwo.add_self_eq_zero, zero_add]
    rw [hstep, dvd_add_right (hfive.mul_left _), defaultDivisor_dvd_iff n, Nat.add_mod_right]

/-- Settles O33: the miss is a matter of the distance of the two bits alone. -/
theorem defaultDivisorTwoBitErrors : Obligations.DefaultDivisorTwoBitErrors := by
  intro L a b hL hab hb
  have hrem : computeRemainder (twoBits L a b) defaultDivisor = .ok (remainderBits (twoBits L a b) defaultDivisor) :=
    computeRemainder_ok (by decide) (by rwa [twoBits_length])
  calc computeRemainder (twoBits L a b) defaultDivisor = .ok (zeros 4)
    _ ↔ remainderBits (twoBits L a b) defaultDivisor = zeros 4 := by rw [hrem, Result.ok.injEq]
    _ ↔ polyOf defaultDivisor ∣ X ^ (b - a) + 1 := remainderBits_twoBits_eq_zeros hL hab hb
    _ ↔ (b - a) % 5 = 0 := defaultDivisor_dvd_iff _

end Sys2Proof.Machine
end

section
/-! The statements about what ENCODE leaves: DECODE finds it clean, and its codeword window reads as the message window. -/

namespace Sys2Proof.Machine

/-- An ENCODE that completes without error has passed its checks on a message that holds values. -/
theorem execEncode_next {s t : State} (h : exec .encode s = .next t) (herr : t.status.err = false) :
    ∃ bs, encodeError s = none ∧ MessageIs s bs ∧ t = (encoded s bs).completeOk := by
  rcases encodeSteps_cases s with ⟨e, -, hr⟩ | ⟨-, -, hr⟩ | ⟨bs, he, hb, hr⟩
  · rw [exec_of_raised (i := .encode) hr] at h
    cases h
    cases herr
  · rw [exec_of_fault (i := .encode) hr] at h
    cases h
  · rw [exec_of_done (i := .encode) hr] at h
    cases h
    exact ⟨bs, he, hb, rfl⟩

/-- The codeword ENCODE writes for the message `bs`. -/
def encodedCodeword (s : State) (bs : List Byte) : Bits := fromBytes bs ++ encodedRem s bs

theorem encodedCodeword_length {s : State} {bs : List Byte} (h : encodeError s = none) (hb : MessageIs s bs) :
    (encodedCodeword s bs).length = encodedLen s := by
  rw [encodedCodeword, List.length_append, fromBytes_length, encodedRem_length h hb, hb.1]
  rfl

/-- The divisor divides it (41_crc_engine.md, section 3). -/
theorem remainderBits_encodedCodeword {s : State} {bs : List Byte} (h : encodeError s = none) (hb : MessageIs s bs) :
    remainderBits (encodedCodeword s bs) (divisor s) = zeros s.regs.lenCrc.toNat := by
  obtain ⟨hd, -, hmsg⟩ := encodeError_none h
  obtain ⟨hpos, -, -, hcrc⟩ := divisorError_none hd
  obtain ⟨hbytes, -⟩ := hb
  have hlen : s.regs.lenCrc.toNat = (divisor s).length - 1 := by rw [divisor_length]; omega
  rw [encodedCodeword, encodedRem, hlen]
  exact remainderBits_codeword (by rwa [divisor_length]) (by rw [fromBytes_length]; omega)

/-! ### DECODE after ENCODE -/

theorem decodeError_eq_none {s : State} (hd : divisorError s = none) (hcap : s.regs.cwLen.toNat ≤ s.params.cwMaxBits)
    (hlong : s.regs.polyLen.toNat ≤ s.regs.cwLen.toNat) : decodeError s = none := by
  simp only [decodeError, hd]
  rw [if_neg (by omega), if_neg (by omega)]

/-- Settles O36: DECODE's checks pass on the codeword ENCODE wrote, and the divisor divides it. -/
theorem decodeAfterEncodeIsClean : Obligations.DecodeAfterEncodeIsClean := by
  intro s t u hp h herr hparams hpoly hcw hpolyLen hlenCrc hcwLen
  obtain ⟨bs, he, hb, rfl⟩ := execEncode_next h herr
  replace hparams : u.params = s.params := hparams
  replace hpoly : u.mem.poly = s.mem.poly := hpoly
  replace hpolyLen : u.regs.polyLen = s.regs.polyLen := hpolyLen
  replace hlenCrc : u.regs.lenCrc = s.regs.lenCrc := hlenCrc
  replace hcw : u.mem.cw = (encoded s bs).mem.cw := hcw
  obtain ⟨hcap, -, hlong⟩ := encodedLen_le hp he
  have hlen : u.regs.cwLen.toNat = encodedLen s := by rw [hcwLen]; exact encoded_cwLen_toNat hp he hb
  have hdiv : divisorError u = none := by
    simpa only [divisorError, hparams, hpoly, hpolyLen, hlenCrc] using (encodeError_none he).1
  have hu : decodeError u = none :=
    decodeError_eq_none hdiv (by rwa [hlen, hparams]) (by rwa [hlen, hpolyLen])
  have hc : CodewordIs u (encodedCodeword s bs) := by
    refine ⟨(encodedCodeword_length he hb).trans hlen.symm, fun j hj => ?_⟩
    rw [encodedCodeword_length he hb] at hj
    rw [hcw, encoded_get_cw he hb, if_pos hj, encodedCodeword]
  have hrem : remainderBits (encodedCodeword s bs) (divisor u) = zeros u.regs.lenCrc.toNat := by
    rw [show divisor u = divisor s by simp only [divisor, hpoly, hpolyLen], hlenCrc, remainderBits_encodedCodeword he hb]
  refine ⟨_, exec_of_done (i := .decode) (decodeSteps_done hu hc), rfl, decide_eq_true hrem, fun j => ?_⟩
  exact (decoded_bit_rem u _ j).trans (by rw [hrem, zeros_getD])

/-! ### The two windows -/

/-- A window word read while idle: its bits, with the same draw for those that hold no value, whichever the window. -/
theorem portRead_window_resp {s : State} {t : Target} (hb : s.busy = false) (hwin : ∀ r, t ≠ .reg r) :
    (portRead s t).resp = some (.okRead (fillDraws (targetCells s t) (Config.freeWord s.draws))) := by
  cases t with
  | reg r => exact absurd rfl (hwin r)
  | poly | rem | msg | cw =>
    simp only [portRead, hb, Bool.false_and, Bool.false_eq_true, if_false]
    split <;> rfl

/-- A bit of the message, read as one bit array, is that bit of its stream (20_memory.md R76). -/
theorem msgBit_of_messageIs {s : State} {bs : List Byte} (hb : MessageIs s bs) {j : Nat} (hj : j < 8 * bs.length) :
    msgBit s.mem.msg j = (fromBytes bs)[j]? := by
  obtain ⟨-, hbytes⟩ := hb
  rw [msgBit, hbytes _ (by omega), ← fromBytes_getElem? bs (j / 8) (Nat.mod_lt j (by decide)), Nat.div_add_mod]

theorem windowCells_congr {f g : Nat → Option Bool} {cap cap' w : Nat} (hcap : 32 * w + 32 ≤ cap)
    (hcap' : 32 * w + 32 ≤ cap') (h : ∀ j, j < 32 * w + 32 → f j = g j) : windowCells f cap w = windowCells g cap' w := by
  refine List.map_congr_left fun j hj => ?_
  rw [List.mem_range] at hj
  rw [if_pos (by omega), if_pos (by omega), h _ (by omega)]

/-- The bits of a whole message word are those of the codeword word with its number. -/
theorem targetCells_encoded {s : State} {bs : List Byte} (hp : s.params.legal) (he : encodeError s = none)
    (hb : MessageIs s bs) {w : Nat} (hw : w < s.regs.msgLen.toNat / 4) :
    targetCells (encoded s bs).completeOk (.cw w) = targetCells (encoded s bs).completeOk (.msg w) := by
  obtain ⟨hcap, -, -⟩ := encodedLen_le hp he
  obtain ⟨-, hmsg, -⟩ := encodeError_none he
  have hbytes := hb.1
  unfold encodedLen at hcap
  refine windowCells_congr (by show _ ≤ s.params.cwMaxBits; omega) (by show _ ≤ 8 * s.params.msgMaxBytes; omega)
    fun j hj => ?_
  have hstream : j < (fromBytes bs).length := by rw [fromBytes_length]; omega
  calc Store.get (encoded s bs).mem.cw j
    _ = (fromBytes bs ++ encodedRem s bs)[j]? := by
      rw [encoded_get_cw he hb, if_pos (by rw [fromBytes_length] at hstream; unfold encodedLen; omega)]
    _ = (fromBytes bs)[j]? := List.getElem?_append_left hstream
    _ = msgBit (encoded s bs).mem.msg j := (msgBit_of_messageIs hb (by rwa [fromBytes_length] at hstream)).symm

/-- Settles O37: both windows are read by one rule, and their words have the same bits. -/
theorem messageWordsEqualCodewordWords : Obligations.MessageWordsEqualCodewordWords := by
  intro s t w hp hr h herr hw
  obtain ⟨bs, he, hb, rfl⟩ := execEncode_next h herr
  obtain ⟨hcap, -, -⟩ := encodedLen_le hp he
  obtain ⟨-, hmsg, -⟩ := encodeError_none he
  unfold encodedLen at hcap
  obtain ⟨hcwMapped, hmsgMapped⟩ : (Target.cw w).mapped s.params ∧ (Target.msg w).mapped s.params := by
    simp only [Target.mapped, cwWords, msgWords, ceilDiv]
    omega
  have read {x : Target} (hx : x.mapped s.params) (hwin : ∀ r, x ≠ .reg r) :
      (portStep (.read (BitVec.ofNat 18 x.portOffset) .word) (encoded s bs).completeOk).resp = some (.okRead
        (fillDraws (targetCells (encoded s bs).completeOk x) (Config.freeWord s.draws))) := by
    rw [portStep_read_at (s := (encoded s bs).completeOk) hr hp hx, portRead_window_resp rfl hwin]
    rfl
  have hcwRead := read hcwMapped nofun
  have hmsgRead := read hmsgMapped nofun
  rw [← targetCells_encoded hp he hb hw] at hmsgRead
  simp only [Target.portOffset, cwBase, msgBase] at hcwRead hmsgRead
  exact ⟨_, hcwRead, hmsgRead⟩

end Sys2Proof.Machine
end

section
/-! The statements about a burst: its extent, and the known values of the reference generator. -/

namespace Sys2Proof.Machine

/-! ### The extent of a burst -/

/-- A burst flips the bits at its offsets from the seed (42_burst_error.md R193, R194). -/
theorem burstHits_iff {g : Generator} {seed n : Nat} (hn : 2 ≤ n) (i : Nat) :
    burstHits g seed n i = true ↔ ∃ q ∈ (burstFlips g seed n).toFinset, i = seed + q := by
  rw [← isFlipped_eq g seed n i hn, isFlipped, Bool.and_eq_true, decide_eq_true_eq, List.contains_iff_mem]
  simp only [List.mem_toFinset]
  constructor
  · rintro ⟨hle, hq⟩
    exact ⟨_, hq, by omega⟩
  · rintro ⟨q, hq, rfl⟩
    exact ⟨by omega, by rwa [Nat.add_sub_cancel_left]⟩

theorem burstFlips_lt {g : Generator} {seed n q : Nat} (hn : 2 ≤ n) (hq : q ∈ burstFlips g seed n) : q < n := by
  rcases List.mem_cons.1 hq with rfl | hq
  · omega
  rcases List.mem_cons.1 hq with rfl | hq
  · omega
  · have := (burstRng_position_range hn hq).2
    omega

/-- Every bit of a burst of length `n` lies in the `n` positions from the seed. -/
theorem burstHits_inside {g : Generator} {seed n i : Nat} (hn : 2 ≤ n) (h : burstHits g seed n i = true) :
    seed ≤ i ∧ i < seed + n := by
  obtain ⟨q, hq, rfl⟩ := (burstHits_iff hn i).1 h
  have := burstFlips_lt hn (List.mem_toFinset.1 hq)
  omega

theorem burstHits_first (g : Generator) (seed n : Nat) : burstHits g seed n seed = true := by simp [burstHits]

theorem burstHits_last (g : Generator) (seed n : Nat) : burstHits g seed n (seed + n - 1) = true := by simp [burstHits]

/-- The offsets of a burst, as a set: at least the two ends, and no more than were drawn or than it is long. -/
theorem burstFlips_card {g : Generator} {seed n : Nat} (hn : 2 ≤ n) :
    2 ≤ (burstFlips g seed n).toFinset.card ∧ (burstFlips g seed n).toFinset.card ≤ n ∧
      (burstFlips g seed n).toFinset.card ≤ 2 + (burstRng g seed n).1 := by
  refine ⟨?_, ?_, ?_⟩
  · have hends : ({0, n - 1} : Finset Nat) ⊆ (burstFlips g seed n).toFinset := by
      intro q hq
      simp only [Finset.mem_insert, Finset.mem_singleton] at hq
      rcases hq with rfl | rfl <;> simp [burstFlips]
    exact (Finset.card_pair (by omega)).symm.trans_le (Finset.card_le_card hends)
  · have hinside : (burstFlips g seed n).toFinset ⊆ Finset.range n := fun q hq =>
      Finset.mem_range.2 (burstFlips_lt hn (List.mem_toFinset.1 hq))
    exact (Finset.card_le_card hinside).trans_eq (Finset.card_range n)
  · refine (List.toFinset_card_le _).trans_eq ?_
    rw [burstFlips, List.length_cons, List.length_cons, burstRng_positions_length]
    omega

/-- Settles O39: CORRUPT flips the bits of its burst, which has both its ends among them and lies inside its length. -/
theorem corruptFlipsBothEndsAndStaysInside : Obligations.CorruptFlipsBothEndsAndStaysInside := by
  intro s h
  obtain ⟨-, hn, -, -⟩ := corruptError_none h
  obtain ⟨t, hexec, hcw, -⟩ := corruptCompletes s h
  have flipped {j : Nat} {b : Bool} (hb : Store.get s.mem.cw j = some b)
      (hj : burstHits s.params.gen s.regs.offset.toNat s.regs.burstLen.toNat j = true) :
      Store.get t.mem.cw j = some (!b) := by
    rw [hcw, hb, hj, Option.map_some, Bool.xor_true]
  have kept {j : Nat} (hj : burstHits s.params.gen s.regs.offset.toNat s.regs.burstLen.toNat j = false) :
      Store.get t.mem.cw j = Store.get s.mem.cw j := execCorrupt_keeps_unhit hexec hj
  obtain ⟨hcard, hcard_le, hcard_draws⟩ := burstFlips_card (g := s.params.gen) (seed := s.regs.offset.toNat) hn
  refine ⟨t, hexec, fun b hb => flipped hb (burstHits_first _ _ _), fun b hb => flipped hb (burstHits_last _ _ _),
    fun j hj => kept ?_, (burstFlips s.params.gen s.regs.offset.toNat s.regs.burstLen.toNat).toFinset, hcard, hcard_le,
    hcard_draws, fun q hq => burstFlips_lt hn (List.mem_toFinset.1 hq), fun j b hb => ?_⟩
  · by_contra hc
    have := burstHits_inside hn (by simpa using hc)
    omega
  · split
    · next hq => exact flipped hb ((burstHits_iff hn j).2 hq)
    · next hq => exact (kept (by simpa using mt (burstHits_iff hn j).1 hq)).trans hb

/-! ### The reference generator -/

/-- Settles O41 by evaluation, draw by draw. -/
theorem referenceGeneratorValues : Obligations.ReferenceGeneratorValues :=
  ⟨by decide, by decide, by decide, by decide, by decide, by decide⟩

end Sys2Proof.Machine
end

section
/-! The statements about sweeps derived from the rule of EXPERIMENT: where a sweep fails, that it misses no short burst, and
that trials do not depend on the old codeword (43_validator.md, section 2). -/

namespace Sys2Proof.Machine

/-! ### Where a sweep fails -/

theorem corruptError_param {s : State} {k L : Nat} (h : s.regs.bpol = true ∨ s.regs.burstLen.toNat < 2) :
    corruptError s k L = some .param := by
  unfold corruptError
  by_cases hbpol : s.regs.bpol = true
  · rw [if_pos hbpol]
  · rw [if_neg hbpol, if_pos (h.resolve_left hbpol)]

theorem corruptError_range {s : State} {k L : Nat} (hbpol : s.regs.bpol = false) (hburst : 2 ≤ s.regs.burstLen.toNat)
    (h : L < k + s.regs.burstLen.toNat) : corruptError s k L = some .range := by
  unfold corruptError
  rw [if_neg (by simp [hbpol]), if_neg (by omega), if_pos h, ite_self]

/-- Trials whose checks all pass are done, and leave the operands as they were. -/
theorem trialsDone_of_checks {s : State} {bs : List Byte} (hp : s.params.legal) (he : encodeError s = none)
    (hb : MessageIs s bs) {k : Nat} (hc : ∀ j, j < k → corruptError s j (encodedLen s) = none) :
    ∃ u, trialsDone k s = some u ∧ SameOperands s u := by
  induction k with
  | zero => exact ⟨s, rfl, .refl s⟩
  | succ k ih =>
    obtain ⟨u, hdone, hu⟩ := ih fun j hj => hc j (by omega)
    have htrial : trialAt k u = .done (trialed u bs k) :=
      trialAt_done (hu.params ▸ hp) (hu.encodeError_eq ▸ he) (hu.messageIs hb)
        (by rw [← hu.corruptError_eq, ← hu.encodedLen_eq]; exact hc k (by omega))
    exact ⟨trialed u bs k, by simp only [trialsDone, hdone, htrial], hu.trans (sameOperands_trialed u bs k)⟩

/-- A sweep fails at the first offset whose CORRUPT check fails, with its code. -/
theorem execExperiment_fails_in_corrupt {s : State} {bs : List Byte} {k : Nat} {e : ErrCode} (hp : s.params.legal)
    (he : encodeError s = none) (hb : MessageIs s bs) (hk : k < s.regs.trials.toNat)
    (hc : ∀ j, j < k → corruptError s j (encodedLen s) = none) (hf : corruptError s k (encodedLen s) = some e) :
    ∃ t, exec .experiment s = .next t ∧ t.status.err = true ∧ t.status.errCode = e ∧ t.regs.failOffset.toNat = k ∧
      t.regs.missed = 0 ∧ t.regs.total = 0 := by
  obtain ⟨u, hdone, hu⟩ := trialsDone_of_checks hp he hb hc
  have hraise : trialAt k u = .raised e (encoded u bs) :=
    trialAt_raises_corrupt (hu.params ▸ hp) (hu.encodeError_eq ▸ he) (hu.messageIs hb)
      (by rwa [← hu.corruptError_eq, ← hu.encodedLen_eq])
  exact ⟨_, execExperiment_fails hk hdone hraise, rfl, rfl, failOffset_toNat _ hk, rfl, rfl⟩

/-- Settles O44: at offset 0 where a configuration check fails, else at the first offset whose burst leaves the codeword. -/
theorem sweepFailsAtTheFirstOffsetOutOfRange : Obligations.SweepFailsAtTheFirstOffsetOutOfRange := by
  intro s hp htrials
  refine ⟨fun e he => ?_, fun bs he hb hconf => ?_, fun bs he hb hbpol hburst hlong => ?_,
    fun bs he hb hbpol hburst hfits => ?_⟩
  · exact execExperiment_fails htrials rfl (trialAt_raises_encode 0 he)
  · obtain ⟨t, hexec, herr, hcode, hfail, hmissed, htotal⟩ := execExperiment_fails_in_corrupt hp he hb htrials
      (fun j hj => absurd hj (Nat.not_lt_zero j)) (corruptError_param hconf)
    exact ⟨t, hexec, herr, hcode, BitVec.eq_of_toNat_eq hfail, hmissed, htotal⟩
  · exact execExperiment_fails_in_corrupt hp he hb (by omega)
      (fun j hj => corruptError_of_burst_inside hp he hbpol hburst (by omega))
      (corruptError_range hbpol hburst (by omega))
  · obtain ⟨_, _, t, -, -, hexec, -, -, -, ht⟩ := experimentSweeps s bs hp he hb hbpol hburst htrials hfits
    exact ⟨t, hexec, congrArg (fun t : State => t.status.err) ht, congrArg (fun t : State => t.regs.total) ht⟩

/-! ### No miss for short bursts -/

theorem trialCodeword_eq_xor (s : State) (bs : List Byte) (k : Nat) :
    trialCodeword s bs k = xorBits (encodedCodeword s bs)
      (burstPattern s.params.gen k s.regs.burstLen.toNat (encodedCodeword s bs).length) := burstOn_eq_xor _ _ _ _

/-- A burst no longer than the divisor's degree leaves a syndrome: the burst's own remainder (41_crc_engine.md, section 4). -/
theorem trialSyndrome_ne_zeros {s : State} {bs : List Byte} {k : Nat} (he : encodeError s = none) (hb : MessageIs s bs)
    (hc : corruptError s k (encodedLen s) = none) (hlast : Store.bit s.mem.poly (s.regs.polyLen.toNat - 1) = true)
    (hshort : s.regs.burstLen.toNat ≤ s.regs.lenCrc.toNat) : trialSyndrome s bs k ≠ zeros s.regs.lenCrc.toNat := by
  obtain ⟨-, hburst, -, hk⟩ := corruptError_none hc
  obtain ⟨hd, -, hmsg⟩ := encodeError_none he
  obtain ⟨hpos, -, -, hcrc⟩ := divisorError_none hd
  have hlen : s.regs.lenCrc.toNat = (divisor s).length - 1 := by rw [divisor_length]; omega
  have hcw := encodedCodeword_length he hb
  have hlong : (divisor s).length ≤ (encodedCodeword s bs).length := by rw [divisor_length, hcw, encodedLen]; omega
  have hlast' : (divisor s).getD ((divisor s).length - 1) false = true := by
    rw [divisor_getD, divisor_length, hlast, Bool.and_true, decide_eq_true_eq]
    omega
  rw [trialSyndrome, trialCodeword_eq_xor, remainderBits_xor_codeword (by rwa [divisor_length]) hlong
    (burstPattern_length _ _ _ _) (hlen ▸ remainderBits_encodedCodeword he hb), hlen]
  refine remainderBits_burst_ne_zeros (k := k) (divisor_head hd) hlast' (by rwa [burstPattern_length])
    ⟨k, ?_⟩ fun i hi => ?_
  · rw [burstPattern_getD, burstHits_first, hcw]
    simpa using show k < encodedLen s by omega
  · rw [burstPattern_getD, Bool.and_eq_true] at hi
    have := burstHits_inside hburst hi.2
    omega

/-- A trial with a short burst that is done is no miss. -/
theorem trialAt_done_detects {s t : State} {k : Nat} (hp : s.params.legal)
    (hlast : Store.bit s.mem.poly (s.regs.polyLen.toNat - 1) = true)
    (hshort : s.regs.burstLen.toNat ≤ s.regs.lenCrc.toNat) (h : trialAt k s = .done t) : t.status.clean = false := by
  rcases trialAt_cases hp k with ⟨e, -, hr⟩ | ⟨-, -, hr⟩ | ⟨bs, e, -, -, -, hr⟩ | ⟨bs, he, hb, hc, hr⟩ <;> rw [hr] at h
  · cases h
  · cases h
  · cases h
  · cases h
    exact decide_eq_false (trialSyndrome_ne_zeros he hb hc hlast hshort)

/-- A sweep none of whose trials is a miss counts none. -/
theorem sweep_finished_no_miss {P : State → Prop}
    (hdone : ∀ k u t, P u → trialAt k u = .done t → P t ∧ t.status.clean = false) {n k missed m : Nat} {s t : State}
    (hs : P s) (h : sweep n k missed s = .finished m t) : m = missed := by
  induction n generalizing k s with
  | zero =>
    cases h
    rfl
  | succ n ih =>
    rw [sweep] at h
    split at h
    · next u hu =>
      obtain ⟨hPu, hclean⟩ := hdone k s u hs hu
      simp only [hclean, Bool.false_eq_true, if_false] at h
      exact ih hPu h
    · cases h
    · cases h

/-- Settles O45: a sweep that finishes has had no miss, and one that fails leaves MISSED 0. -/
theorem noMissForBurstsUpToTheDegree : Obligations.NoMissForBurstsUpToTheDegree := by
  intro s t hp hlast hshort h
  rcases execExperiment_next h with ⟨m, u, hsweep, rfl⟩ | ⟨k, e, u, -, rfl⟩
  · obtain rfl : m = 0 := sweep_finished_no_miss (P := SameOperands s) (fun k v w hv hw =>
      ⟨hv.trans (trialAt_done_frame hw).sameOperands, trialAt_done_detects (hv.params ▸ hp)
        (by rwa [← hv.poly, ← hv.polyLen]) (by rwa [← hv.burstLen, ← hv.lenCrc]) hw⟩) (.refl s) hsweep
    rfl
  · rfl

/-! ### Independence of the old codeword -/

theorem SameTrialInputs.sameOperands {s u : State} (h : SameTrialInputs s u) : SameOperands s u := by
  obtain ⟨hparams, hmsg, hpoly, hpolyLen, hlenCrc, hmsgLen, hburstLen, hbpol⟩ := h
  exact ⟨hparams, hmsg, hpoly, hpolyLen, hlenCrc, hmsgLen, hburstLen, hbpol⟩

/-- Two states hold the same results of a trial: CLEAN, CW_LEN, REM, and the codeword. -/
def SameTrialResults (t v : State) : Prop :=
  v.status.clean = t.status.clean ∧ v.regs.cwLen = t.regs.cwLen ∧ (∀ j, Store.bit v.mem.rem j = Store.bit t.mem.rem j) ∧
    ∀ j, j < t.regs.cwLen.toNat → Store.get v.mem.cw j = Store.get t.mem.cw j

/-- Two runs of a trial have the same outcome: the same results, the same code, or both the model fault. -/
inductive SameTrialOutcome : Run → Run → Prop
  | done (t v : State) (hoperands : SameOperands t v) (hresults : SameTrialResults t v) : SameTrialOutcome (.done t) (.done v)
  | raised (e : ErrCode) (t v : State) : SameTrialOutcome (.raised e t) (.raised e v)
  | fault (f : Fault) : SameTrialOutcome (.fault f) (.fault f)

theorem sameTrialResults_trialed {s u : State} {bs : List Byte} {k : Nat} (h : SameOperands s u) (hp : s.params.legal)
    (he : encodeError s = none) (hb : MessageIs s bs) (hc : corruptError s k (encodedLen s) = none) :
    SameTrialResults (trialed s bs k) (trialed u bs k) := by
  have heu : encodeError u = none := h.encodeError_eq ▸ he
  have hbu := h.messageIs hb
  obtain ⟨-, hburst, -, hk⟩ := corruptError_none hc
  obtain ⟨-, hlt, -⟩ := encodedLen_le hp he
  refine ⟨?_, ?_, fun j => ?_, fun j hj => ?_⟩
  · rw [trialed_clean, trialed_clean, ← h.trialSyndrome_eq, ← h.lenCrc]
  · rw [trialed_cwLen heu hbu, trialed_cwLen he hb, ← h.encodedLen_eq]
  · rw [trialed_bit_rem, trialed_bit_rem, ← h.trialSyndrome_eq]
  · rw [trialed_cwLen he hb, BitVec.toNat_ofNat, Nat.mod_eq_of_lt hlt] at hj
    have hku : k + u.regs.burstLen.toNat ≤ encodedLen u := by rwa [← h.burstLen, ← h.encodedLen_eq]
    rw [trialed_get_cw he hb k hburst hk, trialed_get_cw heu hbu k (h.burstLen ▸ hburst) hku, if_pos hj,
      if_pos (h.encodedLen_eq ▸ hj), ← h.trialCodeword_eq]

/-- The outcome of a trial is a matter of its operands and its offset (43_validator.md, section 2). -/
theorem trialAt_sameTrialOutcome {s u : State} (h : SameOperands s u) (hp : s.params.legal) (k : Nat) :
    SameTrialOutcome (trialAt k s) (trialAt k u) := by
  have hpu : u.params.legal := h.params ▸ hp
  have heu := h.encodeError_eq
  have hcu : corruptError u k (encodedLen u) = corruptError s k (encodedLen s) := by
    rw [h.corruptError_eq, h.encodedLen_eq]
  rcases trialAt_cases hp k with ⟨e, he, hr⟩ | ⟨he, hm, hr⟩ | ⟨bs, e, he, hb, hc, hr⟩ | ⟨bs, he, hb, hc, hr⟩ <;> rw [hr]
  · rw [trialAt_raises_encode k (heu ▸ he)]
    exact .raised e s u
  · rw [trialAt_faults k (heu ▸ he) (h.messageUnset hm)]
    exact .fault .uninit
  · rw [trialAt_raises_corrupt hpu (heu ▸ he) (h.messageIs hb) (hcu.trans hc)]
    exact .raised e _ _
  · rw [trialAt_done hpu (heu ▸ he) (h.messageIs hb) (hcu.trans hc)]
    exact .done _ _ ((sameOperands_trialed s bs k).symm.trans (h.trans (sameOperands_trialed u bs k)))
      (sameTrialResults_trialed h hp he hb hc)

/-- Two sweeps end alike: with the same misses, with the same code at the same trial, or both in the model fault. -/
inductive SameSweepEnd : SweepEnd → SweepEnd → Prop
  | finished (m : Nat) (t v : State) : SameSweepEnd (.finished m t) (.finished m v)
  | failed (k : Nat) (e : ErrCode) (t v : State) : SameSweepEnd (.failed k e t) (.failed k e v)
  | fault (f : Fault) : SameSweepEnd (.fault f) (.fault f)

theorem sweep_sameSweepEnd {s u : State} (h : SameOperands s u) (hp : s.params.legal) (n k missed : Nat) :
    SameSweepEnd (sweep n k missed s) (sweep n k missed u) := by
  induction n generalizing k missed s u with
  | zero => exact .finished missed s u
  | succ n ih =>
    have hout := trialAt_sameTrialOutcome h hp k
    simp only [sweep]
    generalize hs : trialAt k s = r at hout ⊢
    generalize trialAt k u = q at hout ⊢
    cases hout with
    | done t v hoperands hresults =>
      simp only [hresults.1]
      exact ih hoperands ((trialAt_done_frame hs).sameOperands.params ▸ hp) _ _
    | raised e t v => exact .failed k e t v
    | fault f => exact .fault f

/-- TRIAL from states that agree on its operands and OFFSET. -/
theorem execTrial_sameOutcome {s u t : State} (h : SameOperands s u) (hp : s.params.legal)
    (hoffset : s.regs.offset = u.regs.offset) (hexec : exec .trial s = .next t) :
    ∃ v, exec .trial u = .next v ∧ v.status.errCode = t.status.errCode ∧
      (t.status.err = false → SameTrialResults t v) := by
  have hout := trialAt_sameTrialOutcome h hp s.regs.offset.toNat
  have hs : commandSteps .trial s = trialAt s.regs.offset.toNat s := rfl
  have hu : commandSteps .trial u = trialAt s.regs.offset.toNat u := by rw [hoffset]; rfl
  rw [← hs, ← hu] at hout
  rw [exec_eq] at hexec ⊢
  generalize commandSteps .trial s = r at hout hexec
  generalize commandSteps .trial u = q at hout ⊢
  cases hout with
  | done a b hoperands hresults =>
    cases hexec
    exact ⟨_, rfl, rfl, fun _ => hresults⟩
  | raised e a b =>
    cases hexec
    exact ⟨_, rfl, rfl, fun herr => by cases herr⟩
  | fault f => cases hexec

/-- EXPERIMENT from states that agree on the operands of a trial and on TRIALS. -/
theorem execExperiment_sameOutcome {s u t : State} (h : SameOperands s u) (hp : s.params.legal)
    (htrials : s.regs.trials = u.regs.trials) (hexec : exec .experiment s = .next t) :
    ∃ v, exec .experiment u = .next v ∧ v.status.errCode = t.status.errCode ∧ v.regs.missed = t.regs.missed ∧
      v.regs.total = t.regs.total ∧ (t.status.err = true → v.regs.failOffset = t.regs.failOffset) := by
  have hend := sweep_sameSweepEnd h hp s.regs.trials.toNat 0 0
  rw [exec_eq] at hexec ⊢
  simp only [commandSteps, experimentSteps, ← htrials] at hexec ⊢
  generalize sweep s.regs.trials.toNat 0 0 s = a at hend hexec
  generalize sweep s.regs.trials.toNat 0 0 u = b at hend ⊢
  cases hend with
  | finished m x y =>
    cases hexec
    exact ⟨_, rfl, rfl, rfl, rfl, fun herr => by cases herr⟩
  | failed k e x y =>
    cases hexec
    exact ⟨_, rfl, rfl, rfl, rfl, fun _ => rfl⟩
  | fault f => cases hexec

/-- Settles O46, for the one trial and for the sweep. -/
theorem trialOutcomeIgnoresTheOldCodeword : Obligations.TrialOutcomeIgnoresTheOldCodeword :=
  ⟨fun _ _ _ hp h hoffset => execTrial_sameOutcome h.sameOperands hp hoffset,
    fun _ _ _ hp h htrials => execExperiment_sameOutcome h.sameOperands hp htrials⟩

end Sys2Proof.Machine
end
